-- ==== Sys2Proof/Word.lean ====
section
/-! DEFINITION. The word types of the SCCD and its three packed values (00_scope.md R10, 10_state.md R21, R23, R28). -/

namespace Sys2Proof

/-- A command word or a response word: `CMD_BITS = 32` (00_scope.md R8). -/
abbrev Word := BitVec 32

/-- An unsigned byte: a cell, an immediate, a colour channel, a response status. -/
abbrev Byte := BitVec 8

/-- The value field of a response (30_encoding.md R75). -/
abbrev Value := BitVec 24

/-- A 4-bit number field: a register, bank or arena number (30_encoding.md R71, R74). -/
abbrev RegNo := BitVec 4

/-- A Dot: two signed bytes in two's complement (10_state.md R21). -/
structure Dot where
  x : Byte
  y : Byte
deriving DecidableEq, Repr

/-- A Figure: sixteen bits of pixels and the packed size byte (10_state.md R23). -/
structure Figure where
  data : BitVec 16
  wh : Byte
deriving DecidableEq, Repr

/-- An RGB entry: three named channels, never packed (20_memory.md R51, 10_state.md R28). -/
structure Rgb where
  r : Byte
  g : Byte
  b : Byte
deriving DecidableEq, Repr

end Sys2Proof
end

