-- ==== Sys2Proof/Machine/Flags.lean ====
section
/-! DEFINITION. The unit has no flags and no condition codes (10_state.md R34): every Boolean an operation computes goes out
in the value field of its response and is stored nowhere. These are the ways a result becomes a value (30_encoding.md R75). -/

namespace Sys2Proof.Machine

/-- A Boolean result: 1 for true, 0 for false. -/
def boolValue (b : Bool) : Value := if b then 1 else 0

/-- A result below `2 ^ 24`, zero-extended. -/
def natValue (n : Nat) : Value := BitVec.ofNat 24 n

/-- A byte result, zero-extended. -/
def byteValue (v : Byte) : Value := v.setWidth 24

/-- A Figure in a response: wh in bits 23:16 and data in bits 15:0 (10_state.md R23). -/
def figureValue (f : Figure) : Value := f.wh ++ f.data

/-- A Dot in a response: 0x00, then y in bits 15:8 and x in bits 7:0 (10_state.md R21, 43_dot.md R161). -/
def dotValue (v : Dot) : Value := 0x00#8 ++ v.y ++ v.x

end Sys2Proof.Machine
end

