-- ==== Sys2Proof/Config.lean ====
section
/-! DEFINITION. The OPEN parameters of 00_scope.md R9, as constants without a body: nothing can be proved of their values
but the laws that R9 states, and those laws hold by the TYPE of each constant. -/

namespace Sys2Proof.Config

/-- `PRNG_MUL` (R9): any 32-bit number (log 8). -/
opaque prngMul : Word

/-- `PRNG_INC` (R9): any 32-bit number (log 8). -/
opaque prngInc : Word

/-- `PRNG_RANGE(S, m + 1)` (R9): any function whose result is below its maximum; the law is the type `Fin (m + 1)` (log 8). -/
opaque prngRange : Word → (m : Nat) → Fin (m + 1)

/-- `PRNG_ADVANCE_ON_ZERO` (R9, D20): either Boolean (log 9). -/
opaque prngAdvanceOnZero : Bool

/-- The colours of palette indices 1 to 9, each as its number among the `13 ^ 3 - 1 = 2196` colours that are not black and
have every channel at most 12 (R9, D17). Every palette that obeys R9's three laws is one value of this constant (log 7). -/
opaque paletteColour : Fin 9 → Fin 2196

/-- The colour numbered `n`: its base-13 digits, most significant first, are the channels r, g, b. Number 0 is black. -/
def colour (n : Nat) : Rgb :=
  { r := BitVec.ofNat 8 (n / 169), g := BitVec.ofNat 8 (n / 13 % 13), b := BitVec.ofNat 8 (n % 13) }

/-- `PALETTE` (00_scope.md R9, 10_state.md R29): index 0 is black, the others are open. -/
def palette (i : Fin 10) : Rgb :=
  if h : i.val = 0 then colour 0 else colour ((paletteColour ⟨i.val - 1, by omega⟩).val + 1)

end Sys2Proof.Config
end

