-- ==== Sys2Proof/Syntax.lean ====
section
/-! DEFINITION. The commands of the unit: one constructor per row of spec/opcode_table.json, in the table's order.
Operands stand in the order of the header's fields (A, B, C, Hb, E), immediates after numbers; a `RegNo` is the raw 4-bit
field, so a bank number above 3 can be written and is refused by WellFormed (30_encoding.md R74). -/

namespace Sys2Proof

/-- A command of the unit (30_encoding.md R76). -/
inductive Instr where
  /-- NOP (45_system.md R190). -/
  | nop
  /-- STAT `#sel` (45_system.md R191). -/
  | stat (sel : Byte)
  /-- FWID `Fs` (40_figure.md R103). -/
  | fwid (s : RegNo)
  /-- FHGT `Fs` (40_figure.md R104). -/
  | fhgt (s : RegNo)
  /-- FGETB `Fs, #col, #row` (40_figure.md R105). -/
  | fgetb (s : RegNo) (col row : Byte)
  /-- FROT `Fd, Fs` (40_figure.md R106). -/
  | frot (d s : RegNo)
  /-- FRD `Fs` (40_figure.md R107). -/
  | frd (s : RegNo)
  /-- FPAINT `Bb, Dp, Fs, #c` (40_figure.md R108). -/
  | fpaint (b p s : RegNo) (c : Byte)
  /-- FBSET `Bb, Dp, #c` (41_framebuffer.md R120). -/
  | fbset (b p : RegNo) (c : Byte)
  /-- FBGET `Bb, Dp` (41_framebuffer.md R121). -/
  | fbget (b p : RegNo)
  /-- FBCOL `Bb, Dp, Fs` (41_framebuffer.md R123). -/
  | fbcol (b p s : RegNo)
  /-- FBDRAW `Bb, Dp, Fs, #c` (41_framebuffer.md R124). -/
  | fbdraw (b p s : RegNo) (c : Byte)
  /-- FBROWF `Bb, #y` (41_framebuffer.md R126). -/
  | fbrowf (b : RegNo) (y : Byte)
  /-- FBROWE `Bb, #y` (41_framebuffer.md R127). -/
  | fbrowe (b : RegNo) (y : Byte)
  /-- FBCLR `Bb` (41_framebuffer.md R129). -/
  | fbclr (b : RegNo)
  /-- FBCLRR `Bb, #y0, #y1` (41_framebuffer.md R130). -/
  | fbclrr (b : RegNo) (y0 y1 : Byte)
  /-- FBREND `Bb` (41_framebuffer.md R133). -/
  | fbrend (b : RegNo)
  /-- FBROWS `Bb, #c, [P0, …, P7]` (41_framebuffer.md R135). -/
  | fbrows (b : RegNo) (c : Byte) (p0 p1 p2 p3 p4 p5 p6 p7 : Word)
  /-- PSEED `#seed` (42_prng.md R151). -/
  | pseed (seed : Word)
  /-- PNEXT `#max` (42_prng.md R152). -/
  | pnext (max : Byte)
  /-- DLD `Dd, #x, #y` (43_dot.md R160). -/
  | dld (d : RegNo) (x y : Byte)
  /-- DRD `Ds` (43_dot.md R161). -/
  | drd (s : RegNo)
  /-- DMOVW `Dd, Ds, Dt` (43_dot.md R162). -/
  | dmovw (d s t : RegNo)
  /-- DTODIR `Dd, Ds` (43_dot.md R163). -/
  | dtodir (d s : RegNo)
  /-- DOPP `Ds, Dt` (43_dot.md R164). -/
  | dopp (s t : RegNo)
  /-- DZERO `Ds` (43_dot.md R165). -/
  | dzero (s : RegNo)
  /-- AINIT `Aa, #cap` (44_arena.md R171). -/
  | ainit (a : RegNo) (cap : BitVec 16)
  /-- APUSH `Aa, Ds` (44_arena.md R172). -/
  | apush (a s : RegNo)
  /-- AREM `Aa, #i` (44_arena.md R173). -/
  | arem (a : RegNo) (i : Byte)
  /-- AGET `Dd, Aa, #i`; in field order, the arena (A) before the destination (B) (44_arena.md R174). -/
  | aget (a d : RegNo) (i : Byte)
  /-- ASET `Aa, #i, Ds` (44_arena.md R175). -/
  | aset (a s : RegNo) (i : Byte)
  /-- ACNT `Aa` (44_arena.md R176). -/
  | acnt (a : RegNo)
  /-- FLD `Fd, #wh, #data` (40_figure.md R102). -/
  | fld (d : RegNo) (wh : Byte) (data : BitVec 16)
deriving DecidableEq, Repr

end Sys2Proof
end

