-- ==== Sys2Proof/WellFormed.lean ====
section
/-! DEFINITION. Which commands have a legal encoding (30_encoding.md R74, R83 b and c): a bank number is at most 3 and a
STAT selector at most 2. The reserved bits of R83 (a) are no operand; Decode checks them. An FLD literal that is not a
valid Figure is well formed as an encoding (R83: "FLD has no reserved bits") and faults when it is executed. -/

namespace Sys2Proof

/-- A bank number is 0 to 3; 4 to 15 are reserved (30_encoding.md R74). -/
def bankOk (b : RegNo) : Bool := b.toNat ≤ 3

/-- The STAT selectors are 0, 1 and 2 (30_encoding.md R77, R83 c). -/
def selOk (sel : Byte) : Bool := sel.toNat ≤ 2

/-- The command has a legal encoding (30_encoding.md R83 b, c). -/
def Instr.wellFormed (i : Instr) : Bool :=
  match i with
  | .nop => true
  | .stat sel => selOk sel
  | .fwid _ => true
  | .fhgt _ => true
  | .fgetb _ _ _ => true
  | .frot _ _ => true
  | .frd _ => true
  | .fpaint b _ _ _ => bankOk b
  | .fbset b _ _ => bankOk b
  | .fbget b _ => bankOk b
  | .fbcol b _ _ => bankOk b
  | .fbdraw b _ _ _ => bankOk b
  | .fbrowf b _ => bankOk b
  | .fbrowe b _ => bankOk b
  | .fbclr b => bankOk b
  | .fbclrr b _ _ => bankOk b
  | .fbrend b => bankOk b
  | .fbrows b _ _ _ _ _ _ _ _ _ => bankOk b
  | .pseed _ => true
  | .pnext _ => true
  | .dld _ _ _ => true
  | .drd _ => true
  | .dmovw _ _ _ => true
  | .dtodir _ _ => true
  | .dopp _ _ => true
  | .dzero _ => true
  | .ainit _ _ => true
  | .apush _ _ => true
  | .arem _ _ => true
  | .aget _ _ _ => true
  | .aset _ _ _ => true
  | .acnt _ => true
  | .fld _ _ _ => true

end Sys2Proof
end

