-- ==== Sys2Proof/Decode.lean ====
section
/-! DEFINITION. From command words to commands and back (30_encoding.md R70 to R77, R80, R83, R84): the fields of a header,
the thirteen formats, the opcode map, the decoder, which is total and rejects by name, and the encoder. -/

namespace Sys2Proof

/-! ### The fields of a header word (R71) -/

/-- `op`, bits 31:24. -/
def opOf (w : Word) : Byte := w.extractLsb' 24 8
/-- `A`, bits 23:20. -/
def fieldA (w : Word) : RegNo := w.extractLsb' 20 4
/-- `B`, bits 19:16. -/
def fieldB (w : Word) : RegNo := w.extractLsb' 16 4
/-- `C`, bits 15:12. -/
def fieldC (w : Word) : RegNo := w.extractLsb' 12 4
/-- `Hb`, bits 15:8. -/
def fieldHb (w : Word) : Byte := w.extractLsb' 8 8
/-- `E`, bits 7:0. -/
def fieldE (w : Word) : Byte := w.extractLsb' 0 8
/-- `I16`, bits 15:0; in format `L` the field `data`. -/
def fieldI16 (w : Word) : BitVec 16 := w.extractLsb' 0 16
/-- `major` of format `L`, bits 31:28. -/
def fieldMajor (w : Word) : RegNo := w.extractLsb' 28 4
/-- `d` of format `L`, bits 27:24. -/
def fieldD (w : Word) : RegNo := w.extractLsb' 24 4
/-- `wh` of format `L`, bits 23:16. -/
def fieldWh (w : Word) : Byte := w.extractLsb' 16 8

/-- The length of a command in words, a function of the opcode byte alone (R72). -/
def commandLength (w : Word) : Nat :=
  if opOf w = 0x29#8 then 9 else if opOf w = 0x30#8 then 2 else 1

/-! ### Formats (R73) -/

/-- The formats of R73; `N1` is `N+1` and `AE8` is `AE+8`. -/
inductive Format where
  | N | N1 | E | A | AB | ABC | AE | ABE | ABCE | AHE | AI | AE8 | L
deriving DecidableEq, Repr

/-- The reserved bits of the format are all zero (R73, R83 a). -/
def Format.reservedClear (f : Format) (w : Word) : Bool :=
  match f with
  | .N => w.extractLsb' 0 24 == 0#24
  | .N1 => w.extractLsb' 0 24 == 0#24
  | .E => w.extractLsb' 8 16 == 0#16
  | .A => w.extractLsb' 0 20 == 0#20
  | .AB => w.extractLsb' 0 16 == 0#16
  | .ABC => w.extractLsb' 0 12 == 0#12
  | .AE => w.extractLsb' 8 12 == 0#12
  | .ABE => w.extractLsb' 8 8 == 0#8
  | .ABCE => w.extractLsb' 8 4 == 0#4
  | .AHE => w.extractLsb' 16 4 == 0#4
  | .AI => w.extractLsb' 16 4 == 0#4
  | .AE8 => w.extractLsb' 8 12 == 0#12
  | .L => true

/-! ### The opcode map (R76) -/

/-- One row of the opcode map: the opcode byte, the format, and the command that a header and its payload words name. -/
structure Row where
  op : Byte
  fmt : Format
  build : Word → List Word → Instr

/-- The rows selected by the whole opcode byte, in the order of R76; every operand is read as R77 says. -/
def rows : List Row := [
  ⟨0x00#8, .N, fun _ _ => .nop⟩,
  ⟨0x01#8, .E, fun w _ => .stat (fieldE w)⟩,
  ⟨0x10#8, .A, fun w _ => .fwid (fieldA w)⟩,
  ⟨0x11#8, .A, fun w _ => .fhgt (fieldA w)⟩,
  ⟨0x12#8, .AHE, fun w _ => .fgetb (fieldA w) (fieldE w) (fieldHb w)⟩,
  ⟨0x13#8, .AB, fun w _ => .frot (fieldA w) (fieldB w)⟩,
  ⟨0x14#8, .A, fun w _ => .frd (fieldA w)⟩,
  ⟨0x15#8, .ABCE, fun w _ => .fpaint (fieldA w) (fieldB w) (fieldC w) (fieldE w)⟩,
  ⟨0x20#8, .ABE, fun w _ => .fbset (fieldA w) (fieldB w) (fieldE w)⟩,
  ⟨0x21#8, .AB, fun w _ => .fbget (fieldA w) (fieldB w)⟩,
  ⟨0x22#8, .ABC, fun w _ => .fbcol (fieldA w) (fieldB w) (fieldC w)⟩,
  ⟨0x23#8, .ABCE, fun w _ => .fbdraw (fieldA w) (fieldB w) (fieldC w) (fieldE w)⟩,
  ⟨0x24#8, .AE, fun w _ => .fbrowf (fieldA w) (fieldE w)⟩,
  ⟨0x25#8, .AE, fun w _ => .fbrowe (fieldA w) (fieldE w)⟩,
  ⟨0x26#8, .A, fun w _ => .fbclr (fieldA w)⟩,
  ⟨0x27#8, .AHE, fun w _ => .fbclrr (fieldA w) (fieldHb w) (fieldE w)⟩,
  ⟨0x28#8, .A, fun w _ => .fbrend (fieldA w)⟩,
  ⟨0x29#8, .AE8, fun w p => .fbrows (fieldA w) (fieldE w)
    (p.getD 0 0) (p.getD 1 0) (p.getD 2 0) (p.getD 3 0) (p.getD 4 0) (p.getD 5 0) (p.getD 6 0) (p.getD 7 0)⟩,
  ⟨0x30#8, .N1, fun _ p => .pseed (p.getD 0 0)⟩,
  ⟨0x31#8, .E, fun w _ => .pnext (fieldE w)⟩,
  ⟨0x40#8, .AHE, fun w _ => .dld (fieldA w) (fieldE w) (fieldHb w)⟩,
  ⟨0x41#8, .A, fun w _ => .drd (fieldA w)⟩,
  ⟨0x42#8, .ABC, fun w _ => .dmovw (fieldA w) (fieldB w) (fieldC w)⟩,
  ⟨0x43#8, .AB, fun w _ => .dtodir (fieldA w) (fieldB w)⟩,
  ⟨0x44#8, .AB, fun w _ => .dopp (fieldA w) (fieldB w)⟩,
  ⟨0x45#8, .A, fun w _ => .dzero (fieldA w)⟩,
  ⟨0x50#8, .AI, fun w _ => .ainit (fieldA w) (fieldI16 w)⟩,
  ⟨0x51#8, .AB, fun w _ => .apush (fieldA w) (fieldB w)⟩,
  ⟨0x52#8, .AE, fun w _ => .arem (fieldA w) (fieldE w)⟩,
  ⟨0x53#8, .ABE, fun w _ => .aget (fieldA w) (fieldB w) (fieldE w)⟩,
  ⟨0x54#8, .ABE, fun w _ => .aset (fieldA w) (fieldB w) (fieldE w)⟩,
  ⟨0x55#8, .A, fun w _ => .acnt (fieldA w)⟩]

/-- FLD, selected by the major nibble 0xF alone (R71, R76). -/
def fldRow : Row := ⟨0xF0#8, .L, fun w _ => .fld (fieldD w) (fieldWh w) (fieldI16 w)⟩

/-- The row that a header word selects; none for an illegal opcode (R76, R80). -/
def rowOf (w : Word) : Option Row :=
  if fieldMajor w = 0xF#4 then some fldRow else rows.find? (fun r => r.op == opOf w)

/-! ### Grouping and decoding -/

/-- The first complete command of a word stream and the words after it; none while the command is incomplete (R72). -/
def takeCommand (stream : List Word) : Option (List Word × List Word) :=
  match stream with
  | [] => none
  | w :: ws =>
    if ws.length + 1 < commandLength w then none
    else some (w :: ws.take (commandLength w - 1), ws.drop (commandLength w - 1))

/-- Why a list of words is no command. -/
inductive Reject where
  /-- The list is not one whole command (R72): empty, or not as long as its opcode byte says. -/
  | wrongLength
  /-- The opcode byte is not in the map (R80): cause 0x01. -/
  | illegalOpcode
  /-- A reserved bit is set, a bank is above 3 or a STAT selector above 2 (R83): cause 0x02. -/
  | reservedField
deriving DecidableEq, Repr

/-- The decoder: the command that a whole command's words name, or why they name none (R76, R80, R83). It reads no state
(R84). -/
def decode (ws : List Word) : Except Reject Instr :=
  match ws with
  | [] => .error .wrongLength
  | w :: pay =>
    if pay.length + 1 = commandLength w then
      match rowOf w with
      | none => .error .illegalOpcode
      | some row =>
        if row.fmt.reservedClear w && (row.build w pay).wellFormed then .ok (row.build w pay)
        else .error .reservedField
    else .error .wrongLength

/-! ### Encoding -/

/-- A header of the fields op, A, B, C, E, with bits 11:8 zero. -/
def packABCE (op : Byte) (a b c : RegNo) (e : Byte) : Word := op ++ a ++ b ++ c ++ 0#4 ++ e
/-- A header of the fields op, A, Hb, E, with bits 19:16 zero. -/
def packAHE (op : Byte) (a : RegNo) (h e : Byte) : Word := op ++ a ++ 0#4 ++ h ++ e
/-- A header of the fields op, A, I16, with bits 19:16 zero. -/
def packAI (op : Byte) (a : RegNo) (i : BitVec 16) : Word := op ++ a ++ 0#4 ++ i
/-- A header of format `L`. -/
def packL (d : RegNo) (wh : Byte) (data : BitVec 16) : Word := 0xF#4 ++ d ++ wh ++ data

/-- The header word of a command (R71, R73, R76, R77). -/
def Instr.header (i : Instr) : Word :=
  match i with
  | .nop => packABCE 0x00 0 0 0 0
  | .stat sel => packABCE 0x01 0 0 0 sel
  | .fwid s => packABCE 0x10 s 0 0 0
  | .fhgt s => packABCE 0x11 s 0 0 0
  | .fgetb s col row => packAHE 0x12 s row col
  | .frot d s => packABCE 0x13 d s 0 0
  | .frd s => packABCE 0x14 s 0 0 0
  | .fpaint b p s c => packABCE 0x15 b p s c
  | .fbset b p c => packABCE 0x20 b p 0 c
  | .fbget b p => packABCE 0x21 b p 0 0
  | .fbcol b p s => packABCE 0x22 b p s 0
  | .fbdraw b p s c => packABCE 0x23 b p s c
  | .fbrowf b y => packABCE 0x24 b 0 0 y
  | .fbrowe b y => packABCE 0x25 b 0 0 y
  | .fbclr b => packABCE 0x26 b 0 0 0
  | .fbclrr b y0 y1 => packAHE 0x27 b y0 y1
  | .fbrend b => packABCE 0x28 b 0 0 0
  | .fbrows b c _ _ _ _ _ _ _ _ => packABCE 0x29 b 0 0 c
  | .pseed _ => packABCE 0x30 0 0 0 0
  | .pnext max => packABCE 0x31 0 0 0 max
  | .dld d x y => packAHE 0x40 d y x
  | .drd s => packABCE 0x41 s 0 0 0
  | .dmovw d s t => packABCE 0x42 d s t 0
  | .dtodir d s => packABCE 0x43 d s 0 0
  | .dopp s t => packABCE 0x44 s t 0 0
  | .dzero s => packABCE 0x45 s 0 0 0
  | .ainit a cap => packAI 0x50 a cap
  | .apush a s => packABCE 0x51 a s 0 0
  | .arem a i => packABCE 0x52 a 0 0 i
  | .aget a d i => packABCE 0x53 a d 0 i
  | .aset a s i => packABCE 0x54 a s 0 i
  | .acnt a => packABCE 0x55 a 0 0 0
  | .fld d wh data => packL d wh data

/-- The payload words of a command, first word first (R70, R77). -/
def Instr.payload (i : Instr) : List Word :=
  match i with
  | .pseed seed => [seed]
  | .fbrows _ _ p0 p1 p2 p3 p4 p5 p6 p7 => [p0, p1, p2, p3, p4, p5, p6, p7]
  | .nop | .stat _ | .fwid _ | .fhgt _ | .fgetb _ _ _ | .frot _ _ | .frd _ | .fpaint _ _ _ _ => []
  | .fbset _ _ _ | .fbget _ _ | .fbcol _ _ _ | .fbdraw _ _ _ _ | .fbrowf _ _ | .fbrowe _ _ | .fbclr _ => []
  | .fbclrr _ _ _ | .fbrend _ | .pnext _ | .dld _ _ _ | .drd _ | .dmovw _ _ _ | .dtodir _ _ | .dopp _ _ => []
  | .dzero _ | .ainit _ _ | .apush _ _ | .arem _ _ | .aget _ _ _ | .aset _ _ _ | .acnt _ | .fld _ _ _ => []

/-- The encoder: the words of a command as the host sends them. -/
def encode (i : Instr) : List Word := i.header :: i.payload

/-! ### Words numbered as the opcode table numbers them -/

/-- Word `k` of an instruction whose bits are `w`: bits `32k+31` to `32k`, the first word in the least significant bits. -/
def tableWordAt (nbits w k : Nat) : Word := BitVec.ofNat 32 ((w % 2 ^ nbits) >>> (32 * k))

/-- The words of the one command that starts with the instruction's first word; bits from `nbits` up are zero. -/
def tableWords (nbits w : Nat) : List Word :=
  (List.range (commandLength (tableWordAt nbits w 0))).map (tableWordAt nbits w)

/-- The command the decoder reads from an instruction whose bits are `w`. -/
def decodeTableWord (nbits w : Nat) : Option Instr :=
  match decode (tableWords nbits w) with
  | .ok i => some i
  | .error _ => none

end Sys2Proof
end

