-- ==== Sys2Proof/Machine/State.lean ====
section
/-! DEFINITION. The whole state of the unit (10_state.md R20), the port queues that carry a run's inputs and outputs (R36),
the reasons a step could stop, and the state after reset (70_reset_and_hazards.md R230). -/

namespace Sys2Proof.Machine

/-- A sparse memory: (address, value) pairs, addresses strictly rising, none holding the value an unlisted address reads
as. With `α = Byte` it is a list of `Host.Cell`. -/
abbrev Memory (α : Type) := List (Nat × α)

/-- One request on the paint port: bank, signed 16-bit position, colour (20_memory.md R57). -/
structure PaintRequest where
  bank : RegNo
  px : BitVec 16
  py : BitVec 16
  colour : Byte
deriving DecidableEq, Repr

/-- The paint walk of an FPAINT that waits for an answer: the command's operands and the number of pixels already
accepted, which is the index in `pixels` of the pixel whose request is outstanding (10_state.md R35 b). -/
structure PaintWalk where
  bank : RegNo
  dot : RegNo
  fig : RegNo
  colour : Byte
  pos : Nat
deriving DecidableEq, Repr

/-- The state of the unit, and after it the four port queues, which are the model's own fields (log 2). -/
structure State where
  /-- Dot registers D0 to D15 (10_state.md R21). -/
  dots : Vector Dot 16
  /-- Figure registers F0 to F15 (10_state.md R23). -/
  figs : Vector Figure 16
  /-- Cells of the four banks, keyed by `cellAddr` (10_state.md R26); an unlisted cell reads 0 (log 3). -/
  cells : Memory Byte
  /-- The LED buffer, in strip order (10_state.md R28). -/
  leds : Vector Rgb 256
  /-- The PRNG state `S` (10_state.md R30). -/
  prng : Word
  /-- Arena capacities CAP (10_state.md R31). -/
  caps : Vector Nat 16
  /-- Arena live counts COUNT (10_state.md R31). -/
  counts : Vector Nat 16
  /-- Arena entry slots ENT, keyed by `entAddr` (10_state.md R31); an unlisted slot reads (0, 0) (log 6). -/
  ents : Memory Dot
  /-- FAULT: 0 while running, else the cause (10_state.md R32). -/
  fault : Byte
  /-- FCMD: the header word of the faulting command (10_state.md R32). -/
  fcmd : Word
  /-- The command assembler: the words of an incomplete command, header first (10_state.md R35 a). -/
  asm : List Word
  /-- The paint walk in progress, if any (10_state.md R35 b). -/
  walk : Option PaintWalk
  /-- Words the host has sent and the unit has not taken, oldest first (20_memory.md R59). -/
  cmdPort : List Word
  /-- Response words sent and not read by the host, oldest first (20_memory.md R59). -/
  responses : List Word
  /-- The acceptor's answers not yet used, in the order of the requests (20_memory.md R57). -/
  paintAnswers : List Bool
  /-- Requests sent on the paint port, oldest first (20_memory.md R57). -/
  paintRequests : List PaintRequest
deriving DecidableEq, Repr

/-- Reasons a step could stop the model: none. The unit's own faults (60_exceptions.md R203) and its refusals while halted
(R205) are next states, and its two hangs (R212) are next states in which it still waits, so no step needs a reason here
(R218: the step is total). Nobody raises it; safe. -/
inductive Fault where
deriving DecidableEq, Repr

/-- Reasons the model could have no meaning for a command. -/
inductive Refusal where
  /-- Raised by an arm of `exec` whose instruction has no meaning yet; no arm raises it now. Safe: the model stops. -/
  | notModelled (mnemonic : String)
deriving DecidableEq, Repr

/-- The values that reset leaves unspecified, chosen by the environment (70_reset_and_hazards.md R231, R232). -/
structure Unspecified where
  cells : Memory Byte
  leds : Vector Rgb 256
  prng : Word
  ents : Memory Dot
deriving DecidableEq, Repr

/-- The unit right after reset when the environment chose `u`, with empty ports (70_reset_and_hazards.md R230). -/
def State.resetWith (u : Unspecified) : State where
  dots := Vector.replicate 16 { x := 0, y := 0 }
  figs := Vector.replicate 16 { data := 0, wh := 0 }
  cells := u.cells
  leds := u.leds
  prng := u.prng
  caps := Vector.replicate 16 0
  counts := Vector.replicate 16 0
  ents := u.ents
  fault := 0
  fcmd := 0
  asm := []
  walk := none
  cmdPort := []
  responses := []
  paintAnswers := []
  paintRequests := []

/-- The machine right after reset. The unspecified contents are the values of log 3 to 6 (DESIGN CHOICE, unsafe): every cell
0, every LED entry black, `S = 0`, every slot (0, 0). -/
def State.reset : State :=
  State.resetWith { cells := [], leds := Vector.replicate 256 { r := 0, g := 0, b := 0 }, prng := 0, ents := [] }

end Sys2Proof.Machine
end

