-- ==== Sys2Proof/Machine/Ops.lean ====
section
/-! DEFINITION. The named operations over memories, registers and ports; sending a response (30_encoding.md R75); taking a
fault and refusing while halted (60_exceptions.md R203, R205, R206); reset (70_reset_and_hazards.md R230). -/

namespace Sys2Proof.Machine

/-! ### Sparse memories in canonical form -/

/-- The value at address `a`; an unlisted address reads `d`. -/
def Memory.read {α : Type} (d : α) (m : Memory α) (a : Nat) : α :=
  match m with
  | [] => d
  | e :: rest => if a = e.1 then e.2 else Memory.read d rest a

/-- Write `v` at address `a`, keeping the addresses rising and dropping the entry when `v` is what an unlisted address
reads. -/
def Memory.write {α : Type} [DecidableEq α] (d : α) (m : Memory α) (a : Nat) (v : α) : Memory α :=
  match m with
  | [] => if v = d then [] else [(a, v)]
  | e :: rest =>
    if a < e.1 then (if v = d then e :: rest else (a, v) :: e :: rest)
    else if a = e.1 then (if v = d then rest else (a, v) :: rest)
    else e :: Memory.write d rest a v

/-- Replace the whole range `lo ≤ a < hi` by the values `f a`. -/
def Memory.fill {α : Type} [DecidableEq α] (d : α) (m : Memory α) (lo hi : Nat) (f : Nat → α) : Memory α :=
  m.filter (fun e => decide (e.1 < lo))
    ++ (List.range' lo (hi - lo)).filterMap (fun a => if f a = d then none else some (a, f a))
    ++ m.filter (fun e => decide (lo ≤ e.1) && decide (hi ≤ e.1))

/-- The canonical form: addresses strictly rising and below `bound`, no entry equal to what an unlisted address reads. -/
def Memory.wf {α : Type} [DecidableEq α] (d : α) (bound : Nat) (m : Memory α) : Bool :=
  decide (m.Pairwise (fun e e' => e.1 < e'.1)) && m.all (fun e => decide (e.1 < bound) && !decide (e.2 = d))

/-! ### Registers (10_state.md R21, R23, R31) -/

/-- `D[r]`. -/
def readDot (s : State) (r : RegNo) : Dot := s.dots[r.toNat]'r.isLt

/-- `D[r] <- v`. -/
def writeDot (r : RegNo) (v : Dot) (s : State) : State := { s with dots := s.dots.set r.toNat v r.isLt }

/-- `F[r]`. -/
def readFig (s : State) (r : RegNo) : Figure := s.figs[r.toNat]'r.isLt

/-- `F[r] <- v`. -/
def writeFig (r : RegNo) (v : Figure) (s : State) : State := { s with figs := s.figs.set r.toNat v r.isLt }

/-- `CAP[a]`. -/
def readCap (s : State) (a : RegNo) : Nat := s.caps[a.toNat]'a.isLt

/-- `CAP[a] <- n`. -/
def writeCap (a : RegNo) (n : Nat) (s : State) : State := { s with caps := s.caps.set a.toNat n a.isLt }

/-- `COUNT[a]`. -/
def readCount (s : State) (a : RegNo) : Nat := s.counts[a.toNat]'a.isLt

/-- `COUNT[a] <- n`. -/
def writeCount (a : RegNo) (n : Nat) (s : State) : State := { s with counts := s.counts.set a.toNat n a.isLt }

/-- `S <- v` (10_state.md R30). -/
def writePrng (v : Word) (s : State) : State := { s with prng := v }

/-! ### Arena slots (10_state.md R31) -/

/-- The key of slot `i` of arena `a`: index-major, so that two arenas share no key (log 12). -/
def entAddr (a : RegNo) (i : Nat) : Nat := i * 16 + a.toNat

/-- `ENT[a][i]`. -/
def readEnt (s : State) (a : RegNo) (i : Nat) : Dot := Memory.read ⟨0, 0⟩ s.ents (entAddr a i)

/-- `ENT[a][i] <- v`. -/
def writeEnt (a : RegNo) (i : Nat) (v : Dot) (s : State) : State :=
  { s with ents := Memory.write ⟨0, 0⟩ s.ents (entAddr a i) v }

/-! ### Cells (00_scope.md R12, R14; 10_state.md R26) -/

/-- `ongrid(x, y)`: the position is on the 8 by 32 grid (R14). -/
def onGrid (x y : Int) : Bool := decide (0 ≤ x) && decide (x < 8) && decide (0 ≤ y) && decide (y < 32)

/-- The key of `CELL[b][y][x]`; the order inside a bank is not observable (R26, log 11). -/
def cellAddr (b : RegNo) (x y : Nat) : Nat := b.toNat * 256 + y * 8 + x

/-- `CellRead(b, x, y)`: the cell on the grid, 0 off it (R12, 41_framebuffer.md R121). -/
def cellRead (s : State) (b : RegNo) (x y : Int) : Byte :=
  if onGrid x y then Memory.read 0 s.cells (cellAddr b x.toNat y.toNat) else 0

/-- `CellWrite(b, x, y, v)`: the cell on the grid, nothing off it (R12, 41_framebuffer.md R120). -/
def cellWrite (b : RegNo) (x y : Int) (v : Byte) (s : State) : State :=
  if onGrid x y then { s with cells := Memory.write 0 s.cells (cellAddr b x.toNat y.toNat) v } else s

/-- Write rows `y0 ≤ y < y1` of bank `b`, cell `(x, y)` taking the value `f x y`; for `y1 ≤ 32`. -/
def cellFillRows (b : RegNo) (y0 y1 : Nat) (f : Nat → Nat → Byte) (s : State) : State :=
  { s with cells := Memory.fill 0 s.cells (cellAddr b 0 y0) (cellAddr b 0 y1) fun a => f (a % 8) (a / 8 % 32) }

/-! ### The LED buffer (10_state.md R28, 20_memory.md R61) -/

/-- A vector of `n` values computed from their indices. -/
def tabulate {α : Type} (n : Nat) (f : Nat → α) : Vector α n := ⟨((List.range n).map f).toArray, by simp⟩

/-- `LEDIDX(x, y)`, the serpentine map (R61). -/
def ledIdx (x y : Nat) : Nat := if y % 2 = 0 then y * 8 + (7 - x) else y * 8 + x

/-- The grid position whose LED index is `i`: the inverse of `ledIdx` (R61: "a bijection"). -/
def ledPos (i : Nat) : Nat × Nat := (if i / 8 % 2 = 0 then 7 - i % 8 else i % 8, i / 8)

/-- Write all 256 LED entries at once (R28). -/
def writeLeds (f : Nat → Rgb) (s : State) : State := { s with leds := tabulate 256 f }

/-- What the display reads: the 256 entries in index order (20_memory.md R58, log 17). -/
def displayFrame (s : State) : List Rgb := s.leds.toList

/-! ### Responses (30_encoding.md R75) -/

/-- The response word of a status and a value. -/
def responseWord (status : Byte) (value : Value) : Word := status ++ value

/-- Send one response word; responses leave in the order of the commands (20_memory.md R59). -/
def sendResponse (status : Byte) (value : Value) (s : State) : State :=
  { s with responses := s.responses ++ [responseWord status value] }

/-- `respond(v)`: status 0x00, value `v` (00_scope.md R12). -/
def respond (v : Value) (s : State) : State := sendResponse 0x00 v s

/-! ### Faults (60_exceptions.md R201, R203, R205, R206) -/

/-- The fault causes (R201). -/
inductive FaultCause where
  | illegalOpcode
  | reservedField
  | invalidFigure
deriving DecidableEq, Repr

/-- The code that FAULT and the response status take (R201). -/
def FaultCause.code (c : FaultCause) : Byte :=
  match c with
  | .illegalOpcode => 0x01
  | .reservedField => 0x02
  | .invalidFigure => 0x03

/-- The unit is halted exactly when FAULT is not 0 (10_state.md R32). -/
def State.halted (s : State) : Bool := s.fault != 0

/-- `raise Fault(code)`: the fault action; the unit is halted afterwards (R203). It transfers control nowhere: no vector is read,
and the words at hand and the walk, from which `fetch` finds what the unit does next, stay as they are (R211). -/
def takeFault (cause : FaultCause) (header : Word) (s : State) : State :=
  sendResponse cause.code 0 { s with fault := cause.code, fcmd := header }

/-- The refusal of a command that arrives while the unit is halted (R205). -/
def refuse (s : State) : State := sendResponse 0x7F 0 s

/-- A command whose header faults when the unit runs and is refused when it is halted (R205, R206 steps 1 to 3). -/
def faultOrRefuse (cause : FaultCause) (header : Word) (s : State) : State :=
  if s.halted then refuse s else takeFault cause header s

/-- The checks that come before a command's own effect, in R206's order: halted, then reserved field. -/
def checked (i : Instr) (s : State) (effect : State) : State :=
  if s.halted then refuse s else if i.wellFormed then effect else takeFault .reservedField i.header s

/-! ### Reset (70_reset_and_hazards.md R230, R231) -/

/-- Reset asserted while the unit is in state `s`, the environment choosing `u`: a command in progress is abandoned without a
response, and the first word taken afterwards is a header. The port queues are not the unit's and stay (log 15). There is no
other way out of the halted state (60_exceptions.md R208). -/
def assertReset (u : Unspecified) (s : State) : State :=
  { State.resetWith u with
    cmdPort := s.cmdPort, responses := s.responses, paintAnswers := s.paintAnswers, paintRequests := s.paintRequests }

/-! ### The other agents' side of the ports (00_scope.md R4, 20_memory.md R57, R59) -/

/-- The host sends words on the command port. -/
def hostSend (ws : List Word) (s : State) : State := { s with cmdPort := s.cmdPort ++ ws }

/-- The host reads the oldest response, if there is one. -/
def hostReceive (s : State) : Option (Word × State) :=
  match s.responses with
  | [] => none
  | r :: rest => some (r, { s with responses := rest })

/-- The paint acceptor answers: 1 accept, 0 reject. -/
def acceptorAnswer (ok : Bool) (s : State) : State := { s with paintAnswers := s.paintAnswers ++ [ok] }

end Sys2Proof.Machine
end

