-- ==== Sys2Proof/Machine/Operands.lean ====
section
/-! DEFINITION. What the commands compute from their operands: the Figure value (40_figure.md R100, R101, R106, R110), the Dot
helpers (43_dot.md R162 to R165), the generator (42_prng.md R150) and a position taken from a Dot register. -/

namespace Sys2Proof

/-! ### Figures -/

/-- `W(f) = f.wh[7:4]` (R100). -/
def Figure.width (f : Figure) : Nat := (f.wh.extractLsb' 4 4).toNat

/-- `H(f) = f.wh[3:0]` (R100). -/
def Figure.height (f : Figure) : Nat := (f.wh.extractLsb' 0 4).toNat

/-- A valid Figure: at most 16 pixels and no data bit at or above bit `W*H` (R100). -/
def Figure.valid (f : Figure) : Bool :=
  decide (f.width * f.height ≤ 16) && f.data >>> (f.width * f.height) == 0

/-- `bit(f, c, r)`: the pixel at column `c` and row `r`, both axes mirrored; 0 outside the rectangle (R101). -/
def Figure.bit (f : Figure) (c r : Nat) : Bool :=
  decide (c < f.width) && decide (r < f.height)
    && f.data.getLsbD ((f.height - 1 - r) * f.width + (f.width - 1 - c))

/-- `pixels(f)`: the set pixels as (column, row), rows top down and left to right (R110). -/
def Figure.pixels (f : Figure) : List (Nat × Nat) :=
  (List.range f.height).flatMap fun r => ((List.range f.width).filter fun c => f.bit c r).map fun c => (c, r)

/-- The bit of the rotated Figure that the pixel `(c, r)` of a `w` by `h` Figure lands on (R106). -/
def rotatedIndex (w h : Nat) (p : Nat × Nat) : Nat := (w - 1 - p.1) * h + p.2

/-- The Figure turned by 90 degrees clockwise (R106). -/
def Figure.rotate (f : Figure) : Figure where
  wh := f.wh.extractLsb' 0 4 ++ f.wh.extractLsb' 4 4
  data := f.pixels.foldl (fun acc p => acc ||| 1#16 <<< rotatedIndex f.width f.height p) 0

/-! ### Dots -/

/-- The position moved by a direction, wrapping at the edges of the whole grid (R162). -/
def Dot.moveWrap (v t : Dot) : Dot where
  x := BitVec.ofInt 8 ((v.x.toInt + t.x.toInt) % 8)
  y := BitVec.ofInt 8 ((v.y.toInt + t.y.toInt) % 32)

/-- The reading reduced to an axis-aligned unit vector, vertical first (R163). -/
def Dot.toDirection (v : Dot) : Dot :=
  if v.y.toInt.sign ≠ 0 then { x := 0, y := BitVec.ofInt 8 v.y.toInt.sign }
  else { x := BitVec.ofInt 8 v.x.toInt.sign, y := 0 }

/-- Both integer sums of components are 0 (R164). -/
def Dot.opposite (v t : Dot) : Bool := decide (v.x.toInt + t.x.toInt = 0) && decide (v.y.toInt + t.y.toInt = 0)

/-- Both components are 0 (R165). -/
def Dot.isZero (v : Dot) : Bool := decide (v.x.toInt = 0) && decide (v.y.toInt = 0)

namespace Machine

/-- The column of the position that a Dot register holds, a signed integer (41_framebuffer.md, opening). -/
def posX (s : State) (p : RegNo) : Int := (readDot s p).x.toInt

/-- The row of the position that a Dot register holds. -/
def posY (s : State) (p : RegNo) : Int := (readDot s p).y.toInt

/-! ### The generator -/

/-- `lcg(S)`: one step of the generator, modulo `2 ^ 32` (42_prng.md R150). -/
def lcg (st : Word) : Word := Config.prngMul * st + Config.prngInc

/-- `PRNG_RANGE(S, max)` for `max` in 1..255 (R150); 0 for `max = 0`, where PNEXT does not use it. -/
def prngRange (st : Word) (max : Nat) : Nat :=
  match max with
  | 0 => 0
  | m + 1 => (Config.prngRange st m).val

end Machine

end Sys2Proof
end

