-- ==== Sys2Proof/Machine/Arena.lean ====
section
/-! DEFINITION. The entity-array commands (44_arena.md). -/

namespace Sys2Proof.Machine

/-- AINIT: set the capacity, cut to the 256 physical slots, and empty the arena; the slots keep what they hold (R171). -/
def execAinit (a : RegNo) (cap : BitVec 16) (s : State) : Host.Outcome State Fault Refusal :=
  .next (checked (.ainit a cap) s (respond 0 (writeCount a 0 (writeCap a (min cap.toNat 256) s))))

/-- APUSH: append an entity, or drop it when the arena is full (R172). -/
def execApush (a ds : RegNo) (s : State) : Host.Outcome State Fault Refusal :=
  .next (checked (.apush a ds) s
    (if readCount s a < readCap s a then
       respond 1 (writeCount a (readCount s a + 1) (writeEnt a (readCount s a) (readDot s ds) s))
     else respond 0 s))

/-- Exchange slots `i` and `last` of an arena; both are read before either is written (R173, 20_memory.md R60). -/
def swapEnts (a : RegNo) (i last : Nat) (s : State) : State :=
  writeEnt a last (readEnt s a i) (writeEnt a i (readEnt s a last) s)

/-- AREM: remove a live entity by swapping it with the last (R173). -/
def execArem (a : RegNo) (i : Byte) (s : State) : Host.Outcome State Fault Refusal :=
  .next (checked (.arem a i) s
    (if i.toNat < readCount s a then
       respond 1 (writeCount a (readCount s a - 1) (swapEnts a i.toNat (readCount s a - 1) s))
     else respond 0 s))

/-- AGET: read a live entity into a Dot register; a slot that is not live cannot be read (R174). -/
def execAget (a d : RegNo) (i : Byte) (s : State) : Host.Outcome State Fault Refusal :=
  .next (checked (.aget a d i) s
    (if i.toNat < readCount s a then respond 1 (writeDot d (readEnt s a i.toNat) s) else respond 0 s))

/-- ASET: overwrite a live entity (R175). -/
def execAset (a ds : RegNo) (i : Byte) (s : State) : Host.Outcome State Fault Refusal :=
  .next (checked (.aset a ds i) s
    (if i.toNat < readCount s a then respond 1 (writeEnt a i.toNat (readDot s ds) s) else respond 0 s))

/-- ACNT: the live count, 0 to 256 (R176). -/
def execAcnt (a : RegNo) (s : State) : Host.Outcome State Fault Refusal :=
  .next (checked (.acnt a) s (respond (natValue (readCount s a)) s))

end Sys2Proof.Machine
end

