-- ==== Sys2Proof/Machine/Dot.lean ====
section
/-! DEFINITION. The Dot commands (43_dot.md). -/

namespace Sys2Proof.Machine

/-- DLD: load a Dot constant; both immediates are two's complement bytes (R160). -/
def execDld (d : RegNo) (x y : Byte) (s : State) : Host.Outcome State Fault Refusal :=
  .next (checked (.dld d x y) s (respond 0 (writeDot d { x := x, y := y } s)))

/-- DRD: the Dot register, packed (R161). -/
def execDrd (ds : RegNo) (s : State) : Host.Outcome State Fault Refusal :=
  .next (checked (.drd ds) s (respond (dotValue (readDot s ds)) s))

/-- DMOVW: move a position by a direction, wrapping at the grid edges (R162). -/
def execDmovw (d ds dt : RegNo) (s : State) : Host.Outcome State Fault Refusal :=
  .next (checked (.dmovw d ds dt) s (respond 0 (writeDot d ((readDot s ds).moveWrap (readDot s dt)) s)))

/-- DTODIR: reduce a raw reading to an axis-aligned unit vector (R163). -/
def execDtodir (d ds : RegNo) (s : State) : Host.Outcome State Fault Refusal :=
  .next (checked (.dtodir d ds) s (respond 0 (writeDot d (readDot s ds).toDirection s)))

/-- DOPP: are two Dots opposite (R164). -/
def execDopp (ds dt : RegNo) (s : State) : Host.Outcome State Fault Refusal :=
  .next (checked (.dopp ds dt) s (respond (boolValue ((readDot s ds).opposite (readDot s dt))) s))

/-- DZERO: is a Dot zero (R165). -/
def execDzero (ds : RegNo) (s : State) : Host.Outcome State Fault Refusal :=
  .next (checked (.dzero ds) s (respond (boolValue (readDot s ds).isZero) s))

end Sys2Proof.Machine
end

