-- ==== Sys2Proof/Machine/Figure.lean ====
section
/-! DEFINITION. The Figure commands FLD, FWID, FHGT, FGETB, FROT, FRD and FPAINT (40_figure.md), with FPAINT's walk and its
resumption (10_state.md R35 b, 70_reset_and_hazards.md R246 a). -/

namespace Sys2Proof.Machine

/-- FLD: load a valid Figure literal; an invalid one raises cause 0x03 and writes nothing (R102). -/
def execFld (d : RegNo) (wh : Byte) (data : BitVec 16) (s : State) : Host.Outcome State Fault Refusal :=
  .next (checked (.fld d wh data) s
    (if Figure.valid { data := data, wh := wh } then respond 0 (writeFig d { data := data, wh := wh } s)
     else takeFault .invalidFigure (Instr.fld d wh data).header s))

/-- FWID: the width nibble as stored (R103). -/
def execFwid (fs : RegNo) (s : State) : Host.Outcome State Fault Refusal :=
  .next (checked (.fwid fs) s (respond (natValue (readFig s fs).width) s))

/-- FHGT: the height nibble as stored (R104). -/
def execFhgt (fs : RegNo) (s : State) : Host.Outcome State Fault Refusal :=
  .next (checked (.fhgt fs) s (respond (natValue (readFig s fs).height) s))

/-- FGETB: one pixel, both coordinates unsigned; outside the Figure it is 0 (R105). -/
def execFgetb (fs : RegNo) (col row : Byte) (s : State) : Host.Outcome State Fault Refusal :=
  .next (checked (.fgetb fs col row) s (respond (boolValue ((readFig s fs).bit col.toNat row.toNat)) s))

/-- FROT: rotate by 90 degrees clockwise; the source is read before the destination is written (R106). -/
def execFrot (d fs : RegNo) (s : State) : Host.Outcome State Fault Refusal :=
  .next (checked (.frot d fs) s (respond 0 (writeFig d (readFig s fs).rotate s)))

/-- FRD: the Figure register, packed (R107). -/
def execFrd (fs : RegNo) (s : State) : Host.Outcome State Fault Refusal :=
  .next (checked (.frd fs) s (respond (figureValue (readFig s fs)) s))

/-! ### FPAINT -/

/-- What came of a paint walk with the answers at hand: the requests it sent after the outstanding one, how many pixels were
accepted, the verdict if the walk has ended, and the answers left over. -/
structure PaintRun where
  sent : List (Nat × Nat)
  accepted : Nat
  verdict : Option Bool
  answers : List Bool
deriving DecidableEq, Repr

/-- Go through the answers for the pixels not yet accepted, the first of them being the outstanding request. One request is
sent after each acceptance, none after a rejection; with no answer at hand the walk waits (R108, 20_memory.md R57). -/
def paintSettle (pixels : List (Nat × Nat)) (answers : List Bool) : PaintRun :=
  match pixels, answers with
  | [], as => { sent := [], accepted := 0, verdict := some true, answers := as }
  | _ :: _, [] => { sent := [], accepted := 0, verdict := none, answers := [] }
  | _ :: _, false :: as => { sent := [], accepted := 0, verdict := some false, answers := as }
  | _ :: ps, true :: as =>
    let run := paintSettle ps as
    { run with sent := ps.take 1 ++ run.sent, accepted := run.accepted + 1 }

/-- The request for one pixel: the sums are integers without wrap, sent as signed 16-bit values (R108). -/
def paintRequest (s : State) (w : PaintWalk) (p : Nat × Nat) : PaintRequest where
  bank := w.bank
  px := BitVec.ofInt 16 (posX s w.dot + p.1)
  py := BitVec.ofInt 16 (posY s w.dot + p.2)
  colour := w.colour

/-- Send the requests of a walk and take note of how far it came: a finished walk responds 1 when every pixel was accepted
and 0 when the last request was rejected; a waiting one keeps its position and sends no response (R108). -/
def paintAdvance (w : PaintWalk) (first : List (Nat × Nat)) (run : PaintRun) (s : State) : State :=
  let sent := { s with
    paintRequests := s.paintRequests ++ (first ++ run.sent).map (paintRequest s w), paintAnswers := run.answers }
  match run.verdict with
  | some ok => respond (boolValue ok) { sent with walk := none }
  | none => { sent with walk := some { w with pos := w.pos + run.accepted } }

/-- Begin the walk: the first pixel's request goes out at once (R108). -/
def paintStart (w : PaintWalk) (s : State) : State :=
  let pixels := (readFig s w.fig).pixels
  paintAdvance w (pixels.take 1) (paintSettle pixels s.paintAnswers) s

/-- Go on with a walk in progress; without a new answer nothing changes (R246 a). -/
def paintResume (w : PaintWalk) (s : State) : State :=
  paintAdvance w [] (paintSettle ((readFig s w.fig).pixels.drop w.pos) s.paintAnswers) s

/-- FPAINT: offer each set pixel to the acceptor, stopping at the first rejection; no state is written (R108). -/
def execFpaint (b p fs : RegNo) (c : Byte) (s : State) : Host.Outcome State Fault Refusal :=
  .next (checked (.fpaint b p fs c) s (paintStart { bank := b, dot := p, fig := fs, colour := c, pos := 0 } s))

end Sys2Proof.Machine
end

