-- ==== Sys2Proof/Machine/FrameBuffer.lean ====
section
/-! DEFINITION. The FrameBuffer commands (41_framebuffer.md). -/

namespace Sys2Proof.Machine

/-- FBSET: write one cell; off the grid nothing is written (R120). -/
def execFbset (b p : RegNo) (c : Byte) (s : State) : Host.Outcome State Fault Refusal :=
  .next (checked (.fbset b p c) s (respond 0 (cellWrite b (posX s p) (posY s p) c s)))

/-- FBGET: read one cell; off the grid the value is 0 (R121). -/
def execFbget (b p : RegNo) (s : State) : Host.Outcome State Fault Refusal :=
  .next (checked (.fbget b p) s (respond (byteValue (cellRead s b (posX s p) (posY s p))) s))

/-- Some set pixel of the Figure at `(x, y)` lands off the grid or on an occupied cell (R123). -/
def collides (s : State) (b : RegNo) (x y : Int) (f : Figure) : Bool :=
  f.pixels.any fun p => !onGrid (x + p.1) (y + p.2) || cellRead s b (x + p.1) (y + p.2) != 0

/-- FBCOL: collision test of a Figure against a bank (R123). -/
def execFbcol (b p fs : RegNo) (s : State) : Host.Outcome State Fault Refusal :=
  .next (checked (.fbcol b p fs) s (respond (boolValue (collides s b (posX s p) (posY s p) (readFig s fs))) s))

/-- Composite the set pixels of a Figure at `(x, y)` into a bank, clipping at the edges (R124). -/
def drawFigure (b : RegNo) (x y : Int) (f : Figure) (c : Byte) (s : State) : State :=
  f.pixels.foldl (fun t p => cellWrite b (x + p.1) (y + p.2) c t) s

/-- FBDRAW: composite a Figure into a bank (R124). -/
def execFbdraw (b p fs : RegNo) (c : Byte) (s : State) : Host.Outcome State Fault Refusal :=
  .next (checked (.fbdraw b p fs c) s (respond 0 (drawFigure b (posX s p) (posY s p) (readFig s fs) c s)))

/-- Every cell of row `y` of the bank satisfies the test. -/
def rowAll (s : State) (b : RegNo) (y : Nat) (test : Byte → Bool) : Bool :=
  (List.range 8).all fun x => test (cellRead s b x y)

/-- FBROWF: all eight cells occupied; a row off the grid is not full (R126). -/
def execFbrowf (b : RegNo) (y : Byte) (s : State) : Host.Outcome State Fault Refusal :=
  .next (checked (.fbrowf b y) s (respond (boolValue (decide (y.toNat < 32) && rowAll s b y.toNat (· != 0))) s))

/-- FBROWE: all eight cells background; a row off the grid is empty (R127). -/
def execFbrowe (b : RegNo) (y : Byte) (s : State) : Host.Outcome State Fault Refusal :=
  .next (checked (.fbrowe b y) s (respond (boolValue (decide (32 ≤ y.toNat) || rowAll s b y.toNat (· == 0))) s))

/-- FBCLR: every cell of the bank becomes background (R129). -/
def execFbclr (b : RegNo) (s : State) : Host.Outcome State Fault Refusal :=
  .next (checked (.fbclr b) s (respond 0 (cellFillRows b 0 32 (fun _ _ => 0) s)))

/-- FBCLRR: rows `y0 ≤ y < y1`, both bounds cut at 32, become background (R130). -/
def execFbclrr (b : RegNo) (y0 y1 : Byte) (s : State) : Host.Outcome State Fault Refusal :=
  .next (checked (.fbclrr b y0 y1) s
    (respond 0 (cellFillRows b (min y0.toNat 32) (min y1.toNat 32) (fun _ _ => 0) s)))

/-- The colour shown for a cell value: the palette at the value modulo 10 (R133, 10_state.md R27). -/
def shownColour (v : Byte) : Rgb := Config.palette (Fin.ofNat 10 v.toNat)

/-- FBREND: the LED at `LEDIDX(x, y)` shows cell `(x, y)`, for all 256 cells (R133). -/
def execFbrend (b : RegNo) (s : State) : Host.Outcome State Fault Refusal :=
  .next (checked (.fbrend b) s
    (respond 0 (writeLeds (fun i => shownColour (cellRead s b (ledPos i).1 (ledPos i).2)) s)))

/-- The cell that a column word gives row `y`: bit 31 is row 0 (R135). -/
def titleCell (columns : List Word) (c : Byte) (x y : Nat) : Byte :=
  if (columns.getD x 0).getLsbD (31 - y) then c else 0

/-- FBROWS: fill the whole bank from eight column words, `P0` being the leftmost column (R135). -/
def execFbrows (b : RegNo) (c : Byte) (p0 p1 p2 p3 p4 p5 p6 p7 : Word) (s : State) : Host.Outcome State Fault Refusal :=
  .next (checked (.fbrows b c p0 p1 p2 p3 p4 p5 p6 p7) s
    (respond 0 (cellFillRows b 0 32 (titleCell [p0, p1, p2, p3, p4, p5, p6, p7] c) s)))

end Sys2Proof.Machine
end

