-- ==== Sys2Proof/Machine/Prng.lean ====
section
/-! DEFINITION. The generator's commands PSEED and PNEXT (42_prng.md). -/

namespace Sys2Proof.Machine

/-- PSEED: the seed is stored unchanged (R151). -/
def execPseed (seed : Word) (s : State) : Host.Outcome State Fault Refusal :=
  .next (checked (.pseed seed) s (respond 0 (writePrng seed s)))

/-- The state of the generator after PNEXT: stepped, and for `max = 0` only if the unit advances on zero (R152, D20). -/
def nextState (max : Byte) (st : Word) : Word :=
  if max = 0 then (if Config.prngAdvanceOnZero then lcg st else st) else lcg st

/-- PNEXT: step the generator and take a byte below `max` from the new state; 0 for `max = 0` (R152). -/
def execPnext (max : Byte) (s : State) : Host.Outcome State Fault Refusal :=
  .next (checked (.pnext max) s
    (respond (natValue (prngRange (nextState max s.prng) max.toNat)) (writePrng (nextState max s.prng) s)))

end Sys2Proof.Machine
end

