-- ==== Sys2Proof/Machine/System.lean ====
section
/-! DEFINITION. The system commands NOP and STAT (45_system.md). -/

namespace Sys2Proof.Machine

/-- NOP: nothing but the response (R190). -/
def execNop (s : State) : Host.Outcome State Fault Refusal := .next (checked .nop s (respond 0 s))

/-- The part of FAULT and FCMD that selector `sel` names (R191). -/
def statValue (sel : Byte) (s : State) : Value :=
  if sel = 0 then byteValue s.fault
  else if sel = 1 then s.fcmd.extractLsb' 0 24
  else byteValue (s.fcmd.extractLsb' 24 8)

/-- STAT: the one command that is executed when the unit is halted, if it is well formed (R191, 60_exceptions.md R205);
otherwise it faults with cause 0x02 on a running unit and is refused on a halted one. -/
def execStat (sel : Byte) (s : State) : Host.Outcome State Fault Refusal :=
  .next (if selOk sel then respond (statValue sel s) s else faultOrRefuse .reservedField (Instr.stat sel).header s)

end Sys2Proof.Machine
end

