-- ==== Sys2Proof/Machine/Dispatch.lean ====
section
/-! DEFINITION. The dispatch: one arm per command, each one direct call of the command's meaning. -/

namespace Sys2Proof.Machine

def exec (i : Instr) (s : State) : Host.Outcome State Fault Refusal :=
  match i with
  | .nop => Sys2Proof.Machine.execNop s
  | .stat sel => Sys2Proof.Machine.execStat sel s
  | .fwid fs => Sys2Proof.Machine.execFwid fs s
  | .fhgt fs => Sys2Proof.Machine.execFhgt fs s
  | .fgetb fs col row => Sys2Proof.Machine.execFgetb fs col row s
  | .frot d fs => Sys2Proof.Machine.execFrot d fs s
  | .frd fs => Sys2Proof.Machine.execFrd fs s
  | .fpaint b p fs c => Sys2Proof.Machine.execFpaint b p fs c s
  | .fbset b p c => Sys2Proof.Machine.execFbset b p c s
  | .fbget b p => Sys2Proof.Machine.execFbget b p s
  | .fbcol b p fs => Sys2Proof.Machine.execFbcol b p fs s
  | .fbdraw b p fs c => Sys2Proof.Machine.execFbdraw b p fs c s
  | .fbrowf b y => Sys2Proof.Machine.execFbrowf b y s
  | .fbrowe b y => Sys2Proof.Machine.execFbrowe b y s
  | .fbclr b => Sys2Proof.Machine.execFbclr b s
  | .fbclrr b y0 y1 => Sys2Proof.Machine.execFbclrr b y0 y1 s
  | .fbrend b => Sys2Proof.Machine.execFbrend b s
  | .fbrows b c p0 p1 p2 p3 p4 p5 p6 p7 => Sys2Proof.Machine.execFbrows b c p0 p1 p2 p3 p4 p5 p6 p7 s
  | .pseed seed => Sys2Proof.Machine.execPseed seed s
  | .pnext max => Sys2Proof.Machine.execPnext max s
  | .dld d x y => Sys2Proof.Machine.execDld d x y s
  | .drd ds => Sys2Proof.Machine.execDrd ds s
  | .dmovw d ds dt => Sys2Proof.Machine.execDmovw d ds dt s
  | .dtodir d ds => Sys2Proof.Machine.execDtodir d ds s
  | .dopp ds dt => Sys2Proof.Machine.execDopp ds dt s
  | .dzero ds => Sys2Proof.Machine.execDzero ds s
  | .ainit a cap => Sys2Proof.Machine.execAinit a cap s
  | .apush a ds => Sys2Proof.Machine.execApush a ds s
  | .arem a k => Sys2Proof.Machine.execArem a k s
  | .aget a d k => Sys2Proof.Machine.execAget a d k s
  | .aset a ds k => Sys2Proof.Machine.execAset a ds k s
  | .acnt a => Sys2Proof.Machine.execAcnt a s
  | .fld d wh data => Sys2Proof.Machine.execFld d wh data s

end Sys2Proof.Machine
end

