-- ==== Sys2Proof/Machine/Fetch.lean ====
section
/-! DEFINITION. What the unit does next: go on with a paint walk, wait for words, take a command that its encoding already
decides, or hand a decoded command over to its meaning (30_encoding.md R72, 60_exceptions.md R206, 10_state.md R35). -/

namespace Sys2Proof.Machine

/-- What a step comes to before any command's meaning is used. -/
inductive Fetched where
  /-- The step is this state: nothing to take, a walk resumed, or a command that faulted or was refused on its encoding. -/
  | done (t : State)
  /-- The command to execute, in the state after its words were taken. -/
  | run (i : Instr) (t : State)
deriving DecidableEq, Repr

/-- The state after the unit took a command's words and left `rest` on the port; the assembler is empty again (R72). -/
def afterTaking (rest : List Word) (s : State) : State := { s with asm := [], cmdPort := rest }

/-- Every word on the port goes into the assembler, which still waits for more (R72, R246 b). -/
def gather (s : State) : State := { s with asm := s.asm ++ s.cmdPort, cmdPort := [] }

/-- Take one complete command, whose words are `ws`: decoded, or faulting or refused on its encoding (R206 steps 1 to 3). -/
def dispatchWords (ws : List Word) (s : State) : Fetched :=
  match decode ws with
  | .ok i => .run i s
  | .error .illegalOpcode => .done (faultOrRefuse .illegalOpcode (ws.headD 0) s)
  | .error .reservedField => .done (faultOrRefuse .reservedField (ws.headD 0) s)
  | .error .wrongLength => .done s -- not reached: takeCommand gives whole commands

/-- The unit's next action. While a paint walk is in progress it accepts no command word (10_state.md R35 b); the words in the
assembler come before those on the port. -/
def fetch (s : State) : Fetched :=
  match s.walk with
  | some w => .done (paintResume w s)
  | none =>
    match takeCommand (s.asm ++ s.cmdPort) with
    | none => .done (gather s)
    | some (ws, rest) => dispatchWords ws (afterTaking rest s)

end Sys2Proof.Machine
end

