-- ==== Sys2Proof/Machine/Step.lean ====
section
/-! DEFINITION. One step of the unit: one complete command if its words are there (00_scope.md R3, 60_exceptions.md R218),
and where the host lays an instruction for the next step to fetch. -/

namespace Sys2Proof.Machine

/-- One step (log 1). -/
def step (s : State) : Host.Outcome State Fault Refusal :=
  match fetch s with
  | .done t => .next t
  | .run i t => exec i t

/-- `s` with the words of one command next on the command port, the assembler empty and no paint walk in progress, so that
the next step takes exactly that command (20_memory.md R59; log 2: it stands for the host's sending). -/
def State.withFetchWord (s : State) (nbits w : Nat) : State :=
  { s with asm := [], walk := none, cmdPort := tableWords nbits w ++ s.cmdPort }

end Sys2Proof.Machine
end

