-- ==== Sys2Proof/Machine/Assembler.lean ====
section
/-! DEFINITION. The assembler notation of 30_encoding.md R88 to R90: the figure literal (`from_str` and `str`), the written
operands of each command, the two pseudo-instructions, and the reading of one line and of a text. The unit itself has no text
operand (92_eei_decisions.md D33); nothing here is used by a step. -/

namespace Sys2Proof.Machine

/-! ### The figure literal (R90) -/

/-- The lines of a text: split at each line feed, none after the last line. -/
def splitLines (text : List Char) : List (List Char) :=
  match text with
  | [] => [[]]
  | c :: cs =>
    if c = '\n' then [] :: splitLines cs
    else match splitLines cs with
      | [] => [[c]]
      | l :: ls => (c :: l) :: ls

/-- The character at column `c` of row `r`. -/
def charAt (lines : List (List Char)) (c r : Nat) : Char := (lines.getD r []).getD c ' '

/-- The positions of a `w` by `h` rectangle, row by row, left to right. -/
def positions (w h : Nat) : List (Nat × Nat) := (List.range h).flatMap fun r => (List.range w).map fun c => (c, r)

/-- The lines form a rectangle of `#` and space of at most 16 characters and 15 either way. -/
def literalOk (lines : List (List Char)) : Bool :=
  let w := (lines.headD []).length
  decide (1 ≤ w) && decide (w ≤ 15) && decide (lines.length ≤ 15) && decide (w * lines.length ≤ 16)
    && lines.all fun l => decide (l.length = w) && l.all fun c => c == '#' || c == ' '

/-- `from_str(text)`: the Figure whose set pixels are the `#` of the text, or none where the text is rejected (R90). -/
def fromStr (text : List Char) : Option Figure :=
  let lines := splitLines text
  let w := (lines.headD []).length
  let h := lines.length
  if literalOk lines then
    some {
      wh := BitVec.ofNat 4 w ++ BitVec.ofNat 4 h
      data := (positions w h).foldl (fun acc p =>
        if charAt lines p.1 p.2 = '#' then acc ||| 1#16 <<< ((h - 1 - p.2) * w + (w - 1 - p.1)) else acc) 0 }
  else none

/-- `str(f)`: the rows of the Figure, `#` for a set pixel, joined by line feeds (R90). -/
def str (f : Figure) : List Char :=
  List.intercalate ['\n'] ((List.range f.height).map fun r =>
    (List.range f.width).map fun c => if f.bit c r then '#' else ' ')

/-! ### Written operands (R88) -/

/-- An operand as it is written. -/
inductive AsmOperand where
  /-- `F0` to `F15`. -/
  | fig (r : RegNo)
  /-- `D0` to `D15`. -/
  | dot (r : RegNo)
  /-- `B0` to `B3`. -/
  | bank (b : RegNo)
  /-- `A0` to `A15`. -/
  | arena (a : RegNo)
  /-- `#` and a number. -/
  | imm (v : Int)
  /-- A payload list in square brackets. -/
  | words (ws : List Word)
  /-- A text in double quotes, for FLDS. -/
  | text (t : List Char)
deriving DecidableEq, Repr

/-- The mnemonic and the operands of a command in their written order (R88); note FGETB, AGET and ASET. -/
def written (i : Instr) : String × List AsmOperand :=
  match i with
  | .nop => ("NOP", [])
  | .stat sel => ("STAT", [.imm sel.toNat])
  | .fld d wh data => ("FLD", [.fig d, .imm wh.toNat, .imm data.toNat])
  | .fwid s => ("FWID", [.fig s])
  | .fhgt s => ("FHGT", [.fig s])
  | .fgetb s col row => ("FGETB", [.fig s, .imm col.toNat, .imm row.toNat])
  | .frot d s => ("FROT", [.fig d, .fig s])
  | .frd s => ("FRD", [.fig s])
  | .fpaint b p s c => ("FPAINT", [.bank b, .dot p, .fig s, .imm c.toNat])
  | .fbset b p c => ("FBSET", [.bank b, .dot p, .imm c.toNat])
  | .fbget b p => ("FBGET", [.bank b, .dot p])
  | .fbcol b p s => ("FBCOL", [.bank b, .dot p, .fig s])
  | .fbdraw b p s c => ("FBDRAW", [.bank b, .dot p, .fig s, .imm c.toNat])
  | .fbrowf b y => ("FBROWF", [.bank b, .imm y.toNat])
  | .fbrowe b y => ("FBROWE", [.bank b, .imm y.toNat])
  | .fbclr b => ("FBCLR", [.bank b])
  | .fbclrr b y0 y1 => ("FBCLRR", [.bank b, .imm y0.toNat, .imm y1.toNat])
  | .fbrend b => ("FBREND", [.bank b])
  | .fbrows b c p0 p1 p2 p3 p4 p5 p6 p7 => ("FBROWS", [.bank b, .imm c.toNat, .words [p0, p1, p2, p3, p4, p5, p6, p7]])
  | .pseed seed => ("PSEED", [.imm seed.toNat])
  | .pnext max => ("PNEXT", [.imm max.toNat])
  | .dld d x y => ("DLD", [.dot d, .imm x.toInt, .imm y.toInt])
  | .drd s => ("DRD", [.dot s])
  | .dmovw d s t => ("DMOVW", [.dot d, .dot s, .dot t])
  | .dtodir d s => ("DTODIR", [.dot d, .dot s])
  | .dopp s t => ("DOPP", [.dot s, .dot t])
  | .dzero s => ("DZERO", [.dot s])
  | .ainit a cap => ("AINIT", [.arena a, .imm cap.toNat])
  | .apush a s => ("APUSH", [.arena a, .dot s])
  | .arem a k => ("AREM", [.arena a, .imm k.toNat])
  | .aget a d k => ("AGET", [.dot d, .arena a, .imm k.toNat])
  | .aset a s k => ("ASET", [.arena a, .imm k.toNat, .dot s])
  | .acnt a => ("ACNT", [.arena a])

/-- An unsigned immediate of `n` bits, in range (R77). -/
def unsignedImm (n : Nat) (v : Int) : Option (BitVec n) :=
  if 0 ≤ v ∧ v < 2 ^ n then some (BitVec.ofInt n v) else none

/-- A signed byte immediate, in range: `x` and `y` of DLD (R77). -/
def signedImm (v : Int) : Option Byte := if -128 ≤ v ∧ v ≤ 127 then some (BitVec.ofInt 8 v) else none

/-- The command that a mnemonic and its operands name, before the check of banks and selectors; the last two rows are the
pseudo-instructions of R89. -/
def readCommand (mnemonic : String) (ops : List AsmOperand) : Option Instr :=
  match mnemonic, ops with
  | "NOP", [] => some .nop
  | "STAT", [.imm sel] => (unsignedImm 8 sel).map .stat
  | "FLD", [.fig d, .imm wh, .imm data] => (unsignedImm 8 wh).bind fun w => (unsignedImm 16 data).map fun v => .fld d w v
  | "FWID", [.fig s] => some (.fwid s)
  | "FHGT", [.fig s] => some (.fhgt s)
  | "FGETB", [.fig s, .imm col, .imm row] =>
    (unsignedImm 8 col).bind fun c => (unsignedImm 8 row).map fun r => .fgetb s c r
  | "FROT", [.fig d, .fig s] => some (.frot d s)
  | "FRD", [.fig s] => some (.frd s)
  | "FPAINT", [.bank b, .dot p, .fig s, .imm c] => (unsignedImm 8 c).map fun v => .fpaint b p s v
  | "FBSET", [.bank b, .dot p, .imm c] => (unsignedImm 8 c).map fun v => .fbset b p v
  | "FBGET", [.bank b, .dot p] => some (.fbget b p)
  | "FBCOL", [.bank b, .dot p, .fig s] => some (.fbcol b p s)
  | "FBDRAW", [.bank b, .dot p, .fig s, .imm c] => (unsignedImm 8 c).map fun v => .fbdraw b p s v
  | "FBROWF", [.bank b, .imm y] => (unsignedImm 8 y).map fun v => .fbrowf b v
  | "FBROWE", [.bank b, .imm y] => (unsignedImm 8 y).map fun v => .fbrowe b v
  | "FBCLR", [.bank b] => some (.fbclr b)
  | "FBCLRR", [.bank b, .imm y0, .imm y1] =>
    (unsignedImm 8 y0).bind fun v0 => (unsignedImm 8 y1).map fun v1 => .fbclrr b v0 v1
  | "FBREND", [.bank b] => some (.fbrend b)
  | "FBROWS", [.bank b, .imm c, .words [p0, p1, p2, p3, p4, p5, p6, p7]] =>
    (unsignedImm 8 c).map fun v => .fbrows b v p0 p1 p2 p3 p4 p5 p6 p7
  | "PSEED", [.imm seed] => (unsignedImm 32 seed).map .pseed
  | "PNEXT", [.imm max] => (unsignedImm 8 max).map .pnext
  | "DLD", [.dot d, .imm x, .imm y] => (signedImm x).bind fun vx => (signedImm y).map fun vy => .dld d vx vy
  | "DRD", [.dot s] => some (.drd s)
  | "DMOVW", [.dot d, .dot s, .dot t] => some (.dmovw d s t)
  | "DTODIR", [.dot d, .dot s] => some (.dtodir d s)
  | "DOPP", [.dot s, .dot t] => some (.dopp s t)
  | "DZERO", [.dot s] => some (.dzero s)
  | "AINIT", [.arena a, .imm cap] => (unsignedImm 16 cap).map fun v => .ainit a v
  | "APUSH", [.arena a, .dot s] => some (.apush a s)
  | "AREM", [.arena a, .imm k] => (unsignedImm 8 k).map fun v => .arem a v
  | "AGET", [.dot d, .arena a, .imm k] => (unsignedImm 8 k).map fun v => .aget a d v
  | "ASET", [.arena a, .imm k, .dot s] => (unsignedImm 8 k).map fun v => .aset a s v
  | "ACNT", [.arena a] => some (.acnt a)
  | "FLDS", [.fig d, .text t] => (fromStr t).map fun f => .fld d f.wh f.data
  | "FBCLRROW", [.bank b, .imm y] =>
    if 0 ≤ y ∧ y ≤ 31 then some (.fbclrr b (BitVec.ofInt 8 y) (BitVec.ofInt 8 (y + 1))) else none
  | _, _ => none

/-- Assemble one command from in-range operands (R88, 60_exceptions.md R207). That a bank above 3 or a STAT selector above 2 is an
assembly error is a DESIGN CHOICE (log 19); the host can send such words without the assembler. -/
def assemble (mnemonic : String) (ops : List AsmOperand) : Option Instr :=
  (readCommand mnemonic ops).filter Instr.wellFormed

/-! ### Reading text (R88) -/

/-- The parts of a line. -/
inductive Token where
  | word (cs : List Char)
  | text (cs : List Char)
  | comma
  | opening
  | closing
deriving DecidableEq, Repr

/-- The word read so far, if any. -/
def flushWord (acc : List Char) : List Token := if acc = [] then [] else [.word acc.reverse]

/-- The tokens of a line: outside a quoted text (`none`) or inside one (`some` of what was read); a comment runs from `;` to
the end. A line feed in a quoted text is written with a backslash and an n (log 19). -/
def tokens (quoted : Option (List Char)) (acc : List Char) (line : List Char) : Option (List Token) :=
  match quoted, line with
  | none, [] => some (flushWord acc)
  | some _, [] => none
  | none, c :: cs =>
    if c = ';' then some (flushWord acc)
    else if c = ' ' || c = '\t' then (tokens none [] cs).map (flushWord acc ++ ·)
    else if c = ',' then (tokens none [] cs).map (flushWord acc ++ .comma :: ·)
    else if c = '[' then (tokens none [] cs).map (flushWord acc ++ .opening :: ·)
    else if c = ']' then (tokens none [] cs).map (flushWord acc ++ .closing :: ·)
    else if c = '"' then (if acc = [] then tokens (some []) [] cs else none)
    else tokens none (c :: acc) cs
  | some t, '\\' :: 'n' :: cs => tokens (some ('\n' :: t)) acc cs
  | some t, c :: cs =>
    if c = '"' then (tokens none [] cs).map (.text t.reverse :: ·) else tokens (some (c :: t)) acc cs

/-- The value of a digit in bases up to 16. -/
def digitValue (c : Char) : Option Nat :=
  if '0' ≤ c ∧ c ≤ '9' then some (c.toNat - 48)
  else if 'a' ≤ c ∧ c ≤ 'f' then some (c.toNat - 87)
  else if 'A' ≤ c ∧ c ≤ 'F' then some (c.toNat - 55)
  else none

/-- The number that digits write in a base, after `acc`. -/
def digits (base acc : Nat) (cs : List Char) : Option Nat :=
  match cs with
  | [] => some acc
  | c :: rest => (digitValue c).bind fun v => if v < base then digits base (acc * base + v) rest else none

/-- An unsigned number: decimal, or `0x` and hexadecimal digits (R88); digits of either case and leading zeros are a DESIGN
CHOICE (log 19). -/
def readNumber (cs : List Char) : Option Nat :=
  match cs with
  | [] => none
  | '0' :: 'x' :: rest => if rest = [] then none else digits 16 0 rest
  | _ => digits 10 0 cs

/-- A number below `bound` as a register, bank or arena number. R88 writes the names without leading zeros; that a name with
leading zeros is read as its number is a DESIGN CHOICE (log 19). -/
def readNum (bound : Nat) (cs : List Char) : Option RegNo :=
  if cs = [] then none else (digits 10 0 cs).bind fun n => if n < bound then some (BitVec.ofNat 4 n) else none

/-- One operand that is a single word: a register, a bank, an arena or an immediate (R88). That a minus sign is read before any
decimal immediate, its value then held to the field's range, is a DESIGN CHOICE (log 19). -/
def readOperand (cs : List Char) : Option AsmOperand :=
  match cs with
  | 'F' :: rest => (readNum 16 rest).map .fig
  | 'D' :: rest => (readNum 16 rest).map .dot
  | 'B' :: rest => (readNum 4 rest).map .bank
  | 'A' :: rest => (readNum 16 rest).map .arena
  | '#' :: '-' :: rest => if rest = [] then none else (digits 10 0 rest).map fun n => .imm (-(n : Int))
  | '#' :: rest => (readNumber rest).map fun n => .imm n
  | _ => none

/-- The operands of a line, separated by commas; `list` holds the payload words read so far inside square brackets, and
`item` says that an operand must come next. -/
def readOperands (list : Option (List Word)) (item : Bool) (ts : List Token) : Option (List AsmOperand) :=
  match list, item, ts with
  | none, false, [] => some []
  | none, false, .comma :: rest => readOperands none true rest
  | none, true, .word w :: rest => (readOperand w).bind fun o => (readOperands none false rest).map (o :: ·)
  | none, true, .text t :: rest => (readOperands none false rest).map (.text t :: ·)
  | none, true, .opening :: rest => readOperands (some []) true rest
  | some ws, true, .word w :: rest =>
    (readNumber w).bind fun n => if n < 2 ^ 32 then readOperands (some (ws ++ [BitVec.ofNat 32 n])) false rest else none
  | some ws, false, .comma :: rest => readOperands (some ws) true rest
  | some ws, false, .closing :: rest => (readOperands none false rest).map (.words ws :: ·)
  | _, _, _ => none

/-- One line: an assembly error (`none`), a line without a command (`some []`), or its command. -/
def assembleLine (line : List Char) : Option (List Instr) :=
  match tokens none [] line with
  | none => none
  | some [] => some []
  | some (.word m :: []) => (assemble (String.ofList m) []).map ([·])
  | some (.word m :: ts) => (readOperands none true ts).bind fun ops => (assemble (String.ofList m) ops).map ([·])
  | some _ => none

/-- A text, one command per line: the words the host sends for it, or an assembly error. -/
def assembleText (text : List Char) : Option (List Word) :=
  ((splitLines text).mapM assembleLine).map fun is => is.flatten.flatMap encode

end Sys2Proof.Machine
end

