-- ==== Sys2Proof/Safety.lean ====
section
/-! DEFINITION. What claims about the unit are stated in: the parts of the state and which of them a command leaves alone, the
invariant of the unit, and the commands that cannot fault (60_exceptions.md R207). -/

namespace Sys2Proof.Machine

/-- The parts of the state, as far as a claim tells them apart. -/
inductive Part where
  | dots | figs | cells | leds | prng | caps | counts | ents | faultRegs | assembler | walk | cmdPort | responses | paintPort
deriving DecidableEq, Repr

/-- The part reads the same in both states, through the model's own reads. -/
def SamePart (p : Part) (s t : State) : Prop :=
  match p with
  | .dots => ∀ r, readDot t r = readDot s r
  | .figs => ∀ r, readFig t r = readFig s r
  | .cells => ∀ b x y, cellRead t b x y = cellRead s b x y
  | .leds => t.leds = s.leds
  | .prng => t.prng = s.prng
  | .caps => ∀ a, readCap t a = readCap s a
  | .counts => ∀ a, readCount t a = readCount s a
  | .ents => ∀ a i, readEnt t a i = readEnt s a i
  | .faultRegs => t.fault = s.fault ∧ t.fcmd = s.fcmd
  | .assembler => t.asm = s.asm
  | .walk => t.walk = s.walk
  | .cmdPort => t.cmdPort = s.cmdPort
  | .responses => t.responses = s.responses
  | .paintPort => t.paintAnswers = s.paintAnswers ∧ t.paintRequests = s.paintRequests

/-- The frame of a command: every part but those listed reads the same. -/
def KeepsAllBut (changed : List Part) (s t : State) : Prop := ∀ p, p ∉ changed → SamePart p s t

/-- Exactly one response was sent, of this status and value (20_memory.md R59). -/
def Responded (status : Byte) (value : Value) (s t : State) : Prop :=
  t.responses = s.responses ++ [responseWord status value]

/-- A command that changed nothing but sent one response with status 0x00 and this value. -/
def OnlyResponds (value : Value) (s t : State) : Prop :=
  Responded 0x00 value s t ∧ KeepsAllBut [.responses] s t

/-- What every step keeps. The parts: 10_state.md R24 (valid Figures), 44_arena.md R170 (counts, capacities), 10_state.md R32
(the legal causes, FCMD zero while running), the canonical form of the two sparse memories, and the hidden state of R35: the
assembler holds an incomplete command, a paint walk belongs to a running unit and waits at one of its pixels. -/
structure Inv (s : State) : Prop where
  figsValid : ∀ r, (readFig s r).valid = true
  countLeCap : ∀ a, readCount s a ≤ readCap s a
  capLe : ∀ a, readCap s a ≤ 256
  faultLegal : s.fault.toNat ≤ 3
  fcmdRunning : s.fault = 0 → s.fcmd = 0
  cellsWf : Memory.wf 0 1024 s.cells = true
  entsWf : Memory.wf ⟨0, 0⟩ 4096 s.ents = true
  asmPartial : takeCommand s.asm = none
  walkWaits : ∀ w, s.walk = some w →
    s.fault = 0 ∧ s.asm = [] ∧ bankOk w.bank = true ∧ w.pos < (readFig s w.fig).pixels.length

/-- The reset contents have the canonical form; what they are is the environment's choice (70_reset_and_hazards.md R232). -/
def Unspecified.wf (u : Unspecified) : Bool := Memory.wf 0 1024 u.cells && Memory.wf ⟨0, 0⟩ 4096 u.ents

/-- A list of words is one whole command (30_encoding.md R72). -/
def WholeCommand (ws : List Word) : Prop := ∃ w pay, ws = w :: pay ∧ ws.length = commandLength w

/-- A list of words is empty or the beginning of a command whose payload is not complete (30_encoding.md R72). -/
def PartialCommand (ws : List Word) : Prop := ws = [] ∨ ∃ w pay, ws = w :: pay ∧ ws.length < commandLength w

/-- The commands taken from a word stream one after the other, and the words left; `fuel` bounds their number, and the length
of the stream is always enough, since a command has at least one word (30_encoding.md R72). -/
def groupCommands (fuel : Nat) (stream : List Word) : List (List Word) × List Word :=
  match fuel with
  | 0 => ([], stream)
  | n + 1 =>
    match takeCommand stream with
    | none => ([], stream)
    | some (ws, rest) => (ws :: (groupCommands n rest).1, (groupCommands n rest).2)

/-- The lines of a text that `from_str` accepts, all of `w` characters (30_encoding.md R90). -/
def LiteralLines (lines : List (List Char)) (w : Nat) : Prop :=
  1 ≤ w ∧ w ≤ 15 ∧ 1 ≤ lines.length ∧ lines.length ≤ 15 ∧ w * lines.length ≤ 16 ∧
    ∀ l ∈ lines, l.length = w ∧ ∀ c ∈ l, c = '#' ∨ c = ' '

/-! ### The encoding rules, written a second way for claims -/

/-- The opcode bytes that R80 lists as illegal. -/
def illegalByte (n : Nat) : Bool :=
  decide (0x02 ≤ n ∧ n ≤ 0x0F) || decide (0x16 ≤ n ∧ n ≤ 0x1F) || decide (0x2A ≤ n ∧ n ≤ 0x2F)
    || decide (0x32 ≤ n ∧ n ≤ 0x3F) || decide (0x46 ≤ n ∧ n ≤ 0x4F) || decide (0x56 ≤ n ∧ n ≤ 0xEF)

/-- The reserved bits of the legal opcode byte `n`, as the column `reserved_mask` of spec/opcode_table.json gives them (R73). -/
def reservedMask (n : Nat) : Word :=
  if n ∈ [0x00, 0x30] then 0x00FFFFFF
  else if n ∈ [0x01, 0x31] then 0x00FFFF00
  else if n ∈ [0x10, 0x11, 0x14, 0x26, 0x28, 0x41, 0x45, 0x55] then 0x000FFFFF
  else if n ∈ [0x13, 0x21, 0x43, 0x44, 0x51] then 0x0000FFFF
  else if n ∈ [0x22, 0x42] then 0x00000FFF
  else if n ∈ [0x24, 0x25, 0x29, 0x52] then 0x000FFF00
  else if n ∈ [0x20, 0x53, 0x54] then 0x0000FF00
  else if n ∈ [0x15, 0x23] then 0x00000F00
  else if n ∈ [0x12, 0x27, 0x40, 0x50] then 0x000F0000
  else 0

/-- The opcode bytes of the commands whose `A` is a bank number (R74). -/
def bankByte (n : Nat) : Bool := decide (n = 0x15) || decide (0x20 ≤ n ∧ n ≤ 0x29)

/-- A header with a legal opcode has a wrong reserved field (R83 a, b, c). -/
def reservedWrong (w : Word) : Prop :=
  w &&& reservedMask (opOf w).toNat ≠ 0
    ∨ (bankByte (opOf w).toNat = true ∧ 3 < (fieldA w).toNat)
    ∨ (opOf w = 0x01 ∧ 2 < (fieldE w).toNat)

/-! ### Runs -/

/-- Commands executed one after the other. -/
def execAll (is : List Instr) (s : State) : Host.Outcome State Fault Refusal :=
  match is with
  | [] => .next s
  | i :: rest =>
    match exec i s with
    | .next t => execAll rest t
    | .fault r => .fault r
    | .refused r => .refused r

/-- The live entries of an arena, in index order (44_arena.md R170). -/
def liveEntries (s : State) (a : RegNo) : List Dot := (List.range (readCount s a)).map (readEnt s a)

end Sys2Proof.Machine

namespace Sys2Proof

/-- A command that never faults a running unit (60_exceptions.md R207): well formed, and a valid literal if it is FLD. -/
def Instr.faultFree (i : Instr) : Bool :=
  i.wellFormed && match i with
    | .fld _ wh data => Figure.valid { data := data, wh := wh }
    | _ => true

end Sys2Proof
end

