-- ==== Sys2Proof/Certificates/Slice0/Obligations.lean ====
section
/-! DEFINITION. The statements for the provers, in the order of OBLIGATIONS.json. A command's frame is `KeepsAllBut`: every
part of the state that is not listed reads the same, cells and slots through the model's own reads. -/

open Sys2Proof Sys2Proof.Machine

/-! ### Encoding and decoding -/

/-- The decoder reads back every well-formed command, with every operand at every value (30_encoding.md R71 to R77). -/
def Obligations.DecodeReadsEncodedCommand : Prop :=
  ∀ i : Instr, i.wellFormed = true → decode (encode i) = .ok i

/-- Each list of words that decodes is the encoding of what it decodes to: no bit is dropped (30_encoding.md R71 to R77). -/
def Obligations.DecodedWordsAreTheEncoding : Prop :=
  ∀ (ws : List Word) (i : Instr), decode ws = .ok i → encode i = ws ∧ i.wellFormed = true

/-- Example words of the family files decode to the commands they stand for. -/
def Obligations.ExampleWordsDecode : Prop :=
  decode [0x00000000] = .ok .nop ∧
  decode [0x01000002] = .ok (.stat 2) ∧
  decode [0xF123002B] = .ok (.fld 1 0x23 0x002B) ∧
  decode [0x12100201] = .ok (.fgetb 1 1 2) ∧
  decode [0x15001002] = .ok (.fpaint 0 0 1 2) ∧
  decode [0x23051005] = .ok (.fbdraw 0 5 1 5) ∧
  decode [0x27000A0C] = .ok (.fbclrr 0 10 12) ∧
  decode [0x30000000, 0x00003039] = .ok (.pseed 0x3039) ∧
  decode [0x402000FF] = .ok (.dld 2 0xFF 0) ∧
  decode [0x42988000] = .ok (.dmovw 9 8 8) ∧
  decode [0x5010012C] = .ok (.ainit 1 300) ∧
  decode [0x530F0001] = .ok (.aget 0 15 1) ∧
  decode [0x54010001] = .ok (.aset 0 1 1)

/-- R80: the listed opcode bytes, and no other, are illegal; such a header is a command of length 1 that faults with cause
0x01, whatever its other bits hold. -/
def Obligations.IllegalOpcodesFault : Prop :=
  (∀ (w : Word) (pay : List Word), (w :: pay).length = commandLength w →
      (decode (w :: pay) = .error .illegalOpcode ↔ illegalByte (opOf w).toNat = true)) ∧
  (∀ (s : State) (w : Word) (rest : List Word), s.walk = none → s.fault = 0 → illegalByte (opOf w).toNat = true →
      s.asm ++ s.cmdPort = w :: rest →
      commandLength w = 1 ∧
      ∃ t, step s = .next t ∧ t.fault = 0x01 ∧ t.fcmd = w ∧ t.asm = [] ∧ t.cmdPort = rest ∧ Responded 0x01 0 s t ∧
        KeepsAllBut [.faultRegs, .responses, .assembler, .cmdPort] s t)

/-- R83: a legal opcode whose reserved bits are not all zero, whose bank is above 3 or whose STAT selector is above 2 faults
with cause 0x02; the header alone decides, and the fault is the only effect. -/
def Obligations.ReservedFieldsFault : Prop :=
  ∀ (w : Word) (pay : List Word), (w :: pay).length = commandLength w → illegalByte (opOf w).toNat = false →
    (decode (w :: pay) = .error .reservedField ↔ reservedWrong w) ∧
    (reservedWrong w → ∀ (s : State) (rest : List Word), s.walk = none → s.fault = 0 →
      s.asm ++ s.cmdPort = w :: pay ++ rest →
      ∃ t, step s = .next t ∧ t.fault = 0x02 ∧ t.fcmd = w ∧ t.asm = [] ∧ t.cmdPort = rest ∧ Responded 0x02 0 s t ∧
        KeepsAllBut [.faultRegs, .responses, .assembler, .cmdPort] s t)

/-- R72: the length of a command is 9 for the opcode byte 0x29, 2 for 0x30 and 1 for every other, whatever the other bits hold;
taking a command takes exactly the words of the first whole one, and nothing exactly while it is incomplete; a word stream
splits in exactly one way into whole commands and at most one incomplete one, the way that taking them one after the other
gives; and a step takes exactly the first whole command, executed, faulting or refused alike. -/
def Obligations.StreamSplitsOneWay : Prop :=
  (∀ w : Word, commandLength w = if w.toNat / 2 ^ 24 = 0x29 then 9 else if w.toNat / 2 ^ 24 = 0x30 then 2 else 1) ∧
  (∀ stream ws rest : List Word, takeCommand stream = some (ws, rest) ↔ stream = ws ++ rest ∧ WholeCommand ws) ∧
  (∀ stream : List Word, takeCommand stream = none ↔ PartialCommand stream) ∧
  (∀ (stream : List Word) (split : List (List Word) × List Word),
    (stream = split.1.flatten ++ split.2 ∧ (∀ c ∈ split.1, WholeCommand c) ∧ PartialCommand split.2) ↔
      split = groupCommands stream.length stream) ∧
  (∀ (s : State) (ws rest : List Word), s.walk = none → s.asm ++ s.cmdPort = ws ++ rest → WholeCommand ws →
    ∃ t, step s = .next t ∧ t.asm = [] ∧ t.cmdPort = rest)

/-! ### The step -/

/-- When the words in the assembler and on the port begin with a command that decodes to `i`, the step is `exec i` in the state
whose assembler is empty and whose port holds the words after the command. -/
def Obligations.StepRunsDecodedCommand : Prop :=
  ∀ (s : State) (ws rest : List Word) (i : Instr), s.walk = none → s.asm ++ s.cmdPort = ws ++ rest →
    decode ws = .ok i → step s = exec i { s with asm := [], cmdPort := rest }

/-- While no whole command is there, the unit executes nothing and responds nothing; its words wait in the assembler, and a
later step goes on as if they had never been apart from the words that follow (R72, R246 b). That such a state has a step at all,
which answers the same state when there are no new words, is the model's choice (log 1); 93_implementation_defined.md V7 has the
unit stuck there, with no step. -/
def Obligations.IncompleteCommandWaits : Prop :=
  ∀ s : State, s.walk = none → PartialCommand (s.asm ++ s.cmdPort) →
    ∃ t, step s = .next t ∧ t.asm = s.asm ++ s.cmdPort ∧ t.cmdPort = [] ∧ KeepsAllBut [.assembler, .cmdPort] s t ∧
      ∀ more : List Word, step (hostSend more t) = step (hostSend more s)

/-- Every step of every state answers a next state: no fault and no refusal of the model. R218 and R249 say so of a complete command
whose answers of the acceptor are at hand. That a step is taken also with no whole command at hand or with a walk that waits,
where the unit is stuck, is the model's choice (log 1, log 13). -/
def Obligations.StepIsTotal : Prop := ∀ s : State, ∃ t, step s = .next t

/-- Every step keeps the invariant: valid Figures, counts within capacities, legal fault registers, canonical memories, and
hidden state that belongs to a command in progress (R24, R170, R32, R35). -/
def Obligations.StepKeepsInv : Prop := ∀ s t : State, Inv s → step s = .next t → Inv t

/-- The invariant holds after reset, whatever the unspecified contents are and whatever the unit was doing. The canonical form
of the contents is the model's own representation (log 11, 12). -/
def Obligations.ResetMeetsInv : Prop :=
  Inv State.reset ∧ (∀ u : Unspecified, u.wf = true → Inv (State.resetWith u)) ∧
    ∀ (u : Unspecified) (s : State), u.wf = true → Inv (assertReset u s)

/-- R230: the values that reset gives, and the unspecified ones as the environment chose them. That the queues of the ports
stay is the model's choice (log 15). -/
def Obligations.ResetGivesTheStatedValues : Prop :=
  ∀ (u : Unspecified) (s : State),
    (∀ r, readDot (assertReset u s) r = ⟨0, 0⟩) ∧ (∀ r, readFig (assertReset u s) r = ⟨0, 0⟩) ∧
    (∀ a, readCap (assertReset u s) a = 0 ∧ readCount (assertReset u s) a = 0) ∧
    (assertReset u s).fault = 0 ∧ (assertReset u s).fcmd = 0 ∧ (assertReset u s).asm = [] ∧
    (assertReset u s).walk = none ∧ (assertReset u s).cells = u.cells ∧ (assertReset u s).leds = u.leds ∧
    (assertReset u s).prng = u.prng ∧ (assertReset u s).ents = u.ents ∧
    SamePart .cmdPort s (assertReset u s) ∧ SamePart .responses s (assertReset u s)

/-! ### Faults and the halted state -/

/-- While the unit is halted, every whole command that is not a well-formed STAT is consumed, answered with status 0x7F and
changes nothing (R205). -/
def Obligations.HaltedUnitRefuses : Prop :=
  ∀ (s : State) (ws rest : List Word), s.walk = none → s.fault ≠ 0 → s.asm ++ s.cmdPort = ws ++ rest → WholeCommand ws →
    (∀ sel, decode ws ≠ .ok (.stat sel)) →
    ∃ t, step s = .next t ∧ t.asm = [] ∧ t.cmdPort = rest ∧ Responded 0x7F 0 s t ∧
      KeepsAllBut [.responses, .assembler, .cmdPort] s t

/-- STAT, running or halted: the selected part of FAULT and FCMD, and no state changes (R191, R205). -/
def Obligations.StatReadsFaultRegisters : Prop :=
  ∀ (s : State) (sel : Byte), sel.toNat ≤ 2 →
    ∃ t v, exec (.stat sel) s = .next t ∧ OnlyResponds v s t ∧
      v.toNat = if sel = 0 then s.fault.toNat else if sel = 1 then s.fcmd.toNat % 2 ^ 24 else s.fcmd.toNat / 2 ^ 24

/-- No sequence of commands leaves the halted state, and none changes anything but the ports: however many steps are taken
(R205, R208). -/
def Obligations.HaltedUntilReset : Prop :=
  ∀ (n : Nat) (s t : State), s.fault ≠ 0 → s.walk = none → core.run n s = .next t →
    KeepsAllBut [.responses, .assembler, .cmdPort] s t ∧
    ∃ rs, t.responses = s.responses ++ rs ∧ ∀ r ∈ rs, opOf r = 0x00 ∨ r = responseWord 0x7F 0

/-- A step that changes FAULT finds it 0, takes one whole command from the words at hand, writes one of the three causes and the
command's header word, answers with that status, and changes nothing else (R203, R218 b). -/
def Obligations.FaultWritesOnlyFaultRegisters : Prop :=
  ∀ s t : State, step s = .next t → t.fault ≠ s.fault →
    s.fault = 0 ∧ ∃ (c : FaultCause) (w : Word) (pay : List Word),
      s.asm ++ s.cmdPort = w :: pay ++ t.cmdPort ∧ (w :: pay).length = commandLength w ∧ t.asm = [] ∧
      t.fault = c.code ∧ t.fcmd = w ∧ Responded c.code 0 s t ∧
      KeepsAllBut [.faultRegs, .responses, .assembler, .cmdPort] s t

/-- A well-formed command, with a valid literal if it is FLD, never faults a running unit: whatever the state, FAULT and FCMD
stay and what it answers has status 0x00 (R207). -/
def Obligations.FaultFreeCommandsNeverFault : Prop :=
  ∀ (i : Instr) (s : State), i.faultFree = true → s.fault = 0 →
    ∃ t, exec i s = .next t ∧ t.fault = 0 ∧ t.fcmd = s.fcmd ∧
      ∃ rs, t.responses = s.responses ++ rs ∧ ∀ r ∈ rs, opOf r = 0x00

/-- A host that sends only fault-free commands gets one response with status 0x00 for each, in as many steps, if the acceptor
answers: 16 answers a command are always enough (R207, R218 c; the hypothesis on the acceptor is R246 a's). That the unit never
waits for the host to read a response is the model's inference (log 18), and that answers a walk leaves over stay for the next
one is its choice (log 14). -/
def Obligations.FaultFreeStreamsAreAnswered : Prop :=
  ∀ (is : List Instr) (s : State), Inv s → s.fault = 0 → s.walk = none → s.asm = [] →
    s.cmdPort = is.flatMap encode → (∀ i ∈ is, i.faultFree = true) → 16 * is.length ≤ s.paintAnswers.length →
    ∃ t rs, core.run is.length s = .next t ∧ t.fault = 0 ∧ t.walk = none ∧ t.asm = [] ∧ t.cmdPort = [] ∧
      t.responses = s.responses ++ rs ∧ rs.length = is.length ∧ ∀ r ∈ rs, opOf r = 0x00

/-- A command sends exactly one response, unless it is an FPAINT that now waits for the acceptor and has sent none (R59,
R35 b). -/
def Obligations.OneResponsePerCommand : Prop :=
  ∀ (i : Instr) (s : State), s.walk = none →
    ∃ t, exec i s = .next t ∧
      ((t.walk = none ∧ ∃ r, t.responses = s.responses ++ [r]) ∨
       ((∃ b p f c, i = .fpaint b p f c) ∧ t.walk ≠ none ∧ t.responses = s.responses))

/-- R190: NOP is the word 0 alone, and every other word with its opcode byte faults a running unit with cause 0x02; the running
unit answers 0 and no state changes; the halted one refuses it. -/
def Obligations.NopOnlyResponds : Prop :=
  (∀ w : Word, opOf w = 0x00 → if w = 0 then decode [w] = .ok .nop else decode [w] = .error .reservedField) ∧
  (∀ (s : State) (w : Word) (rest : List Word), s.walk = none → s.fault = 0 → opOf w = 0x00 → w ≠ 0 →
    s.asm ++ s.cmdPort = w :: rest →
    ∃ t, step s = .next t ∧ t.fault = 0x02 ∧ t.fcmd = w ∧ t.asm = [] ∧ t.cmdPort = rest ∧ Responded 0x02 0 s t ∧
      KeepsAllBut [.faultRegs, .responses, .assembler, .cmdPort] s t) ∧
  ∀ s : State,
    (s.fault = 0 → ∃ t, exec .nop s = .next t ∧ OnlyResponds 0 s t) ∧
    (s.fault ≠ 0 → ∃ t, exec .nop s = .next t ∧ Responded 0x7F 0 s t ∧ KeepsAllBut [.responses] s t)

/-! ### Figures -/

/-- FLD of a valid literal: the destination holds it, no other register changes (R102). -/
def Obligations.FldLoadsValidFigure : Prop :=
  ∀ (s : State) (d : RegNo) (wh : Byte) (data : BitVec 16), s.fault = 0 → Figure.valid ⟨data, wh⟩ = true →
    ∃ t, exec (.fld d wh data) s = .next t ∧ readFig t d = ⟨data, wh⟩ ∧ (∀ r, r ≠ d → readFig t r = readFig s r) ∧
      Responded 0x00 0 s t ∧ KeepsAllBut [.figs, .responses] s t

/-- FLD of an invalid literal (more than 16 pixels, or a data bit at or above bit `W*H`): cause 0x03, FCMD the header word, and
nothing else changes (R102, R203). -/
def Obligations.FldInvalidFigureFaults : Prop :=
  ∀ (s : State) (d : RegNo) (wh : Byte) (data : BitVec 16), s.fault = 0 →
    (16 < (wh.toNat / 16) * (wh.toNat % 16) ∨ ∃ k, (wh.toNat / 16) * (wh.toNat % 16) ≤ k ∧ data.getLsbD k = true) →
    ∃ t, exec (.fld d wh data) s = .next t ∧ t.fault = 0x03 ∧
      t.fcmd.toNat = 0xF * 2 ^ 28 + d.toNat * 2 ^ 24 + wh.toNat * 2 ^ 16 + data.toNat ∧
      Responded 0x03 0 s t ∧ KeepsAllBut [.faultRegs, .responses] s t

/-- FWID, FHGT and FRD answer the width nibble, the height nibble and the packed register, and change nothing (R103, R104,
R107). -/
def Obligations.FigureReadBacks : Prop :=
  ∀ (s : State) (r : RegNo), s.fault = 0 →
    (∃ t v, exec (.fwid r) s = .next t ∧ OnlyResponds v s t ∧ v.toNat = (readFig s r).wh.toNat / 16) ∧
    (∃ t v, exec (.fhgt r) s = .next t ∧ OnlyResponds v s t ∧ v.toNat = (readFig s r).wh.toNat % 16) ∧
    (∃ t v, exec (.frd r) s = .next t ∧ OnlyResponds v s t ∧
      v.toNat = (readFig s r).wh.toNat * 2 ^ 16 + (readFig s r).data.toNat)

/-- FGETB answers the data bit that the mirrored layout gives the pixel, 0 outside the Figure, and changes nothing (R101,
R105). -/
def Obligations.FgetbReadsPixel : Prop :=
  ∀ (s : State) (r : RegNo) (col row : Byte), s.fault = 0 →
    ∃ t, exec (.fgetb r col row) s = .next t ∧
      OnlyResponds
        (if col.toNat < (readFig s r).wh.toNat / 16 ∧ row.toNat < (readFig s r).wh.toNat % 16 ∧
            (readFig s r).data.getLsbD
              (((readFig s r).wh.toNat % 16 - 1 - row.toNat) * ((readFig s r).wh.toNat / 16)
                + ((readFig s r).wh.toNat / 16 - 1 - col.toNat)) = true
          then 1 else 0) s t

/-- FROT: the destination holds the source turned by 90 degrees clockwise: sizes exchanged, the pixel at column `c'` and row
`r'` is the source's pixel `(r', h-1-c')`, and the source's pixel `(c, r)` is data bit `(w-1-c)*h + r`; the result is valid; no
other register changes (R106). Every Figure register holds a valid Figure (R24). -/
def Obligations.FrotTurnsClockwise : Prop :=
  ∀ (s : State) (d r : RegNo), s.fault = 0 → (readFig s r).valid = true →
    ∃ t, exec (.frot d r) s = .next t ∧
      (readFig t d).width = (readFig s r).height ∧ (readFig t d).height = (readFig s r).width ∧
      (∀ c' r', c' < (readFig s r).height → r' < (readFig s r).width →
        (readFig t d).bit c' r' = (readFig s r).bit r' ((readFig s r).height - 1 - c')) ∧
      (∀ c q, c < (readFig s r).width → q < (readFig s r).height →
        (readFig t d).data.getLsbD (((readFig s r).width - 1 - c) * (readFig s r).height + q) = (readFig s r).bit c q) ∧
      (readFig t d).valid = true ∧ (∀ q, q ≠ d → readFig t q = readFig s q) ∧
      Responded 0x00 0 s t ∧ KeepsAllBut [.figs, .responses] s t

/-- Four rotations reproduce a valid Figure, data and size byte (R109 a). -/
def Obligations.FourRotationsAreIdentity : Prop :=
  ∀ f : Figure, f.valid = true → f.rotate.rotate.rotate.rotate = f

/-- Two rotations turn a valid Figure by 180 degrees; a rotation keeps validity and the number of set bits (R109 b, c). -/
def Obligations.RotationTurnsAndKeepsBits : Prop :=
  ∀ f : Figure, f.valid = true →
    f.rotate.rotate.wh = f.wh ∧
    (∀ c r, c < f.width → r < f.height → f.rotate.rotate.bit c r = f.bit (f.width - 1 - c) (f.height - 1 - r)) ∧
    f.rotate.valid = true ∧
    (List.range 16).countP (fun k => f.rotate.data.getLsbD k) = (List.range 16).countP (fun k => f.data.getLsbD k)

/-- FPAINT with an acceptor that accepts every pixel: one request for each set pixel, in row-major order, at the unwrapped
signed position, then the response 1; the unit's state does not change (R108, R110). That answers are a queue that may stand
before their requests, and that those a walk does not use stay, is the model's choice (log 14). -/
def Obligations.FpaintOffersEveryPixel : Prop :=
  ∀ (s : State) (b p r : RegNo) (c : Byte) (rest : List Bool), s.fault = 0 → b.toNat ≤ 3 →
    s.paintAnswers = List.replicate (readFig s r).pixels.length true ++ rest →
    ∃ t reqs, exec (.fpaint b p r c) s = .next t ∧ Responded 0x00 1 s t ∧ t.walk = none ∧ t.paintAnswers = rest ∧
      t.paintRequests = s.paintRequests ++ reqs ∧
      List.Forall₂ (fun q k => q.bank = b ∧ q.colour = c ∧ q.px.toInt = (readDot s p).x.toInt + k.1 ∧
        q.py.toInt = (readDot s p).y.toInt + k.2) reqs (readFig s r).pixels ∧
      (readFig s r).pixels.Pairwise (fun k k' => k.2 < k'.2 ∨ (k.2 = k'.2 ∧ k.1 < k'.1)) ∧
      (∀ k, k ∈ (readFig s r).pixels ↔ (readFig s r).bit k.1 k.2 = true) ∧
      KeepsAllBut [.responses, .walk, .paintPort] s t

/-- FPAINT with an acceptor that rejects after `n` acceptances: the rejected request is the last one sent, the response is 0,
and no further request follows (R108). That the answers after the rejection stay in the queue for the next FPAINT is the
model's choice (log 14). -/
def Obligations.FpaintStopsAtRejection : Prop :=
  ∀ (s : State) (b p r : RegNo) (c : Byte) (n : Nat) (rest : List Bool), s.fault = 0 → b.toNat ≤ 3 →
    n < (readFig s r).pixels.length → s.paintAnswers = List.replicate n true ++ false :: rest →
    ∃ t reqs, exec (.fpaint b p r c) s = .next t ∧ Responded 0x00 0 s t ∧ t.walk = none ∧ t.paintAnswers = rest ∧
      t.paintRequests = s.paintRequests ++ reqs ∧
      List.Forall₂ (fun q k => q.bank = b ∧ q.colour = c ∧ q.px.toInt = (readDot s p).x.toInt + k.1 ∧
        q.py.toInt = (readDot s p).y.toInt + k.2) reqs ((readFig s r).pixels.take (n + 1)) ∧
      KeepsAllBut [.responses, .walk, .paintPort] s t

/-- FPAINT whose acceptor falls silent after `n` acceptances: the next request is out, there is no response and the walk holds its
position (R108, 10_state.md R35 b, R212 a). That a silent acceptor stays in the model, as a step that answers the same state
until an answer is there, is the model's choice (log 13, log 1). -/
def Obligations.FpaintWaitsForAnswer : Prop :=
  ∀ (s : State) (b p r : RegNo) (c : Byte) (n : Nat), s.fault = 0 → b.toNat ≤ 3 → n < (readFig s r).pixels.length →
    s.paintAnswers = List.replicate n true →
    ∃ t reqs, exec (.fpaint b p r c) s = .next t ∧ t.walk = some ⟨b, p, r, c, n⟩ ∧ t.paintAnswers = [] ∧
      t.paintRequests = s.paintRequests ++ reqs ∧ reqs.length = n + 1 ∧ KeepsAllBut [.walk, .paintPort] s t ∧
      step t = .next t

/-- An FPAINT that waits and is resumed with further answers ends in the state of an FPAINT that had all of them at once
(10_state.md R35 b, R108). That answers are a queue is the model's form of the oracle (log 14). -/
def Obligations.FpaintResumesWhereItWaited : Prop :=
  ∀ (s t : State) (b p r : RegNo) (c : Byte) (more : List Bool), s.fault = 0 → b.toNat ≤ 3 →
    exec (.fpaint b p r c) s = .next t → t.walk ≠ none → s.walk = none →
    step { t with paintAnswers := more } = exec (.fpaint b p r c) { s with paintAnswers := s.paintAnswers ++ more }

/-- `from_str` accepts exactly the texts of R90: 1 to 15 lines of one width of 1 to 15 characters, all `#` or space, at most 16 in
all, joined by line feeds; the Figure has their size and its set pixels are the `#`; `str` of it is the text, and it is valid
(R90, R109 d). -/
def Obligations.FigureTextRoundTrip : Prop :=
  (∀ (text : List Char) (f : Figure), fromStr text = some f → str f = text ∧ f.valid = true) ∧
  (∀ text : List Char, (∃ f, fromStr text = some f) ↔
    ∃ lines w, LiteralLines lines w ∧ text = List.intercalate ['\n'] lines) ∧
  (∀ (lines : List (List Char)) (w : Nat), LiteralLines lines w →
    ∃ f, fromStr (List.intercalate ['\n'] lines) = some f ∧ f.wh.toNat = w * 16 + lines.length ∧
      ∀ c r : Nat, f.bit c r = true ↔ lines[r]?.bind (fun l => l[c]?) = some '#')

/-- The written operands of a command assemble to it (R88), and whatever the assembler accepts is well formed: of in-range operands
R207 says so, and that operands out of range are an assembly error is the model's choice (log 19). FLDS is FLD of the Figure that `from_str` reads, an assembly error where that rejects the text, and always fault-free; FBCLRROW of a row 0 to 31 is FBCLRR
of that row alone (R89). -/
def Obligations.AssemblerReadsWrittenCommand : Prop :=
  (∀ i : Instr, i.wellFormed = true → assemble (written i).1 (written i).2 = some i) ∧
  (∀ m ops i, assemble m ops = some i → i.wellFormed = true) ∧
  (∀ ops i, assemble "FLDS" ops = some i → i.faultFree = true) ∧
  (∀ (d : RegNo) (text : List Char), (fromStr text = none → assemble "FLDS" [.fig d, .text text] = none) ∧
    ∀ f, fromStr text = some f → assemble "FLDS" [.fig d, .text text] = some (.fld d f.wh f.data)) ∧
  (∀ (b : RegNo) (y : Nat), b.toNat ≤ 3 → y ≤ 31 →
    ∃ y0 y1 : Byte, y0.toNat = y ∧ y1.toNat = y + 1 ∧ assemble "FBCLRROW" [.bank b, .imm y] = some (.fbclrr b y0 y1))

/-! ### Framebuffers -/

/-- FBSET: the cell at the position takes the colour, stored as given; off the grid nothing is written; every other cell of
every bank reads as before (R120). -/
def Obligations.FbsetWritesOneCell : Prop :=
  ∀ (s : State) (b p : RegNo) (c : Byte), s.fault = 0 → b.toNat ≤ 3 → Memory.wf 0 1024 s.cells = true →
    ∃ t, exec (.fbset b p c) s = .next t ∧
      (onGrid (posX s p) (posY s p) = true → cellRead t b (posX s p) (posY s p) = c) ∧
      (∀ b' x y, ¬(b' = b ∧ x = posX s p ∧ y = posY s p) → cellRead t b' x y = cellRead s b' x y) ∧
      (onGrid (posX s p) (posY s p) = false → SamePart .cells s t) ∧
      Responded 0x00 0 s t ∧ KeepsAllBut [.cells, .responses] s t

/-- FBGET: the cell on the grid, 0 off it; nothing changes (R121). -/
def Obligations.FbgetReadsOneCell : Prop :=
  ∀ (s : State) (b p : RegNo), s.fault = 0 → b.toNat ≤ 3 →
    ∃ t v, exec (.fbget b p) s = .next t ∧ OnlyResponds v s t ∧
      v.toNat = if 0 ≤ posX s p ∧ posX s p < 8 ∧ 0 ≤ posY s p ∧ posY s p < 32
        then (cellRead s b (posX s p) (posY s p)).toNat else 0

/-- FBCOL: 1 exactly when some set pixel lands off the grid or on an occupied cell; nothing changes (R123). -/
def Obligations.FbcolFindsCollisions : Prop :=
  ∀ (s : State) (b p r : RegNo), s.fault = 0 → b.toNat ≤ 3 →
    ∃ t, ∃ hit : Bool, exec (.fbcol b p r) s = .next t ∧ OnlyResponds (if hit then 1 else 0) s t ∧
      (hit = true ↔ ∃ col row : Nat, (readFig s r).bit col row = true ∧
        (onGrid (posX s p + col) (posY s p + row) = false ∨ cellRead s b (posX s p + col) (posY s p + row) ≠ 0))

/-- FBDRAW: every cell on the grid under a set pixel takes the colour, whatever it held; every other cell of every bank reads
as before, so that pixels off the grid are dropped (R124). -/
def Obligations.FbdrawCompositesFigure : Prop :=
  ∀ (s : State) (b p r : RegNo) (c : Byte), s.fault = 0 → b.toNat ≤ 3 → Memory.wf 0 1024 s.cells = true →
    ∃ t, exec (.fbdraw b p r c) s = .next t ∧
      (∀ col row : Nat, (readFig s r).bit col row = true → onGrid (posX s p + col) (posY s p + row) = true →
        cellRead t b (posX s p + col) (posY s p + row) = c) ∧
      (∀ b' x y, ¬(b' = b ∧ ∃ col row : Nat, (readFig s r).bit col row = true ∧ x = posX s p + col ∧ y = posY s p + row) →
        cellRead t b' x y = cellRead s b' x y) ∧
      Responded 0x00 0 s t ∧ KeepsAllBut [.cells, .responses] s t

/-- R125: (a) where FBCOL answers 0, every set pixel is on the grid over a background cell and FBDRAW writes exactly those cells;
(b) after FBDRAW with a colour that is not 0 and a Figure with a set pixel, FBCOL answers 1. -/
def Obligations.DrawAndCollideTogether : Prop :=
  ∀ (s : State) (b p r : RegNo) (c : Byte), s.fault = 0 → b.toNat ≤ 3 → Memory.wf 0 1024 s.cells = true →
    ∃ t u, exec (.fbdraw b p r c) s = .next t ∧ exec (.fbcol b p r) t = .next u ∧
      ((∃ v, exec (.fbcol b p r) s = .next v ∧ Responded 0x00 0 s v) →
        (∀ col row : Nat, (readFig s r).bit col row = true →
          onGrid (posX s p + col) (posY s p + row) = true ∧ cellRead s b (posX s p + col) (posY s p + row) = 0 ∧
          cellRead t b (posX s p + col) (posY s p + row) = c) ∧
        ∀ b' x y, cellRead t b' x y ≠ cellRead s b' x y →
          b' = b ∧ ∃ col row : Nat, (readFig s r).bit col row = true ∧ x = posX s p + col ∧ y = posY s p + row) ∧
      (c ≠ 0 → (∃ col row : Nat, (readFig s r).bit col row = true) → Responded 0x00 1 t u)

/-- FBROWF and FBROWE: all eight cells occupied, all eight background; a row off the grid is empty and not full; nothing
changes (R126, R127). -/
def Obligations.RowTestsReadRows : Prop :=
  ∀ (s : State) (b : RegNo) (y : Byte), s.fault = 0 → b.toNat ≤ 3 →
    (∃ t, ∃ full : Bool, exec (.fbrowf b y) s = .next t ∧ OnlyResponds (if full then 1 else 0) s t ∧
      (full = true ↔ y.toNat < 32 ∧ ∀ x : Nat, x < 8 → cellRead s b x y.toNat ≠ 0)) ∧
    (∃ t, ∃ empty : Bool, exec (.fbrowe b y) s = .next t ∧ OnlyResponds (if empty then 1 else 0) s t ∧
      (empty = true ↔ 32 ≤ y.toNat ∨ ∀ x : Nat, x < 8 → cellRead s b x y.toNat = 0))

/-- FBCLR: every cell of the bank is background; every other bank reads as before (R129). -/
def Obligations.FbclrClearsBank : Prop :=
  ∀ (s : State) (b : RegNo), s.fault = 0 → b.toNat ≤ 3 → Memory.wf 0 1024 s.cells = true →
    ∃ t, exec (.fbclr b) s = .next t ∧ (∀ x y, cellRead t b x y = 0) ∧
      (∀ b' x y, b' ≠ b → cellRead t b' x y = cellRead s b' x y) ∧
      Responded 0x00 0 s t ∧ KeepsAllBut [.cells, .responses] s t

/-- FBCLRR: the rows `y0 ≤ y < y1`, bounds above 32 taken as 32, are background; every other cell reads as before; from 0 to 32
it is FBCLR (R130). -/
def Obligations.FbclrrClearsRows : Prop :=
  ∀ (s : State) (b : RegNo) (y0 y1 : Byte), s.fault = 0 → b.toNat ≤ 3 → Memory.wf 0 1024 s.cells = true →
    (∃ t, exec (.fbclrr b y0 y1) s = .next t ∧
      (∀ x y : Int, (y0.toNat : Int) ≤ y → y < (y1.toNat : Int) → cellRead t b x y = 0) ∧
      (∀ b' x y, ¬(b' = b ∧ (y0.toNat : Int) ≤ y ∧ y < (y1.toNat : Int)) → cellRead t b' x y = cellRead s b' x y) ∧
      Responded 0x00 0 s t ∧ KeepsAllBut [.cells, .responses] s t) ∧
    exec (.fbclrr b 0 32) s = exec (.fbclr b) s

/-- FBREND: for every grid position the LED buffer holds, at the serpentine index, the palette colour of the cell's value modulo
10; it has 256 entries, and the bank and every other part stay (R133, R61). `displayFrame` is the buffer in index order. That a
display reads it between commands only, so that this is what it shows, is the model's inference (log 17), and holds of a host
that keeps the order of R243. -/
def Obligations.FbrendShowsEveryCell : Prop :=
  ∀ (s : State) (b : RegNo), s.fault = 0 → b.toNat ≤ 3 →
    ∃ t, exec (.fbrend b) s = .next t ∧ (displayFrame t).length = 256 ∧
      (∀ x y : Nat, x < 8 → y < 32 →
        (displayFrame t)[if y % 2 = 0 then y * 8 + (7 - x) else y * 8 + x]? =
          some (Config.palette ⟨(cellRead s b x y).toNat % 10, Nat.mod_lt _ (by decide)⟩)) ∧
      Responded 0x00 0 s t ∧ KeepsAllBut [.leds, .responses] s t

/-- R61: the serpentine map is `y*8 + (7-x)` on even rows and `y*8 + x` on odd rows, and it is a bijection from the 256 grid
positions onto 0..255. -/
def Obligations.LedIndexIsBijection : Prop :=
  (∀ x y : Nat, x < 8 → y < 32 →
    (y % 2 = 0 → ledIdx x y = y * 8 + (7 - x)) ∧ (y % 2 = 1 → ledIdx x y = y * 8 + x) ∧ ledIdx x y < 256) ∧
  ∀ i : Nat, i < 256 → ∃! p : Nat × Nat, p.1 < 8 ∧ p.2 < 32 ∧ ledIdx p.1 p.2 = i

/-- R136: (a) after FBCLR, FBSET of one position on the grid with a colour whose palette entry is not background's, and FBREND,
exactly one LED entry differs from `PALETTE[0]`, the one at the serpentine index; (b) FBCOL answers 1 exactly on a collision;
(c) FBSET then FBGET at the same position answers the colour on the grid and 0 off it. -/
def Obligations.FrameBufferLaws : Prop :=
  (∀ (s : State) (b p : RegNo) (c : Byte), s.fault = 0 → b.toNat ≤ 3 → Memory.wf 0 1024 s.cells = true →
    onGrid (posX s p) (posY s p) = true → shownColour c ≠ Config.palette 0 →
    ∃ t, execAll [.fbclr b, .fbset b p c, .fbrend b] s = .next t ∧ ∀ i : Nat, i < 256 →
      ((displayFrame t)[i]? ≠ some (Config.palette 0) ↔ i = ledIdx (posX s p).toNat (posY s p).toNat)) ∧
  (∀ (s : State) (b p r : RegNo), s.fault = 0 → b.toNat ≤ 3 →
    ∃ t, exec (.fbcol b p r) s = .next t ∧
      (Responded 0x00 1 s t ↔ ∃ col row : Nat, (readFig s r).bit col row = true ∧
        (onGrid (posX s p + col) (posY s p + row) = false ∨ cellRead s b (posX s p + col) (posY s p + row) ≠ 0))) ∧
  (∀ (s : State) (b p : RegNo) (c : Byte), s.fault = 0 → b.toNat ≤ 3 → Memory.wf 0 1024 s.cells = true →
    ∃ t u v, exec (.fbset b p c) s = .next t ∧ exec (.fbget b p) t = .next u ∧ Responded 0x00 v t u ∧
      v.toNat = if onGrid (posX s p) (posY s p) = true then c.toNat else 0)

/-- R9: the laws of the OPEN parameters: every palette channel is at most 12, index 0 is (0, 0, 0), no other index is that
colour, and a draw is below its maximum. -/
def Obligations.OpenParameterLaws : Prop :=
  (∀ i, (Config.palette i).r.toNat ≤ 12 ∧ (Config.palette i).g.toNat ≤ 12 ∧ (Config.palette i).b.toNat ≤ 12) ∧
  Config.palette 0 = ⟨0, 0, 0⟩ ∧ (∀ i, i ≠ 0 → Config.palette i ≠ Config.palette 0) ∧
  ∀ (st : Word) (max : Nat), 1 ≤ max → prngRange st max < max

/-- FBROWS: every cell of the bank is written, the colour where the column word has a 1 in bit `31 - y` and 0 elsewhere; every
other bank reads as before (R135). -/
def Obligations.FbrowsFillsBank : Prop :=
  ∀ (s : State) (b : RegNo) (c : Byte) (p0 p1 p2 p3 p4 p5 p6 p7 : Word), s.fault = 0 → b.toNat ≤ 3 →
    Memory.wf 0 1024 s.cells = true →
    ∃ t, exec (.fbrows b c p0 p1 p2 p3 p4 p5 p6 p7) s = .next t ∧
      (∀ (x : Fin 8) (y : Nat), y < 32 →
        cellRead t b x.val y = if (#v[p0, p1, p2, p3, p4, p5, p6, p7][x]).getLsbD (31 - y) then c else 0) ∧
      (∀ b' x y, b' ≠ b → cellRead t b' x y = cellRead s b' x y) ∧
      Responded 0x00 0 s t ∧ KeepsAllBut [.cells, .responses] s t

/-! ### The generator -/

/-- PSEED stores the seed; PNEXT steps the state modulo `2 ^ 32` and answers the draw from the new state, below the maximum; for
a maximum of 0 it answers 0 and the state advances exactly if the parameter says so (R150, R151, R152). -/
def Obligations.PseedStoresAndPnextSteps : Prop :=
  ∀ (s : State), s.fault = 0 →
    (∀ seed, ∃ t, exec (.pseed seed) s = .next t ∧ t.prng = seed ∧ Responded 0x00 0 s t ∧
      KeepsAllBut [.prng, .responses] s t) ∧
    (∀ max : Byte, max ≠ 0 → ∃ t v, exec (.pnext max) s = .next t ∧
      t.prng.toNat = (Config.prngMul.toNat * s.prng.toNat + Config.prngInc.toNat) % 2 ^ 32 ∧
      Responded 0x00 v s t ∧ v.toNat = prngRange t.prng max.toNat ∧ v.toNat < max.toNat ∧
      KeepsAllBut [.prng, .responses] s t) ∧
    (∃ t, exec (.pnext 0) s = .next t ∧
      t.prng = (if Config.prngAdvanceOnZero then lcg s.prng else s.prng) ∧ Responded 0x00 0 s t ∧
      KeepsAllBut [.prng, .responses] s t)

/-- R153: (a) what PNEXT commands answer after a PSEED depends on the seed and the maxima alone; (b) every answer to a maximum
above 0 is below it; (c) the state after `k` steps is `lcg` applied `k` times to the seed, if no maximum was 0 or the unit
advances on zero. -/
def Obligations.PrngLaws : Prop :=
  ∀ (seed : Word) (maxima : List Byte), ∃ (answers : List Value) (final : Word),
    answers.length = maxima.length ∧
    (∀ k (h : k < maxima.length) (h' : k < answers.length), maxima[k] ≠ 0 → (answers[k]).toNat < (maxima[k]).toNat) ∧
    (((∀ m ∈ maxima, m ≠ 0) ∨ Config.prngAdvanceOnZero = true) → final = lcg^[maxima.length] seed) ∧
    ∀ s : State, s.fault = 0 →
      ∃ t, execAll (.pseed seed :: maxima.map .pnext) s = .next t ∧ t.prng = final ∧
        t.responses = s.responses ++ responseWord 0x00 0 :: answers.map (responseWord 0x00)

/-! ### Dots -/

/-- DLD loads the two bytes; DRD answers them packed, y in bits 15:8 and x in bits 7:0, and changes nothing (R160, R161). -/
def Obligations.DldLoadsAndDrdReads : Prop :=
  ∀ (s : State), s.fault = 0 →
    (∀ (d : RegNo) (x y : Byte), ∃ t, exec (.dld d x y) s = .next t ∧ readDot t d = ⟨x, y⟩ ∧
      (∀ r, r ≠ d → readDot t r = readDot s r) ∧ Responded 0x00 0 s t ∧ KeepsAllBut [.dots, .responses] s t) ∧
    (∀ r : RegNo, ∃ t v, exec (.drd r) s = .next t ∧ OnlyResponds v s t ∧
      v.toNat = (readDot s r).y.toNat * 2 ^ 8 + (readDot s r).x.toNat)

/-- DMOVW: the components are the integer sums modulo 8 and 32, Euclidean; no other register changes (R162). -/
def Obligations.DmovwWraps : Prop :=
  ∀ (s : State) (d p q : RegNo), s.fault = 0 →
    ∃ t, exec (.dmovw d p q) s = .next t ∧
      (readDot t d).x.toInt = ((readDot s p).x.toInt + (readDot s q).x.toInt) % 8 ∧
      (readDot t d).y.toInt = ((readDot s p).y.toInt + (readDot s q).y.toInt) % 32 ∧
      (∀ r, r ≠ d → readDot t r = readDot s r) ∧ Responded 0x00 0 s t ∧ KeepsAllBut [.dots, .responses] s t

/-- DTODIR: the sign of y alone if it is not 0, else the sign of x; no other register changes (R163). -/
def Obligations.DtodirReduces : Prop :=
  ∀ (s : State) (d p : RegNo), s.fault = 0 →
    ∃ t, exec (.dtodir d p) s = .next t ∧
      (readDot t d).y.toInt = (readDot s p).y.toInt.sign ∧
      (readDot t d).x.toInt = (if (readDot s p).y.toInt = 0 then (readDot s p).x.toInt.sign else 0) ∧
      (∀ r, r ≠ d → readDot t r = readDot s r) ∧ Responded 0x00 0 s t ∧ KeepsAllBut [.dots, .responses] s t

/-- DOPP: 1 exactly when both integer sums are 0; DZERO: 1 exactly when both components are 0; neither changes anything (R164,
R165). -/
def Obligations.DoppAndDzeroTest : Prop :=
  ∀ (s : State) (p q : RegNo), s.fault = 0 →
    (∃ t, exec (.dopp p q) s = .next t ∧
      OnlyResponds (if (readDot s p).x.toInt + (readDot s q).x.toInt = 0 ∧ (readDot s p).y.toInt + (readDot s q).y.toInt = 0
        then 1 else 0) s t) ∧
    (∃ t, exec (.dzero p) s = .next t ∧ OnlyResponds (if readDot s p = ⟨0, 0⟩ then 1 else 0) s t)

/-- R166: (a) DMOVW's result is on the grid; (b) from a position on the grid, a unit direction and then its opposite lead back;
(c) DTODIR's result has at most one component that is not 0, and that one is -1 or 1; (d) it is zero exactly when the source
was. -/
def Obligations.DotLaws : Prop :=
  (∀ v u : Dot, onGrid (v.moveWrap u).x.toInt (v.moveWrap u).y.toInt = true) ∧
  (∀ v u w : Dot, onGrid v.x.toInt v.y.toInt = true →
    u ∈ [(⟨1, 0⟩ : Dot), ⟨-1, 0⟩, ⟨0, 1⟩, ⟨0, -1⟩] → u.opposite w = true → (v.moveWrap u).moveWrap w = v) ∧
  (∀ v : Dot, (v.toDirection.x.toInt = 0 ∨ v.toDirection.y.toInt = 0) ∧
    (v.toDirection.x.toInt ≠ 0 → v.toDirection.x.toInt = 1 ∨ v.toDirection.x.toInt = -1) ∧
    (v.toDirection.y.toInt ≠ 0 → v.toDirection.y.toInt = 1 ∨ v.toDirection.y.toInt = -1)) ∧
  (∀ v : Dot, v.toDirection.isZero = true ↔ v = ⟨0, 0⟩) ∧
  (∀ (s : State) (d p : RegNo), s.fault = 0 →
    ∃ t u, exec (.dtodir d p) s = .next t ∧ readDot t d = (readDot s p).toDirection ∧
      exec (.dzero d) t = .next u ∧ (Responded 0x00 1 t u ↔ readDot s p = ⟨0, 0⟩)) ∧
  (∀ (s : State) (d p q : RegNo), s.fault = 0 →
    ∃ t, exec (.dmovw d p q) s = .next t ∧ readDot t d = (readDot s p).moveWrap (readDot s q))

/-! ### Arenas -/

/-- AINIT: the capacity is the immediate cut to 256 and the arena is empty; the slots and the other arenas stay (R171). -/
def Obligations.AinitSetsCapacity : Prop :=
  ∀ (s : State) (a : RegNo) (cap : BitVec 16), s.fault = 0 →
    ∃ t, exec (.ainit a cap) s = .next t ∧ readCap t a = min cap.toNat 256 ∧ readCount t a = 0 ∧
      (∀ a', a' ≠ a → readCap t a' = readCap s a' ∧ readCount t a' = readCount s a') ∧
      Responded 0x00 0 s t ∧ KeepsAllBut [.caps, .counts, .responses] s t

/-- APUSH: below capacity the entity becomes the highest live entry and the answer is 1; at capacity nothing changes and the
answer is 0 (R172). -/
def Obligations.ApushAppendsOrDrops : Prop :=
  ∀ (s : State) (a r : RegNo), s.fault = 0 → Memory.wf ⟨0, 0⟩ 4096 s.ents = true →
    (readCount s a < readCap s a → ∃ t, exec (.apush a r) s = .next t ∧
      readCount t a = readCount s a + 1 ∧ readEnt t a (readCount s a) = readDot s r ∧
      (∀ a', a' ≠ a → readCount t a' = readCount s a') ∧
      (∀ a' k, ¬(a' = a ∧ k = readCount s a) → readEnt t a' k = readEnt s a' k) ∧
      Responded 0x00 1 s t ∧ KeepsAllBut [.counts, .ents, .responses] s t) ∧
    (readCap s a ≤ readCount s a → ∃ t, exec (.apush a r) s = .next t ∧ OnlyResponds 0 s t)

/-- AREM: a live entry is exchanged with the last and cut off, the answer is 1; an index that is not live does nothing and
answers 0 (R173). -/
def Obligations.AremSwapsWithLast : Prop :=
  ∀ (s : State) (a : RegNo) (k : Byte), s.fault = 0 → Memory.wf ⟨0, 0⟩ 4096 s.ents = true →
    (k.toNat < readCount s a → ∃ t, exec (.arem a k) s = .next t ∧
      readCount t a = readCount s a - 1 ∧
      readEnt t a k.toNat = readEnt s a (readCount s a - 1) ∧ readEnt t a (readCount s a - 1) = readEnt s a k.toNat ∧
      (∀ a', a' ≠ a → readCount t a' = readCount s a') ∧
      (∀ a' j, ¬(a' = a ∧ (j = k.toNat ∨ j = readCount s a - 1)) → readEnt t a' j = readEnt s a' j) ∧
      Responded 0x00 1 s t ∧ KeepsAllBut [.counts, .ents, .responses] s t) ∧
    (readCount s a ≤ k.toNat → ∃ t, exec (.arem a k) s = .next t ∧ OnlyResponds 0 s t)

/-- AGET reads and ASET overwrites a live entry and answer 1; an index that is not live changes nothing and answers 0; ACNT
answers the live count (R174, R175, R176). -/
def Obligations.AgetAsetAcntAccess : Prop :=
  ∀ (s : State) (a r : RegNo) (k : Byte), s.fault = 0 → Memory.wf ⟨0, 0⟩ 4096 s.ents = true → readCount s a ≤ 256 →
    (k.toNat < readCount s a → ∃ t, exec (.aget a r k) s = .next t ∧ readDot t r = readEnt s a k.toNat ∧
      (∀ q, q ≠ r → readDot t q = readDot s q) ∧ Responded 0x00 1 s t ∧ KeepsAllBut [.dots, .responses] s t) ∧
    (k.toNat < readCount s a → ∃ t, exec (.aset a r k) s = .next t ∧ readEnt t a k.toNat = readDot s r ∧
      (∀ a' j, ¬(a' = a ∧ j = k.toNat) → readEnt t a' j = readEnt s a' j) ∧
      Responded 0x00 1 s t ∧ KeepsAllBut [.ents, .responses] s t) ∧
    (readCount s a ≤ k.toNat → (∃ t, exec (.aget a r k) s = .next t ∧ OnlyResponds 0 s t) ∧
      ∃ t, exec (.aset a r k) s = .next t ∧ OnlyResponds 0 s t) ∧
    (∃ t v, exec (.acnt a) s = .next t ∧ OnlyResponds v s t ∧ v.toNat = readCount s a)

/-- R177: (a) counts are within capacities and these within 256 after reset, and every step keeps that; (b) only APUSH, AREM and
AINIT change a count, by +1, by -1 and to 0, and AINIT on a running unit always sets it to 0; (c) a successful AREM takes one
copy of the removed entry from the live entries; (d) a push at capacity leaves the count. -/
def Obligations.ArenaLaws : Prop :=
  (∀ (u : Unspecified) (a : RegNo), readCount (State.resetWith u) a ≤ readCap (State.resetWith u) a ∧
    readCap (State.resetWith u) a ≤ 256) ∧
  (∀ s t : State, step s = .next t → (∀ a, readCount s a ≤ readCap s a ∧ readCap s a ≤ 256) →
    ∀ a, readCount t a ≤ readCap t a ∧ readCap t a ≤ 256) ∧
  (∀ (i : Instr) (s t : State) (a : RegNo), exec i s = .next t → readCount t a ≠ readCount s a →
    ((∃ r, i = .apush a r) ∧ readCount t a = readCount s a + 1) ∨
    ((∃ k, i = .arem a k) ∧ readCount t a + 1 = readCount s a) ∨
    ((∃ cap, i = .ainit a cap) ∧ readCount t a = 0)) ∧
  (∀ (s : State) (a : RegNo) (cap : BitVec 16), s.fault = 0 → ∃ t, exec (.ainit a cap) s = .next t ∧ readCount t a = 0) ∧
  (∀ (s : State) (a : RegNo) (k : Byte), s.fault = 0 → Memory.wf ⟨0, 0⟩ 4096 s.ents = true → k.toNat < readCount s a →
    ∃ t, exec (.arem a k) s = .next t ∧ (readEnt s a k.toNat :: liveEntries t a).Perm (liveEntries s a)) ∧
  (∀ (s : State) (a r : RegNo), s.fault = 0 → readCount s a = readCap s a →
    ∃ t, exec (.apush a r) s = .next t ∧ readCount t a = readCount s a)

/-! ### A fault and what comes after it -/

/-- A fault transfers control nowhere (R211, R203): it takes its own command's words and leaves all that follow; the next step
takes the command that stands right behind, as after any other command, refuses it unless it is a well-formed STAT, which it
executes (R205), and leaves the words behind that one. -/
def Obligations.FaultTransfersControlNowhere : Prop :=
  ∀ s t : State, step s = .next t → t.fault ≠ s.fault →
    t.asm = [] ∧ t.walk = none ∧
    (∃ ws, WholeCommand ws ∧ s.asm ++ s.cmdPort = ws ++ t.cmdPort) ∧
    ∀ ws rest : List Word, WholeCommand ws → t.cmdPort = ws ++ rest →
      ∃ u, step t = .next u ∧ u.asm = [] ∧ u.cmdPort = rest ∧ KeepsAllBut [.responses, .assembler, .cmdPort] t u ∧
        (∀ sel, decode ws = .ok (.stat sel) → ∃ v, Responded 0x00 v t u) ∧
        ((∀ sel, decode ws ≠ .ok (.stat sel)) → Responded 0x7F 0 t u)
end

