-- ==== Sys2Proof/Laws/Assembler.lean ====
section
/-! SUPPORT. The splitting of a text into lines, and joining them again (30_encoding.md R90); the readings of the two
pseudo-instructions (R89). -/

namespace Sys2Proof.Machine

@[simp] theorem splitLines_nil : splitLines [] = [[]] := rfl

theorem splitLines_newline (cs : List Char) : splitLines ('\n' :: cs) = [] :: splitLines cs := by simp [splitLines]

theorem splitLines_ne_nil (text : List Char) : splitLines text ≠ [] := by
  cases text with
  | nil => simp
  | cons c cs =>
    unfold splitLines
    split
    · simp
    · split <;> simp

theorem splitLines_cons {c : Char} {cs l : List Char} {ls : List (List Char)} (hc : c ≠ '\n') (h : splitLines cs = l :: ls) :
    splitLines (c :: cs) = (c :: l) :: ls := by simp [splitLines, hc, h]

/-- Joining the lines of a text gives the text back. -/
theorem intercalate_splitLines (text : List Char) : List.intercalate ['\n'] (splitLines text) = text := by
  induction text with
  | nil => rfl
  | cons c cs ih =>
    by_cases hc : c = '\n'
    · subst hc
      rw [splitLines_newline]
      cases h : splitLines cs with
      | nil => exact absurd h (splitLines_ne_nil cs)
      | cons l ls => rw [h] at ih; simpa [List.intercalate] using ih
    · cases h : splitLines cs with
      | nil => exact absurd h (splitLines_ne_nil cs)
      | cons l ls =>
        rw [h] at ih
        rw [splitLines_cons hc h]
        cases ls <;> simpa [List.intercalate] using ih

/-- A line without a line feed before the rest of a text becomes the beginning of its first line. -/
theorem splitLines_append {l : List Char} (hl : ∀ c ∈ l, c ≠ '\n') {text first : List Char} {ls : List (List Char)}
    (h : splitLines text = first :: ls) : splitLines (l ++ text) = (l ++ first) :: ls := by
  induction l with
  | nil => exact h
  | cons c l ih =>
    exact splitLines_cons (hl c (by simp)) (ih fun c hc => hl c (by simp [hc]))

/-- Splitting joined lines gives the lines back, if none holds a line feed. -/
theorem splitLines_intercalate {lines : List (List Char)} (hne : lines ≠ []) (hl : ∀ l ∈ lines, ∀ c ∈ l, c ≠ '\n') :
    splitLines (List.intercalate ['\n'] lines) = lines := by
  induction lines with
  | nil => exact absurd rfl hne
  | cons l ls ih =>
    have h0 : splitLines (l ++ []) = [l ++ []] := splitLines_append (hl l (by simp)) splitLines_nil
    cases ls with
    | nil => simpa [List.intercalate] using h0
    | cons l' ls =>
      have hrest := ih (by simp) fun l hm => hl l (by simp [hm])
      have e : List.intercalate ['\n'] (l :: l' :: ls) = l ++ '\n' :: List.intercalate ['\n'] (l' :: ls) := by
        simp [List.intercalate]
      have := splitLines_append (hl l (by simp)) (splitLines_newline (List.intercalate ['\n'] (l' :: ls)))
      rw [e, this, hrest, List.append_nil]

theorem assemble_flds (d : RegNo) (text : List Char) :
    assemble "FLDS" [.fig d, .text text] =
      ((fromStr text).map fun f => Instr.fld d f.wh f.data).filter Instr.wellFormed := rfl

theorem assemble_fbclrrow (b : RegNo) (y : Int) :
    assemble "FBCLRROW" [.bank b, .imm y] =
      (if 0 ≤ y ∧ y ≤ 31 then some (Instr.fbclrr b (BitVec.ofInt 8 y) (BitVec.ofInt 8 (y + 1))) else none).filter
        Instr.wellFormed := rfl

end Sys2Proof.Machine
end

