-- ==== Sys2Proof/Laws/Decode.lean ====
section
/-! SUPPORT. The fields of a packed header; lengths of encoded commands; what taking a command from a stream does. -/

namespace Sys2Proof

/-! ### Packed headers as numbers, and their fields -/

theorem toNat_append_eq {m n : Nat} (x : BitVec m) (y : BitVec n) : (x ++ y).toNat = x.toNat * 2 ^ n + y.toNat := by
  rw [BitVec.toNat_append, ← Nat.shiftLeft_add_eq_or_of_lt y.isLt, Nat.shiftLeft_eq]

theorem packABCE_toNat (op : Byte) (a b c : RegNo) (e : Byte) :
    (packABCE op a b c e).toNat =
      op.toNat * 2 ^ 24 + a.toNat * 2 ^ 20 + b.toNat * 2 ^ 16 + c.toNat * 2 ^ 12 + e.toNat := by
  simp only [packABCE, toNat_append_eq, BitVec.toNat_ofNat]; omega

theorem packAHE_toNat (op : Byte) (a : RegNo) (h e : Byte) :
    (packAHE op a h e).toNat = op.toNat * 2 ^ 24 + a.toNat * 2 ^ 20 + h.toNat * 2 ^ 8 + e.toNat := by
  simp only [packAHE, toNat_append_eq, BitVec.toNat_ofNat]; omega

theorem packAI_toNat (op : Byte) (a : RegNo) (i : BitVec 16) :
    (packAI op a i).toNat = op.toNat * 2 ^ 24 + a.toNat * 2 ^ 20 + i.toNat := by
  simp only [packAI, toNat_append_eq, BitVec.toNat_ofNat]; omega

theorem packL_toNat (d : RegNo) (wh : Byte) (data : BitVec 16) :
    (packL d wh data).toNat = 15 * 2 ^ 28 + d.toNat * 2 ^ 24 + wh.toNat * 2 ^ 16 + data.toNat := by
  simp only [packL, toNat_append_eq, BitVec.toNat_ofNat]; omega

/-- A field of a word is a quotient and a remainder of its number. -/
theorem extract_toNat (w : Word) (lo n : Nat) : (w.extractLsb' lo n).toNat = w.toNat / 2 ^ lo % 2 ^ n := by
  rw [BitVec.extractLsb'_toNat, Nat.shiftRight_eq_div_pow]

theorem extract_eq_iff {w : Word} {lo n : Nat} {v : BitVec n} :
    w.extractLsb' lo n = v ↔ w.toNat / 2 ^ lo % 2 ^ n = v.toNat := by
  rw [← BitVec.toNat_inj, extract_toNat]

variable (op : Byte) (a b c d : RegNo) (h e wh : Byte) (i data : BitVec 16)

@[simp] theorem opOf_packABCE : opOf (packABCE op a b c e) = op := by
  rw [opOf, extract_eq_iff, packABCE_toNat]; omega
@[simp] theorem fieldA_packABCE : fieldA (packABCE op a b c e) = a := by
  rw [fieldA, extract_eq_iff, packABCE_toNat]; omega
@[simp] theorem fieldB_packABCE : fieldB (packABCE op a b c e) = b := by
  rw [fieldB, extract_eq_iff, packABCE_toNat]; omega
@[simp] theorem fieldC_packABCE : fieldC (packABCE op a b c e) = c := by
  rw [fieldC, extract_eq_iff, packABCE_toNat]; omega
@[simp] theorem fieldE_packABCE : fieldE (packABCE op a b c e) = e := by
  rw [fieldE, extract_eq_iff, packABCE_toNat]; omega
@[simp] theorem opOf_packAHE : opOf (packAHE op a h e) = op := by
  rw [opOf, extract_eq_iff, packAHE_toNat]; omega
@[simp] theorem fieldA_packAHE : fieldA (packAHE op a h e) = a := by
  rw [fieldA, extract_eq_iff, packAHE_toNat]; omega
@[simp] theorem fieldHb_packAHE : fieldHb (packAHE op a h e) = h := by
  rw [fieldHb, extract_eq_iff, packAHE_toNat]; omega
@[simp] theorem fieldE_packAHE : fieldE (packAHE op a h e) = e := by
  rw [fieldE, extract_eq_iff, packAHE_toNat]; omega
@[simp] theorem opOf_packAI : opOf (packAI op a i) = op := by
  rw [opOf, extract_eq_iff, packAI_toNat]; omega
@[simp] theorem fieldA_packAI : fieldA (packAI op a i) = a := by
  rw [fieldA, extract_eq_iff, packAI_toNat]; omega
@[simp] theorem fieldI16_packAI : fieldI16 (packAI op a i) = i := by
  rw [fieldI16, extract_eq_iff, packAI_toNat]; omega
@[simp] theorem fieldMajor_packL : fieldMajor (packL d wh data) = 0xF#4 := by
  rw [fieldMajor, extract_eq_iff, packL_toNat, BitVec.toNat_ofNat]; omega
@[simp] theorem fieldD_packL : fieldD (packL d wh data) = d := by
  rw [fieldD, extract_eq_iff, packL_toNat]; omega
@[simp] theorem fieldWh_packL : fieldWh (packL d wh data) = wh := by
  rw [fieldWh, extract_eq_iff, packL_toNat]; omega
@[simp] theorem fieldI16_packL : fieldI16 (packL d wh data) = data := by
  rw [fieldI16, extract_eq_iff, packL_toNat]; omega

/-- The major nibble is the upper half of the opcode byte. -/
theorem fieldMajor_eq_iff (w : Word) : fieldMajor w = 0xF#4 ↔ 0xF0 ≤ (opOf w).toNat := by
  have := w.isLt
  rw [fieldMajor, extract_eq_iff, opOf, extract_toNat, BitVec.toNat_ofNat]; omega

/-! ### Lengths and grouping (R72) -/

theorem commandLength_pos (w : Word) : 1 ≤ commandLength w := by
  unfold commandLength; split
  · omega
  · split <;> omega

theorem commandLength_le (w : Word) : commandLength w ≤ 9 := by
  unfold commandLength; split
  · omega
  · split <;> omega

theorem commandLength_packABCE :
    commandLength (packABCE op a b c e) = if op = 0x29#8 then 9 else if op = 0x30#8 then 2 else 1 := by
  simp [commandLength]

/-- Everything taking a command can do: the words taken are one whole command and come first in the stream. -/
theorem takeCommand_eq_some {stream ws rest : List Word} (h : takeCommand stream = some (ws, rest)) :
    stream = ws ++ rest ∧ ∃ w pay, ws = w :: pay ∧ ws.length = commandLength w := by
  cases stream with
  | nil => cases h
  | cons w tail =>
    simp only [takeCommand] at h
    split at h
    · cases h
    · cases h
      have := commandLength_pos w
      refine ⟨by simp, w, _, rfl, ?_⟩
      simp only [List.length_cons, List.length_take]; omega

/-- Taking a command from a stream that begins with a whole one takes exactly that one. -/
theorem takeCommand_append {w : Word} {pay : List Word} (rest : List Word) (h : (w :: pay).length = commandLength w) :
    takeCommand (w :: pay ++ rest) = some (w :: pay, rest) := by
  rw [List.length_cons] at h
  have h1 : commandLength w - 1 = pay.length := by omega
  simp only [List.cons_append, takeCommand, h1, List.take_left, List.drop_left, List.length_append]
  rw [if_neg (by omega)]

/-- A stream gives no command exactly when it is empty or the beginning of a longer command. -/
theorem takeCommand_eq_none {stream : List Word} :
    takeCommand stream = none ↔ stream = [] ∨ ∃ w pay, stream = w :: pay ∧ stream.length < commandLength w := by
  cases stream with
  | nil => simp [takeCommand]
  | cons w tail => simp [takeCommand]

/-! ### Decoding -/

/-- A decoded list of words is one whole command with a legal encoding. -/
theorem decode_eq_ok {ws : List Word} {k : Instr} (h : decode ws = .ok k) :
    (∃ w pay, ws = w :: pay ∧ ws.length = commandLength w) ∧ k.wellFormed = true := by
  cases ws with
  | nil => cases h
  | cons w pay =>
    simp only [decode] at h
    split at h
    · refine ⟨⟨w, pay, rfl, by simpa using ‹_›⟩, ?_⟩
      split at h
      · cases h
      · split at h
        · rename_i hc
          cases h
          exact (Bool.and_eq_true_iff.1 hc).2
        · cases h
    · cases h

end Sys2Proof
end

