-- ==== Sys2Proof/Laws/Figure.lean ====
section
/-! SUPPORT. The Figure operations: membership of the pixel list, sizes of a rotated Figure, and the bits a fold of single bits
sets. -/

namespace Sys2Proof

theorem Figure.width_lt (f : Figure) : f.width < 16 := (f.wh.extractLsb' 4 4).isLt

theorem Figure.height_lt (f : Figure) : f.height < 16 := (f.wh.extractLsb' 0 4).isLt

/-- A set pixel lies inside the Figure's rectangle. -/
theorem Figure.bit_bounds {f : Figure} {c r : Nat} (h : f.bit c r = true) : c < f.width ∧ r < f.height := by
  simp only [Figure.bit, Bool.and_eq_true, decide_eq_true_eq] at h
  exact h.1

/-- `pixels(f)` holds exactly the set pixels. -/
@[simp] theorem Figure.mem_pixels {f : Figure} {p : Nat × Nat} : p ∈ f.pixels ↔ f.bit p.1 p.2 = true := by
  obtain ⟨c, r⟩ := p
  simp only [Figure.pixels, List.mem_flatMap, List.mem_map, List.mem_filter, List.mem_range, Prod.mk.injEq]
  constructor
  · rintro ⟨r', _, c', ⟨_, h⟩, rfl, rfl⟩; exact h
  · intro h
    have hb := Figure.bit_bounds h
    exact ⟨r, hb.2, c, ⟨hb.1, h⟩, rfl, rfl⟩

theorem Figure.valid_iff {f : Figure} :
    f.valid = true ↔ f.width * f.height ≤ 16 ∧ ∀ k, f.width * f.height ≤ k → f.data.getLsbD k = false := by
  simp only [Figure.valid, Bool.and_eq_true, decide_eq_true_eq, beq_iff_eq, and_congr_right_iff]
  intro _
  constructor
  · intro h k hk
    have := congrArg (fun v : BitVec 16 => v.getLsbD (k - f.width * f.height)) h
    simpa [Nat.add_sub_cancel' hk] using this
  · intro h
    apply BitVec.eq_of_getLsbD_eq
    intro k _
    simp [h (f.width * f.height + k) (by omega)]

theorem Figure.width_eq (f : Figure) : f.width = f.wh.toNat / 16 := by
  have := f.wh.isLt
  simp only [Figure.width, BitVec.extractLsb'_toNat, Nat.shiftRight_eq_div_pow]; omega

theorem Figure.height_eq (f : Figure) : f.height = f.wh.toNat % 16 := by
  simp only [Figure.height, BitVec.extractLsb'_toNat, Nat.shiftRight_eq_div_pow]; omega

theorem Figure.rotate_wh (f : Figure) : f.rotate.wh.toNat = f.height * 16 + f.width :=
  toNat_append_eq (f.wh.extractLsb' 0 4) (f.wh.extractLsb' 4 4)

@[simp] theorem Figure.rotate_width (f : Figure) : f.rotate.width = f.height := by
  have := f.width_lt
  rw [Figure.width_eq, Figure.rotate_wh]; omega

@[simp] theorem Figure.rotate_height (f : Figure) : f.rotate.height = f.width := by
  have := f.width_lt
  rw [Figure.height_eq, Figure.rotate_wh]; omega

/-- A fold that sets one bit per item sets exactly the bits of the items that fall inside the word. -/
theorem getLsbD_foldl_bits {α : Type} (idx : α → Nat) (ps : List α) (acc : BitVec 16) (k : Nat) :
    (ps.foldl (fun v p => v ||| 1#16 <<< idx p) acc).getLsbD k =
      (acc.getLsbD k || (decide (k < 16) && ps.any fun p => idx p == k)) := by
  induction ps generalizing acc with
  | nil => simp
  | cons p ps ih =>
    rw [List.foldl_cons, ih, BitVec.getLsbD_or, BitVec.getLsbD_shiftLeft, List.any_cons]
    by_cases hk : k < 16
    · by_cases hp : idx p = k
      · subst hp; simp [hk]
      · have hb : (idx p == k) = false := by simpa using hp
        have : (1#16).getLsbD (k - idx p) = (decide (k - idx p = 0)) := by
          simp [BitVec.getLsbD_one]
        simp only [this, hb, hk, decide_true, Bool.true_and, Bool.false_or, Bool.or_assoc]
        by_cases hlt : k < idx p
        · simp [hlt]
        · have : ¬ k - idx p = 0 := by omega
          simp [this]
    · simp [hk]

theorem Figure.rotate_getLsbD (f : Figure) (k : Nat) :
    f.rotate.data.getLsbD k = (decide (k < 16) && f.pixels.any fun p => rotatedIndex f.width f.height p == k) := by
  simp only [Figure.rotate]
  rw [getLsbD_foldl_bits]; simp

end Sys2Proof
end

