-- ==== Sys2Proof/Laws/Memory.lean ====
section
/-! SUPPORT. The sparse memory: what a write and a fill read back as, and that both keep the canonical form. -/

namespace Sys2Proof.Machine

variable {α : Type}

/-- The addresses of the list rise strictly. -/
abbrev Memory.rising (m : Memory α) : Prop := m.Pairwise (fun e e' => e.1 < e'.1)

@[simp] theorem Memory.read_nil (d : α) (a : Nat) : Memory.read d [] a = d := rfl

theorem Memory.read_cons (d : α) (e : Nat × α) (m : Memory α) (a : Nat) :
    Memory.read d (e :: m) a = if a = e.1 then e.2 else Memory.read d m a := rfl

theorem Memory.read_of_not_listed {d : α} {m : Memory α} {a : Nat} (h : ∀ e ∈ m, e.1 ≠ a) : Memory.read d m a = d := by
  induction m with
  | nil => rfl
  | cons e rest ih =>
    rw [Memory.read_cons, if_neg (fun ha => h e (by simp) ha.symm), ih fun x hx => h x (by simp [hx])]

/-- A listed pair is what its address reads, in a memory of rising addresses. -/
theorem Memory.read_of_mem {d : α} {m : Memory α} (hm : Memory.rising m) {e : Nat × α} (he : e ∈ m) :
    Memory.read d m e.1 = e.2 := by
  induction m with
  | nil => simp at he
  | cons e' rest ih =>
    rw [Memory.rising, List.pairwise_cons] at hm
    rcases List.mem_cons.1 he with rfl | he
    · simp [Memory.read_cons]
    · have := hm.1 e he
      rw [Memory.read_cons, if_neg (by omega), ih hm.2 he]

/-- What a read gives is either an entry or the default of an unlisted address. -/
theorem Memory.read_cases (d : α) (m : Memory α) (a : Nat) :
    (a, Memory.read d m a) ∈ m ∨ (Memory.read d m a = d ∧ ∀ e ∈ m, e.1 ≠ a) := by
  induction m with
  | nil => exact .inr ⟨rfl, by simp⟩
  | cons e rest ih =>
    obtain ⟨k, v⟩ := e
    by_cases h : a = k
    · subst h; simp [Memory.read_cons]
    · rw [Memory.read_cons, if_neg h]
      rcases ih with ih | ⟨ih, hn⟩
      · exact .inl (by simp [ih])
      · refine .inr ⟨ih, ?_⟩
        intro e he
        rcases List.mem_cons.1 he with rfl | he
        · exact fun hh => h hh.symm
        · exact hn e he

variable [DecidableEq α]

theorem Memory.wf_iff {d : α} {bound : Nat} {m : Memory α} :
    Memory.wf d bound m = true ↔ Memory.rising m ∧ ∀ e ∈ m, e.1 < bound ∧ e.2 ≠ d := by
  simp [Memory.wf, Memory.rising, List.all_eq_true]

/-- Reading another address after a write gives what it gave before. -/
theorem Memory.read_write_ne (d : α) (m : Memory α) (a : Nat) (v : α) {b : Nat} (h : b ≠ a) :
    Memory.read d (Memory.write d m a v) b = Memory.read d m b := by
  induction m with
  | nil => by_cases hv : v = d <;> simp [Memory.write, hv, Memory.read_cons, h]
  | cons e rest ih =>
    simp only [Memory.write]
    split
    · split <;> simp [Memory.read_cons, h]
    · split
      · rename_i _ ha
        split <;> simp [Memory.read_cons, ← ha, h]
      · simp [Memory.read_cons, ih]

/-- Reading the address just written gives the value, in a memory of rising addresses. -/
theorem Memory.read_write_same (d : α) (m : Memory α) (a : Nat) (v : α) (hm : Memory.rising m) :
    Memory.read d (Memory.write d m a v) a = v := by
  induction m with
  | nil => by_cases hv : v = d <;> simp [Memory.write, hv, Memory.read_cons]
  | cons e rest ih =>
    rw [Memory.rising, List.pairwise_cons] at hm
    simp only [Memory.write]
    split
    · rename_i ha
      split
      · rename_i hv
        rw [hv]
        refine Memory.read_of_not_listed fun x hx => ?_
        rcases List.mem_cons.1 hx with rfl | hx
        · omega
        · have := hm.1 x hx; omega
      · simp [Memory.read_cons]
    · split
      · rename_i _ ha
        split
        · rename_i hv
          rw [hv]
          refine Memory.read_of_not_listed fun x hx => ?_
          have := hm.1 x hx; omega
        · simp [Memory.read_cons]
      · rename_i h1 h2
        rw [Memory.read_cons, if_neg h2, ih hm.2]

theorem Memory.read_write (d : α) (m : Memory α) (a : Nat) (v : α) (hm : Memory.rising m) (b : Nat) :
    Memory.read d (Memory.write d m a v) b = if b = a then v else Memory.read d m b := by
  split
  · subst b; exact Memory.read_write_same d m a v hm
  · exact Memory.read_write_ne d m a v ‹_›

theorem Memory.mem_write {d : α} {m : Memory α} {a : Nat} {v : α} {e : Nat × α} (h : e ∈ Memory.write d m a v) :
    (e = (a, v) ∧ v ≠ d) ∨ e ∈ m := by
  induction m with
  | nil =>
    by_cases hv : v = d
    · simp [Memory.write, hv] at h
    · simp [Memory.write, hv] at h; exact .inl ⟨h, hv⟩
  | cons e' rest ih =>
    simp only [Memory.write] at h
    split at h
    · split at h
      · exact .inr h
      · rcases List.mem_cons.1 h with rfl | h
        · exact .inl ⟨rfl, ‹_›⟩
        · exact .inr h
    · split at h
      · split at h
        · exact .inr (by simp [h])
        · rcases List.mem_cons.1 h with rfl | h
          · exact .inl ⟨rfl, ‹_›⟩
          · exact .inr (by simp [h])
      · rcases List.mem_cons.1 h with rfl | h
        · exact .inr (by simp)
        · rcases ih h with h | h
          · exact .inl h
          · exact .inr (by simp [h])

theorem Memory.rising_write {d : α} {m : Memory α} (a : Nat) (v : α) (hm : Memory.rising m) :
    Memory.rising (Memory.write d m a v) := by
  induction m with
  | nil => by_cases hv : v = d <;> simp [Memory.write, hv, Memory.rising]
  | cons e rest ih =>
    have hm' := hm
    rw [Memory.rising, List.pairwise_cons] at hm
    simp only [Memory.write]
    split
    · rename_i ha
      split
      · exact hm'
      · refine List.pairwise_cons.2 ⟨fun x hx => ?_, hm'⟩
        rcases List.mem_cons.1 hx with rfl | hx
        · exact ha
        · exact Nat.lt_trans ha (hm.1 x hx)
    · split
      · rename_i _ ha
        split
        · exact hm.2
        · exact List.pairwise_cons.2 ⟨fun x hx => by rw [ha]; exact hm.1 x hx, hm.2⟩
      · refine List.pairwise_cons.2 ⟨fun x hx => ?_, ih hm.2⟩
        rcases Memory.mem_write hx with ⟨rfl, _⟩ | hx
        · simp only; omega
        · exact hm.1 x hx

/-- A write inside the bound keeps the canonical form. -/
theorem Memory.wf_write {d : α} {bound : Nat} {m : Memory α} {a : Nat} (v : α) (ha : a < bound)
    (hm : Memory.wf d bound m = true) : Memory.wf d bound (Memory.write d m a v) = true := by
  rw [Memory.wf_iff] at hm ⊢
  refine ⟨Memory.rising_write a v hm.1, fun e he => ?_⟩
  rcases Memory.mem_write he with ⟨rfl, hv⟩ | he
  · exact ⟨ha, hv⟩
  · exact hm.2 e he

/-! ### Filling a range -/

/-- The entries a fill puts into its range. -/
abbrev Memory.fresh (d : α) (lo hi : Nat) (f : Nat → α) : Memory α :=
  (List.range' lo (hi - lo)).filterMap fun a => if f a = d then none else some (a, f a)

theorem Memory.mem_fresh {d : α} {lo hi : Nat} {f : Nat → α} {e : Nat × α} :
    e ∈ Memory.fresh d lo hi f ↔ lo ≤ e.1 ∧ e.1 < hi ∧ e.2 = f e.1 ∧ e.2 ≠ d := by
  obtain ⟨k, v⟩ := e
  simp only [Memory.fresh, List.mem_filterMap, List.mem_range'_1]
  constructor
  · rintro ⟨a, ⟨h1, h2⟩, h3⟩
    split at h3
    · cases h3
    · cases h3; exact ⟨h1, by omega, rfl, ‹_›⟩
  · rintro ⟨h1, h2, h3, h4⟩
    refine ⟨k, ⟨h1, by omega⟩, ?_⟩
    rw [if_neg (h3 ▸ h4), h3]

theorem Memory.rising_fresh (d : α) (lo hi : Nat) (f : Nat → α) : Memory.rising (Memory.fresh d lo hi f) := by
  refine List.Pairwise.filterMap (R := (· < ·)) _ ?_ List.pairwise_lt_range'
  intro a a' haa b hb b' hb'
  split at hb <;> simp at hb
  split at hb' <;> simp at hb'
  subst hb hb'
  exact haa

theorem Memory.mem_fill {d : α} {m : Memory α} {lo hi : Nat} {f : Nat → α} {e : Nat × α} :
    e ∈ Memory.fill d m lo hi f ↔
      (e ∈ m ∧ (e.1 < lo ∨ (lo ≤ e.1 ∧ hi ≤ e.1))) ∨ (lo ≤ e.1 ∧ e.1 < hi ∧ e.2 = f e.1 ∧ e.2 ≠ d) := by
  have := Memory.mem_fresh (d := d) (lo := lo) (hi := hi) (f := f) (e := e)
  simp only [Memory.fresh] at this
  simp only [Memory.fill, List.mem_append, List.mem_filter, this, decide_eq_true_eq, Bool.and_eq_true]
  tauto

/-- A fill inside the bound keeps the canonical form. -/
theorem Memory.wf_fill {d : α} {bound : Nat} {m : Memory α} {lo hi : Nat} (f : Nat → α) (hb : hi ≤ bound)
    (hm : Memory.wf d bound m = true) : Memory.wf d bound (Memory.fill d m lo hi f) = true := by
  rw [Memory.wf_iff] at hm ⊢
  constructor
  · refine List.pairwise_append.2 ⟨List.pairwise_append.2 ⟨hm.1.filter _, Memory.rising_fresh d lo hi f, ?_⟩,
      hm.1.filter _, ?_⟩
    · intro e he e' he'
      have h := Memory.mem_fresh.1 he'
      simp only [List.mem_filter, decide_eq_true_eq] at he
      omega
    · intro e he e' he'
      simp only [List.mem_filter, decide_eq_true_eq, Bool.and_eq_true] at he'
      rcases List.mem_append.1 he with he | he
      · simp only [List.mem_filter, decide_eq_true_eq] at he; omega
      · have h := Memory.mem_fresh.1 he; omega
  · intro e he
    rcases Memory.mem_fill.1 he with ⟨h, _⟩ | ⟨_, h, _, h'⟩
    · exact hm.2 e h
    · exact ⟨by omega, h'⟩

/-- What a fill reads back as. -/
theorem Memory.read_fill {d : α} {bound : Nat} {m : Memory α} (lo hi : Nat) (f : Nat → α) (hb : hi ≤ bound)
    (hm : Memory.wf d bound m = true) (a : Nat) :
    Memory.read d (Memory.fill d m lo hi f) a = if lo ≤ a ∧ a < hi then f a else Memory.read d m a := by
  have hw := Memory.wf_iff.1 (Memory.wf_fill (lo := lo) f hb hm)
  have hm' := Memory.wf_iff.1 hm
  have hmem : ∀ {v : α}, (a, v) ∈ Memory.fill d m lo hi f → Memory.read d (Memory.fill d m lo hi f) a = v :=
    fun h => Memory.read_of_mem hw.1 h
  split
  · rename_i h
    by_cases hv : f a = d
    · rw [hv]
      refine Memory.read_of_not_listed fun e he hea => ?_
      rcases Memory.mem_fill.1 he with ⟨_, h'⟩ | ⟨_, _, h', hn⟩
      · omega
      · rw [hea, hv] at h'; exact hn h'
    · exact hmem (Memory.mem_fill.2 (.inr ⟨h.1, h.2, rfl, hv⟩))
  · rename_i h
    rcases Memory.read_cases d m a with hr | ⟨hr, hn⟩
    · exact hmem (Memory.mem_fill.2 (.inl ⟨hr, by omega⟩))
    · rw [hr]
      refine Memory.read_of_not_listed fun e he hea => ?_
      rcases Memory.mem_fill.1 he with ⟨h', _⟩ | ⟨h1, h2, _, _⟩
      · exact hn e h' hea
      · omega

/-- Two memories in canonical form that read the same are the same list. -/
theorem Memory.eq_of_read_eq {d : α} {bound : Nat} {m m' : Memory α} (hm : Memory.wf d bound m = true)
    (hm' : Memory.wf d bound m' = true) (h : ∀ a, Memory.read d m a = Memory.read d m' a) : m = m' := by
  have h1 := Memory.wf_iff.1 hm
  have h2 := Memory.wf_iff.1 hm'
  have key : ∀ {n n' : Memory α}, Memory.rising n → (∀ e ∈ n, e.1 < bound ∧ e.2 ≠ d) → Memory.rising n' →
      (∀ a, Memory.read d n a = Memory.read d n' a) → ∀ e ∈ n, e ∈ n' := by
    intro n n' hn hd hn' hr e he
    have hread := Memory.read_of_mem (d := d) hn he
    rw [hr] at hread
    rcases Memory.read_cases d n' e.1 with h | ⟨h, _⟩
    · rw [hread] at h; exact h
    · exact absurd (hread ▸ h) (hd e he).2
  have hp : m.Perm m' := by
    refine (List.perm_ext_iff_of_nodup ?_ ?_).2 fun e =>
      ⟨key h1.1 h1.2 h2.1 h e, key h2.1 h2.2 h1.1 (fun a => (h a).symm) e⟩
    · exact h1.1.imp fun hlt heq => by rw [heq] at hlt; exact Nat.lt_irrefl _ hlt
    · exact h2.1.imp fun hlt heq => by rw [heq] at hlt; exact Nat.lt_irrefl _ hlt
  exact hp.eq_of_pairwise (fun a b _ _ hab hba => absurd hab (Nat.lt_asymm hba)) h1.1 h2.1

end Sys2Proof.Machine
end

