-- ==== Sys2Proof/Laws/State.lean ====
section
/-! SUPPORT. One lemma per field per update of the state: what an update writes and, field by field, what it leaves alone. -/

namespace Sys2Proof.Machine

/-! ### writeDot -/

@[simp] theorem writeDot_dots (r : RegNo) (v : Dot) (s : State) : (writeDot r v s).dots = s.dots.set r.toNat v r.isLt := rfl
@[simp] theorem writeDot_figs (r : RegNo) (v : Dot) (s : State) : (writeDot r v s).figs = s.figs := rfl
@[simp] theorem writeDot_cells (r : RegNo) (v : Dot) (s : State) : (writeDot r v s).cells = s.cells := rfl
@[simp] theorem writeDot_leds (r : RegNo) (v : Dot) (s : State) : (writeDot r v s).leds = s.leds := rfl
@[simp] theorem writeDot_prng (r : RegNo) (v : Dot) (s : State) : (writeDot r v s).prng = s.prng := rfl
@[simp] theorem writeDot_caps (r : RegNo) (v : Dot) (s : State) : (writeDot r v s).caps = s.caps := rfl
@[simp] theorem writeDot_counts (r : RegNo) (v : Dot) (s : State) : (writeDot r v s).counts = s.counts := rfl
@[simp] theorem writeDot_ents (r : RegNo) (v : Dot) (s : State) : (writeDot r v s).ents = s.ents := rfl
@[simp] theorem writeDot_fault (r : RegNo) (v : Dot) (s : State) : (writeDot r v s).fault = s.fault := rfl
@[simp] theorem writeDot_fcmd (r : RegNo) (v : Dot) (s : State) : (writeDot r v s).fcmd = s.fcmd := rfl
@[simp] theorem writeDot_asm (r : RegNo) (v : Dot) (s : State) : (writeDot r v s).asm = s.asm := rfl
@[simp] theorem writeDot_walk (r : RegNo) (v : Dot) (s : State) : (writeDot r v s).walk = s.walk := rfl
@[simp] theorem writeDot_cmdPort (r : RegNo) (v : Dot) (s : State) : (writeDot r v s).cmdPort = s.cmdPort := rfl
@[simp] theorem writeDot_responses (r : RegNo) (v : Dot) (s : State) : (writeDot r v s).responses = s.responses := rfl
@[simp] theorem writeDot_paintAnswers (r : RegNo) (v : Dot) (s : State) : (writeDot r v s).paintAnswers = s.paintAnswers := rfl
@[simp] theorem writeDot_paintRequests (r : RegNo) (v : Dot) (s : State) : (writeDot r v s).paintRequests = s.paintRequests := rfl

/-! ### writeFig -/

@[simp] theorem writeFig_dots (r : RegNo) (v : Figure) (s : State) : (writeFig r v s).dots = s.dots := rfl
@[simp] theorem writeFig_figs (r : RegNo) (v : Figure) (s : State) : (writeFig r v s).figs = s.figs.set r.toNat v r.isLt := rfl
@[simp] theorem writeFig_cells (r : RegNo) (v : Figure) (s : State) : (writeFig r v s).cells = s.cells := rfl
@[simp] theorem writeFig_leds (r : RegNo) (v : Figure) (s : State) : (writeFig r v s).leds = s.leds := rfl
@[simp] theorem writeFig_prng (r : RegNo) (v : Figure) (s : State) : (writeFig r v s).prng = s.prng := rfl
@[simp] theorem writeFig_caps (r : RegNo) (v : Figure) (s : State) : (writeFig r v s).caps = s.caps := rfl
@[simp] theorem writeFig_counts (r : RegNo) (v : Figure) (s : State) : (writeFig r v s).counts = s.counts := rfl
@[simp] theorem writeFig_ents (r : RegNo) (v : Figure) (s : State) : (writeFig r v s).ents = s.ents := rfl
@[simp] theorem writeFig_fault (r : RegNo) (v : Figure) (s : State) : (writeFig r v s).fault = s.fault := rfl
@[simp] theorem writeFig_fcmd (r : RegNo) (v : Figure) (s : State) : (writeFig r v s).fcmd = s.fcmd := rfl
@[simp] theorem writeFig_asm (r : RegNo) (v : Figure) (s : State) : (writeFig r v s).asm = s.asm := rfl
@[simp] theorem writeFig_walk (r : RegNo) (v : Figure) (s : State) : (writeFig r v s).walk = s.walk := rfl
@[simp] theorem writeFig_cmdPort (r : RegNo) (v : Figure) (s : State) : (writeFig r v s).cmdPort = s.cmdPort := rfl
@[simp] theorem writeFig_responses (r : RegNo) (v : Figure) (s : State) : (writeFig r v s).responses = s.responses := rfl
@[simp] theorem writeFig_paintAnswers (r : RegNo) (v : Figure) (s : State) : (writeFig r v s).paintAnswers = s.paintAnswers := rfl
@[simp] theorem writeFig_paintRequests (r : RegNo) (v : Figure) (s : State) : (writeFig r v s).paintRequests = s.paintRequests := rfl

/-! ### writeCap -/

@[simp] theorem writeCap_dots (a : RegNo) (n : Nat) (s : State) : (writeCap a n s).dots = s.dots := rfl
@[simp] theorem writeCap_figs (a : RegNo) (n : Nat) (s : State) : (writeCap a n s).figs = s.figs := rfl
@[simp] theorem writeCap_cells (a : RegNo) (n : Nat) (s : State) : (writeCap a n s).cells = s.cells := rfl
@[simp] theorem writeCap_leds (a : RegNo) (n : Nat) (s : State) : (writeCap a n s).leds = s.leds := rfl
@[simp] theorem writeCap_prng (a : RegNo) (n : Nat) (s : State) : (writeCap a n s).prng = s.prng := rfl
@[simp] theorem writeCap_caps (a : RegNo) (n : Nat) (s : State) : (writeCap a n s).caps = s.caps.set a.toNat n a.isLt := rfl
@[simp] theorem writeCap_counts (a : RegNo) (n : Nat) (s : State) : (writeCap a n s).counts = s.counts := rfl
@[simp] theorem writeCap_ents (a : RegNo) (n : Nat) (s : State) : (writeCap a n s).ents = s.ents := rfl
@[simp] theorem writeCap_fault (a : RegNo) (n : Nat) (s : State) : (writeCap a n s).fault = s.fault := rfl
@[simp] theorem writeCap_fcmd (a : RegNo) (n : Nat) (s : State) : (writeCap a n s).fcmd = s.fcmd := rfl
@[simp] theorem writeCap_asm (a : RegNo) (n : Nat) (s : State) : (writeCap a n s).asm = s.asm := rfl
@[simp] theorem writeCap_walk (a : RegNo) (n : Nat) (s : State) : (writeCap a n s).walk = s.walk := rfl
@[simp] theorem writeCap_cmdPort (a : RegNo) (n : Nat) (s : State) : (writeCap a n s).cmdPort = s.cmdPort := rfl
@[simp] theorem writeCap_responses (a : RegNo) (n : Nat) (s : State) : (writeCap a n s).responses = s.responses := rfl
@[simp] theorem writeCap_paintAnswers (a : RegNo) (n : Nat) (s : State) : (writeCap a n s).paintAnswers = s.paintAnswers := rfl
@[simp] theorem writeCap_paintRequests (a : RegNo) (n : Nat) (s : State) : (writeCap a n s).paintRequests = s.paintRequests := rfl

/-! ### writeCount -/

@[simp] theorem writeCount_dots (a : RegNo) (n : Nat) (s : State) : (writeCount a n s).dots = s.dots := rfl
@[simp] theorem writeCount_figs (a : RegNo) (n : Nat) (s : State) : (writeCount a n s).figs = s.figs := rfl
@[simp] theorem writeCount_cells (a : RegNo) (n : Nat) (s : State) : (writeCount a n s).cells = s.cells := rfl
@[simp] theorem writeCount_leds (a : RegNo) (n : Nat) (s : State) : (writeCount a n s).leds = s.leds := rfl
@[simp] theorem writeCount_prng (a : RegNo) (n : Nat) (s : State) : (writeCount a n s).prng = s.prng := rfl
@[simp] theorem writeCount_caps (a : RegNo) (n : Nat) (s : State) : (writeCount a n s).caps = s.caps := rfl
@[simp] theorem writeCount_counts (a : RegNo) (n : Nat) (s : State) : (writeCount a n s).counts = s.counts.set a.toNat n a.isLt := rfl
@[simp] theorem writeCount_ents (a : RegNo) (n : Nat) (s : State) : (writeCount a n s).ents = s.ents := rfl
@[simp] theorem writeCount_fault (a : RegNo) (n : Nat) (s : State) : (writeCount a n s).fault = s.fault := rfl
@[simp] theorem writeCount_fcmd (a : RegNo) (n : Nat) (s : State) : (writeCount a n s).fcmd = s.fcmd := rfl
@[simp] theorem writeCount_asm (a : RegNo) (n : Nat) (s : State) : (writeCount a n s).asm = s.asm := rfl
@[simp] theorem writeCount_walk (a : RegNo) (n : Nat) (s : State) : (writeCount a n s).walk = s.walk := rfl
@[simp] theorem writeCount_cmdPort (a : RegNo) (n : Nat) (s : State) : (writeCount a n s).cmdPort = s.cmdPort := rfl
@[simp] theorem writeCount_responses (a : RegNo) (n : Nat) (s : State) : (writeCount a n s).responses = s.responses := rfl
@[simp] theorem writeCount_paintAnswers (a : RegNo) (n : Nat) (s : State) : (writeCount a n s).paintAnswers = s.paintAnswers := rfl
@[simp] theorem writeCount_paintRequests (a : RegNo) (n : Nat) (s : State) : (writeCount a n s).paintRequests = s.paintRequests := rfl

/-! ### writePrng -/

@[simp] theorem writePrng_dots (v : Word) (s : State) : (writePrng v s).dots = s.dots := rfl
@[simp] theorem writePrng_figs (v : Word) (s : State) : (writePrng v s).figs = s.figs := rfl
@[simp] theorem writePrng_cells (v : Word) (s : State) : (writePrng v s).cells = s.cells := rfl
@[simp] theorem writePrng_leds (v : Word) (s : State) : (writePrng v s).leds = s.leds := rfl
@[simp] theorem writePrng_prng (v : Word) (s : State) : (writePrng v s).prng = v := rfl
@[simp] theorem writePrng_caps (v : Word) (s : State) : (writePrng v s).caps = s.caps := rfl
@[simp] theorem writePrng_counts (v : Word) (s : State) : (writePrng v s).counts = s.counts := rfl
@[simp] theorem writePrng_ents (v : Word) (s : State) : (writePrng v s).ents = s.ents := rfl
@[simp] theorem writePrng_fault (v : Word) (s : State) : (writePrng v s).fault = s.fault := rfl
@[simp] theorem writePrng_fcmd (v : Word) (s : State) : (writePrng v s).fcmd = s.fcmd := rfl
@[simp] theorem writePrng_asm (v : Word) (s : State) : (writePrng v s).asm = s.asm := rfl
@[simp] theorem writePrng_walk (v : Word) (s : State) : (writePrng v s).walk = s.walk := rfl
@[simp] theorem writePrng_cmdPort (v : Word) (s : State) : (writePrng v s).cmdPort = s.cmdPort := rfl
@[simp] theorem writePrng_responses (v : Word) (s : State) : (writePrng v s).responses = s.responses := rfl
@[simp] theorem writePrng_paintAnswers (v : Word) (s : State) : (writePrng v s).paintAnswers = s.paintAnswers := rfl
@[simp] theorem writePrng_paintRequests (v : Word) (s : State) : (writePrng v s).paintRequests = s.paintRequests := rfl

/-! ### writeEnt -/

@[simp] theorem writeEnt_dots (a : RegNo) (k : Nat) (v : Dot) (s : State) : (writeEnt a k v s).dots = s.dots := rfl
@[simp] theorem writeEnt_figs (a : RegNo) (k : Nat) (v : Dot) (s : State) : (writeEnt a k v s).figs = s.figs := rfl
@[simp] theorem writeEnt_cells (a : RegNo) (k : Nat) (v : Dot) (s : State) : (writeEnt a k v s).cells = s.cells := rfl
@[simp] theorem writeEnt_leds (a : RegNo) (k : Nat) (v : Dot) (s : State) : (writeEnt a k v s).leds = s.leds := rfl
@[simp] theorem writeEnt_prng (a : RegNo) (k : Nat) (v : Dot) (s : State) : (writeEnt a k v s).prng = s.prng := rfl
@[simp] theorem writeEnt_caps (a : RegNo) (k : Nat) (v : Dot) (s : State) : (writeEnt a k v s).caps = s.caps := rfl
@[simp] theorem writeEnt_counts (a : RegNo) (k : Nat) (v : Dot) (s : State) : (writeEnt a k v s).counts = s.counts := rfl
@[simp] theorem writeEnt_ents (a : RegNo) (k : Nat) (v : Dot) (s : State) : (writeEnt a k v s).ents = Memory.write ⟨0, 0⟩ s.ents (entAddr a k) v := rfl
@[simp] theorem writeEnt_fault (a : RegNo) (k : Nat) (v : Dot) (s : State) : (writeEnt a k v s).fault = s.fault := rfl
@[simp] theorem writeEnt_fcmd (a : RegNo) (k : Nat) (v : Dot) (s : State) : (writeEnt a k v s).fcmd = s.fcmd := rfl
@[simp] theorem writeEnt_asm (a : RegNo) (k : Nat) (v : Dot) (s : State) : (writeEnt a k v s).asm = s.asm := rfl
@[simp] theorem writeEnt_walk (a : RegNo) (k : Nat) (v : Dot) (s : State) : (writeEnt a k v s).walk = s.walk := rfl
@[simp] theorem writeEnt_cmdPort (a : RegNo) (k : Nat) (v : Dot) (s : State) : (writeEnt a k v s).cmdPort = s.cmdPort := rfl
@[simp] theorem writeEnt_responses (a : RegNo) (k : Nat) (v : Dot) (s : State) : (writeEnt a k v s).responses = s.responses := rfl
@[simp] theorem writeEnt_paintAnswers (a : RegNo) (k : Nat) (v : Dot) (s : State) : (writeEnt a k v s).paintAnswers = s.paintAnswers := rfl
@[simp] theorem writeEnt_paintRequests (a : RegNo) (k : Nat) (v : Dot) (s : State) : (writeEnt a k v s).paintRequests = s.paintRequests := rfl

/-! ### cellWrite -/

@[simp] theorem cellWrite_dots (b : RegNo) (x y : Int) (v : Byte) (s : State) : (cellWrite b x y v s).dots = s.dots := by unfold cellWrite; split <;> rfl
@[simp] theorem cellWrite_figs (b : RegNo) (x y : Int) (v : Byte) (s : State) : (cellWrite b x y v s).figs = s.figs := by unfold cellWrite; split <;> rfl
@[simp] theorem cellWrite_leds (b : RegNo) (x y : Int) (v : Byte) (s : State) : (cellWrite b x y v s).leds = s.leds := by unfold cellWrite; split <;> rfl
@[simp] theorem cellWrite_prng (b : RegNo) (x y : Int) (v : Byte) (s : State) : (cellWrite b x y v s).prng = s.prng := by unfold cellWrite; split <;> rfl
@[simp] theorem cellWrite_caps (b : RegNo) (x y : Int) (v : Byte) (s : State) : (cellWrite b x y v s).caps = s.caps := by unfold cellWrite; split <;> rfl
@[simp] theorem cellWrite_counts (b : RegNo) (x y : Int) (v : Byte) (s : State) : (cellWrite b x y v s).counts = s.counts := by unfold cellWrite; split <;> rfl
@[simp] theorem cellWrite_ents (b : RegNo) (x y : Int) (v : Byte) (s : State) : (cellWrite b x y v s).ents = s.ents := by unfold cellWrite; split <;> rfl
@[simp] theorem cellWrite_fault (b : RegNo) (x y : Int) (v : Byte) (s : State) : (cellWrite b x y v s).fault = s.fault := by unfold cellWrite; split <;> rfl
@[simp] theorem cellWrite_fcmd (b : RegNo) (x y : Int) (v : Byte) (s : State) : (cellWrite b x y v s).fcmd = s.fcmd := by unfold cellWrite; split <;> rfl
@[simp] theorem cellWrite_asm (b : RegNo) (x y : Int) (v : Byte) (s : State) : (cellWrite b x y v s).asm = s.asm := by unfold cellWrite; split <;> rfl
@[simp] theorem cellWrite_walk (b : RegNo) (x y : Int) (v : Byte) (s : State) : (cellWrite b x y v s).walk = s.walk := by unfold cellWrite; split <;> rfl
@[simp] theorem cellWrite_cmdPort (b : RegNo) (x y : Int) (v : Byte) (s : State) : (cellWrite b x y v s).cmdPort = s.cmdPort := by unfold cellWrite; split <;> rfl
@[simp] theorem cellWrite_responses (b : RegNo) (x y : Int) (v : Byte) (s : State) : (cellWrite b x y v s).responses = s.responses := by unfold cellWrite; split <;> rfl
@[simp] theorem cellWrite_paintAnswers (b : RegNo) (x y : Int) (v : Byte) (s : State) : (cellWrite b x y v s).paintAnswers = s.paintAnswers := by unfold cellWrite; split <;> rfl
@[simp] theorem cellWrite_paintRequests (b : RegNo) (x y : Int) (v : Byte) (s : State) : (cellWrite b x y v s).paintRequests = s.paintRequests := by unfold cellWrite; split <;> rfl

/-! ### cellFillRows -/

@[simp] theorem cellFillRows_dots (b : RegNo) (y0 y1 : Nat) (f : Nat → Nat → Byte) (s : State) : (cellFillRows b y0 y1 f s).dots = s.dots := rfl
@[simp] theorem cellFillRows_figs (b : RegNo) (y0 y1 : Nat) (f : Nat → Nat → Byte) (s : State) : (cellFillRows b y0 y1 f s).figs = s.figs := rfl
@[simp] theorem cellFillRows_cells (b : RegNo) (y0 y1 : Nat) (f : Nat → Nat → Byte) (s : State) : (cellFillRows b y0 y1 f s).cells = Memory.fill 0 s.cells (cellAddr b 0 y0) (cellAddr b 0 y1) fun a => f (a % 8) (a / 8 % 32) := rfl
@[simp] theorem cellFillRows_leds (b : RegNo) (y0 y1 : Nat) (f : Nat → Nat → Byte) (s : State) : (cellFillRows b y0 y1 f s).leds = s.leds := rfl
@[simp] theorem cellFillRows_prng (b : RegNo) (y0 y1 : Nat) (f : Nat → Nat → Byte) (s : State) : (cellFillRows b y0 y1 f s).prng = s.prng := rfl
@[simp] theorem cellFillRows_caps (b : RegNo) (y0 y1 : Nat) (f : Nat → Nat → Byte) (s : State) : (cellFillRows b y0 y1 f s).caps = s.caps := rfl
@[simp] theorem cellFillRows_counts (b : RegNo) (y0 y1 : Nat) (f : Nat → Nat → Byte) (s : State) : (cellFillRows b y0 y1 f s).counts = s.counts := rfl
@[simp] theorem cellFillRows_ents (b : RegNo) (y0 y1 : Nat) (f : Nat → Nat → Byte) (s : State) : (cellFillRows b y0 y1 f s).ents = s.ents := rfl
@[simp] theorem cellFillRows_fault (b : RegNo) (y0 y1 : Nat) (f : Nat → Nat → Byte) (s : State) : (cellFillRows b y0 y1 f s).fault = s.fault := rfl
@[simp] theorem cellFillRows_fcmd (b : RegNo) (y0 y1 : Nat) (f : Nat → Nat → Byte) (s : State) : (cellFillRows b y0 y1 f s).fcmd = s.fcmd := rfl
@[simp] theorem cellFillRows_asm (b : RegNo) (y0 y1 : Nat) (f : Nat → Nat → Byte) (s : State) : (cellFillRows b y0 y1 f s).asm = s.asm := rfl
@[simp] theorem cellFillRows_walk (b : RegNo) (y0 y1 : Nat) (f : Nat → Nat → Byte) (s : State) : (cellFillRows b y0 y1 f s).walk = s.walk := rfl
@[simp] theorem cellFillRows_cmdPort (b : RegNo) (y0 y1 : Nat) (f : Nat → Nat → Byte) (s : State) : (cellFillRows b y0 y1 f s).cmdPort = s.cmdPort := rfl
@[simp] theorem cellFillRows_responses (b : RegNo) (y0 y1 : Nat) (f : Nat → Nat → Byte) (s : State) : (cellFillRows b y0 y1 f s).responses = s.responses := rfl
@[simp] theorem cellFillRows_paintAnswers (b : RegNo) (y0 y1 : Nat) (f : Nat → Nat → Byte) (s : State) : (cellFillRows b y0 y1 f s).paintAnswers = s.paintAnswers := rfl
@[simp] theorem cellFillRows_paintRequests (b : RegNo) (y0 y1 : Nat) (f : Nat → Nat → Byte) (s : State) : (cellFillRows b y0 y1 f s).paintRequests = s.paintRequests := rfl

/-! ### writeLeds -/

@[simp] theorem writeLeds_dots (f : Nat → Rgb) (s : State) : (writeLeds f s).dots = s.dots := rfl
@[simp] theorem writeLeds_figs (f : Nat → Rgb) (s : State) : (writeLeds f s).figs = s.figs := rfl
@[simp] theorem writeLeds_cells (f : Nat → Rgb) (s : State) : (writeLeds f s).cells = s.cells := rfl
@[simp] theorem writeLeds_leds (f : Nat → Rgb) (s : State) : (writeLeds f s).leds = tabulate 256 f := rfl
@[simp] theorem writeLeds_prng (f : Nat → Rgb) (s : State) : (writeLeds f s).prng = s.prng := rfl
@[simp] theorem writeLeds_caps (f : Nat → Rgb) (s : State) : (writeLeds f s).caps = s.caps := rfl
@[simp] theorem writeLeds_counts (f : Nat → Rgb) (s : State) : (writeLeds f s).counts = s.counts := rfl
@[simp] theorem writeLeds_ents (f : Nat → Rgb) (s : State) : (writeLeds f s).ents = s.ents := rfl
@[simp] theorem writeLeds_fault (f : Nat → Rgb) (s : State) : (writeLeds f s).fault = s.fault := rfl
@[simp] theorem writeLeds_fcmd (f : Nat → Rgb) (s : State) : (writeLeds f s).fcmd = s.fcmd := rfl
@[simp] theorem writeLeds_asm (f : Nat → Rgb) (s : State) : (writeLeds f s).asm = s.asm := rfl
@[simp] theorem writeLeds_walk (f : Nat → Rgb) (s : State) : (writeLeds f s).walk = s.walk := rfl
@[simp] theorem writeLeds_cmdPort (f : Nat → Rgb) (s : State) : (writeLeds f s).cmdPort = s.cmdPort := rfl
@[simp] theorem writeLeds_responses (f : Nat → Rgb) (s : State) : (writeLeds f s).responses = s.responses := rfl
@[simp] theorem writeLeds_paintAnswers (f : Nat → Rgb) (s : State) : (writeLeds f s).paintAnswers = s.paintAnswers := rfl
@[simp] theorem writeLeds_paintRequests (f : Nat → Rgb) (s : State) : (writeLeds f s).paintRequests = s.paintRequests := rfl

/-! ### sendResponse -/

@[simp] theorem sendResponse_dots (c : Byte) (v : Value) (s : State) : (sendResponse c v s).dots = s.dots := rfl
@[simp] theorem sendResponse_figs (c : Byte) (v : Value) (s : State) : (sendResponse c v s).figs = s.figs := rfl
@[simp] theorem sendResponse_cells (c : Byte) (v : Value) (s : State) : (sendResponse c v s).cells = s.cells := rfl
@[simp] theorem sendResponse_leds (c : Byte) (v : Value) (s : State) : (sendResponse c v s).leds = s.leds := rfl
@[simp] theorem sendResponse_prng (c : Byte) (v : Value) (s : State) : (sendResponse c v s).prng = s.prng := rfl
@[simp] theorem sendResponse_caps (c : Byte) (v : Value) (s : State) : (sendResponse c v s).caps = s.caps := rfl
@[simp] theorem sendResponse_counts (c : Byte) (v : Value) (s : State) : (sendResponse c v s).counts = s.counts := rfl
@[simp] theorem sendResponse_ents (c : Byte) (v : Value) (s : State) : (sendResponse c v s).ents = s.ents := rfl
@[simp] theorem sendResponse_fault (c : Byte) (v : Value) (s : State) : (sendResponse c v s).fault = s.fault := rfl
@[simp] theorem sendResponse_fcmd (c : Byte) (v : Value) (s : State) : (sendResponse c v s).fcmd = s.fcmd := rfl
@[simp] theorem sendResponse_asm (c : Byte) (v : Value) (s : State) : (sendResponse c v s).asm = s.asm := rfl
@[simp] theorem sendResponse_walk (c : Byte) (v : Value) (s : State) : (sendResponse c v s).walk = s.walk := rfl
@[simp] theorem sendResponse_cmdPort (c : Byte) (v : Value) (s : State) : (sendResponse c v s).cmdPort = s.cmdPort := rfl
@[simp] theorem sendResponse_responses (c : Byte) (v : Value) (s : State) : (sendResponse c v s).responses = s.responses ++ [responseWord c v] := rfl
@[simp] theorem sendResponse_paintAnswers (c : Byte) (v : Value) (s : State) : (sendResponse c v s).paintAnswers = s.paintAnswers := rfl
@[simp] theorem sendResponse_paintRequests (c : Byte) (v : Value) (s : State) : (sendResponse c v s).paintRequests = s.paintRequests := rfl

/-! ### respond -/

@[simp] theorem respond_dots (v : Value) (s : State) : (respond v s).dots = s.dots := rfl
@[simp] theorem respond_figs (v : Value) (s : State) : (respond v s).figs = s.figs := rfl
@[simp] theorem respond_cells (v : Value) (s : State) : (respond v s).cells = s.cells := rfl
@[simp] theorem respond_leds (v : Value) (s : State) : (respond v s).leds = s.leds := rfl
@[simp] theorem respond_prng (v : Value) (s : State) : (respond v s).prng = s.prng := rfl
@[simp] theorem respond_caps (v : Value) (s : State) : (respond v s).caps = s.caps := rfl
@[simp] theorem respond_counts (v : Value) (s : State) : (respond v s).counts = s.counts := rfl
@[simp] theorem respond_ents (v : Value) (s : State) : (respond v s).ents = s.ents := rfl
@[simp] theorem respond_fault (v : Value) (s : State) : (respond v s).fault = s.fault := rfl
@[simp] theorem respond_fcmd (v : Value) (s : State) : (respond v s).fcmd = s.fcmd := rfl
@[simp] theorem respond_asm (v : Value) (s : State) : (respond v s).asm = s.asm := rfl
@[simp] theorem respond_walk (v : Value) (s : State) : (respond v s).walk = s.walk := rfl
@[simp] theorem respond_cmdPort (v : Value) (s : State) : (respond v s).cmdPort = s.cmdPort := rfl
@[simp] theorem respond_responses (v : Value) (s : State) : (respond v s).responses = s.responses ++ [responseWord 0x00 v] := rfl
@[simp] theorem respond_paintAnswers (v : Value) (s : State) : (respond v s).paintAnswers = s.paintAnswers := rfl
@[simp] theorem respond_paintRequests (v : Value) (s : State) : (respond v s).paintRequests = s.paintRequests := rfl

/-! ### takeFault -/

@[simp] theorem takeFault_dots (c : FaultCause) (w : Word) (s : State) : (takeFault c w s).dots = s.dots := rfl
@[simp] theorem takeFault_figs (c : FaultCause) (w : Word) (s : State) : (takeFault c w s).figs = s.figs := rfl
@[simp] theorem takeFault_cells (c : FaultCause) (w : Word) (s : State) : (takeFault c w s).cells = s.cells := rfl
@[simp] theorem takeFault_leds (c : FaultCause) (w : Word) (s : State) : (takeFault c w s).leds = s.leds := rfl
@[simp] theorem takeFault_prng (c : FaultCause) (w : Word) (s : State) : (takeFault c w s).prng = s.prng := rfl
@[simp] theorem takeFault_caps (c : FaultCause) (w : Word) (s : State) : (takeFault c w s).caps = s.caps := rfl
@[simp] theorem takeFault_counts (c : FaultCause) (w : Word) (s : State) : (takeFault c w s).counts = s.counts := rfl
@[simp] theorem takeFault_ents (c : FaultCause) (w : Word) (s : State) : (takeFault c w s).ents = s.ents := rfl
@[simp] theorem takeFault_fault (c : FaultCause) (w : Word) (s : State) : (takeFault c w s).fault = c.code := rfl
@[simp] theorem takeFault_fcmd (c : FaultCause) (w : Word) (s : State) : (takeFault c w s).fcmd = w := rfl
@[simp] theorem takeFault_asm (c : FaultCause) (w : Word) (s : State) : (takeFault c w s).asm = s.asm := rfl
@[simp] theorem takeFault_walk (c : FaultCause) (w : Word) (s : State) : (takeFault c w s).walk = s.walk := rfl
@[simp] theorem takeFault_cmdPort (c : FaultCause) (w : Word) (s : State) : (takeFault c w s).cmdPort = s.cmdPort := rfl
@[simp] theorem takeFault_responses (c : FaultCause) (w : Word) (s : State) : (takeFault c w s).responses = s.responses ++ [responseWord c.code 0] := rfl
@[simp] theorem takeFault_paintAnswers (c : FaultCause) (w : Word) (s : State) : (takeFault c w s).paintAnswers = s.paintAnswers := rfl
@[simp] theorem takeFault_paintRequests (c : FaultCause) (w : Word) (s : State) : (takeFault c w s).paintRequests = s.paintRequests := rfl

/-! ### refuse -/

@[simp] theorem refuse_dots (s : State) : (refuse s).dots = s.dots := rfl
@[simp] theorem refuse_figs (s : State) : (refuse s).figs = s.figs := rfl
@[simp] theorem refuse_cells (s : State) : (refuse s).cells = s.cells := rfl
@[simp] theorem refuse_leds (s : State) : (refuse s).leds = s.leds := rfl
@[simp] theorem refuse_prng (s : State) : (refuse s).prng = s.prng := rfl
@[simp] theorem refuse_caps (s : State) : (refuse s).caps = s.caps := rfl
@[simp] theorem refuse_counts (s : State) : (refuse s).counts = s.counts := rfl
@[simp] theorem refuse_ents (s : State) : (refuse s).ents = s.ents := rfl
@[simp] theorem refuse_fault (s : State) : (refuse s).fault = s.fault := rfl
@[simp] theorem refuse_fcmd (s : State) : (refuse s).fcmd = s.fcmd := rfl
@[simp] theorem refuse_asm (s : State) : (refuse s).asm = s.asm := rfl
@[simp] theorem refuse_walk (s : State) : (refuse s).walk = s.walk := rfl
@[simp] theorem refuse_cmdPort (s : State) : (refuse s).cmdPort = s.cmdPort := rfl
@[simp] theorem refuse_responses (s : State) : (refuse s).responses = s.responses ++ [responseWord 0x7F 0] := rfl
@[simp] theorem refuse_paintAnswers (s : State) : (refuse s).paintAnswers = s.paintAnswers := rfl
@[simp] theorem refuse_paintRequests (s : State) : (refuse s).paintRequests = s.paintRequests := rfl

/-! ### swapEnts -/

@[simp] theorem swapEnts_dots (a : RegNo) (k l : Nat) (s : State) : (swapEnts a k l s).dots = s.dots := rfl
@[simp] theorem swapEnts_figs (a : RegNo) (k l : Nat) (s : State) : (swapEnts a k l s).figs = s.figs := rfl
@[simp] theorem swapEnts_cells (a : RegNo) (k l : Nat) (s : State) : (swapEnts a k l s).cells = s.cells := rfl
@[simp] theorem swapEnts_leds (a : RegNo) (k l : Nat) (s : State) : (swapEnts a k l s).leds = s.leds := rfl
@[simp] theorem swapEnts_prng (a : RegNo) (k l : Nat) (s : State) : (swapEnts a k l s).prng = s.prng := rfl
@[simp] theorem swapEnts_caps (a : RegNo) (k l : Nat) (s : State) : (swapEnts a k l s).caps = s.caps := rfl
@[simp] theorem swapEnts_counts (a : RegNo) (k l : Nat) (s : State) : (swapEnts a k l s).counts = s.counts := rfl
@[simp] theorem swapEnts_fault (a : RegNo) (k l : Nat) (s : State) : (swapEnts a k l s).fault = s.fault := rfl
@[simp] theorem swapEnts_fcmd (a : RegNo) (k l : Nat) (s : State) : (swapEnts a k l s).fcmd = s.fcmd := rfl
@[simp] theorem swapEnts_asm (a : RegNo) (k l : Nat) (s : State) : (swapEnts a k l s).asm = s.asm := rfl
@[simp] theorem swapEnts_walk (a : RegNo) (k l : Nat) (s : State) : (swapEnts a k l s).walk = s.walk := rfl
@[simp] theorem swapEnts_cmdPort (a : RegNo) (k l : Nat) (s : State) : (swapEnts a k l s).cmdPort = s.cmdPort := rfl
@[simp] theorem swapEnts_responses (a : RegNo) (k l : Nat) (s : State) : (swapEnts a k l s).responses = s.responses := rfl
@[simp] theorem swapEnts_paintAnswers (a : RegNo) (k l : Nat) (s : State) : (swapEnts a k l s).paintAnswers = s.paintAnswers := rfl
@[simp] theorem swapEnts_paintRequests (a : RegNo) (k l : Nat) (s : State) : (swapEnts a k l s).paintRequests = s.paintRequests := rfl

/-! ### afterTaking -/

@[simp] theorem afterTaking_dots (rest : List Word) (s : State) : (afterTaking rest s).dots = s.dots := rfl
@[simp] theorem afterTaking_figs (rest : List Word) (s : State) : (afterTaking rest s).figs = s.figs := rfl
@[simp] theorem afterTaking_cells (rest : List Word) (s : State) : (afterTaking rest s).cells = s.cells := rfl
@[simp] theorem afterTaking_leds (rest : List Word) (s : State) : (afterTaking rest s).leds = s.leds := rfl
@[simp] theorem afterTaking_prng (rest : List Word) (s : State) : (afterTaking rest s).prng = s.prng := rfl
@[simp] theorem afterTaking_caps (rest : List Word) (s : State) : (afterTaking rest s).caps = s.caps := rfl
@[simp] theorem afterTaking_counts (rest : List Word) (s : State) : (afterTaking rest s).counts = s.counts := rfl
@[simp] theorem afterTaking_ents (rest : List Word) (s : State) : (afterTaking rest s).ents = s.ents := rfl
@[simp] theorem afterTaking_fault (rest : List Word) (s : State) : (afterTaking rest s).fault = s.fault := rfl
@[simp] theorem afterTaking_fcmd (rest : List Word) (s : State) : (afterTaking rest s).fcmd = s.fcmd := rfl
@[simp] theorem afterTaking_asm (rest : List Word) (s : State) : (afterTaking rest s).asm = [] := rfl
@[simp] theorem afterTaking_walk (rest : List Word) (s : State) : (afterTaking rest s).walk = s.walk := rfl
@[simp] theorem afterTaking_cmdPort (rest : List Word) (s : State) : (afterTaking rest s).cmdPort = rest := rfl
@[simp] theorem afterTaking_responses (rest : List Word) (s : State) : (afterTaking rest s).responses = s.responses := rfl
@[simp] theorem afterTaking_paintAnswers (rest : List Word) (s : State) : (afterTaking rest s).paintAnswers = s.paintAnswers := rfl
@[simp] theorem afterTaking_paintRequests (rest : List Word) (s : State) : (afterTaking rest s).paintRequests = s.paintRequests := rfl

/-! ### gather -/

@[simp] theorem gather_dots (s : State) : (gather s).dots = s.dots := rfl
@[simp] theorem gather_figs (s : State) : (gather s).figs = s.figs := rfl
@[simp] theorem gather_cells (s : State) : (gather s).cells = s.cells := rfl
@[simp] theorem gather_leds (s : State) : (gather s).leds = s.leds := rfl
@[simp] theorem gather_prng (s : State) : (gather s).prng = s.prng := rfl
@[simp] theorem gather_caps (s : State) : (gather s).caps = s.caps := rfl
@[simp] theorem gather_counts (s : State) : (gather s).counts = s.counts := rfl
@[simp] theorem gather_ents (s : State) : (gather s).ents = s.ents := rfl
@[simp] theorem gather_fault (s : State) : (gather s).fault = s.fault := rfl
@[simp] theorem gather_fcmd (s : State) : (gather s).fcmd = s.fcmd := rfl
@[simp] theorem gather_asm (s : State) : (gather s).asm = s.asm ++ s.cmdPort := rfl
@[simp] theorem gather_walk (s : State) : (gather s).walk = s.walk := rfl
@[simp] theorem gather_cmdPort (s : State) : (gather s).cmdPort = [] := rfl
@[simp] theorem gather_responses (s : State) : (gather s).responses = s.responses := rfl
@[simp] theorem gather_paintAnswers (s : State) : (gather s).paintAnswers = s.paintAnswers := rfl
@[simp] theorem gather_paintRequests (s : State) : (gather s).paintRequests = s.paintRequests := rfl

/-! ### hostSend -/

@[simp] theorem hostSend_dots (ws : List Word) (s : State) : (hostSend ws s).dots = s.dots := rfl
@[simp] theorem hostSend_figs (ws : List Word) (s : State) : (hostSend ws s).figs = s.figs := rfl
@[simp] theorem hostSend_cells (ws : List Word) (s : State) : (hostSend ws s).cells = s.cells := rfl
@[simp] theorem hostSend_leds (ws : List Word) (s : State) : (hostSend ws s).leds = s.leds := rfl
@[simp] theorem hostSend_prng (ws : List Word) (s : State) : (hostSend ws s).prng = s.prng := rfl
@[simp] theorem hostSend_caps (ws : List Word) (s : State) : (hostSend ws s).caps = s.caps := rfl
@[simp] theorem hostSend_counts (ws : List Word) (s : State) : (hostSend ws s).counts = s.counts := rfl
@[simp] theorem hostSend_ents (ws : List Word) (s : State) : (hostSend ws s).ents = s.ents := rfl
@[simp] theorem hostSend_fault (ws : List Word) (s : State) : (hostSend ws s).fault = s.fault := rfl
@[simp] theorem hostSend_fcmd (ws : List Word) (s : State) : (hostSend ws s).fcmd = s.fcmd := rfl
@[simp] theorem hostSend_asm (ws : List Word) (s : State) : (hostSend ws s).asm = s.asm := rfl
@[simp] theorem hostSend_walk (ws : List Word) (s : State) : (hostSend ws s).walk = s.walk := rfl
@[simp] theorem hostSend_cmdPort (ws : List Word) (s : State) : (hostSend ws s).cmdPort = s.cmdPort ++ ws := rfl
@[simp] theorem hostSend_responses (ws : List Word) (s : State) : (hostSend ws s).responses = s.responses := rfl
@[simp] theorem hostSend_paintAnswers (ws : List Word) (s : State) : (hostSend ws s).paintAnswers = s.paintAnswers := rfl
@[simp] theorem hostSend_paintRequests (ws : List Word) (s : State) : (hostSend ws s).paintRequests = s.paintRequests := rfl

/-! ### acceptorAnswer -/

@[simp] theorem acceptorAnswer_dots (ok : Bool) (s : State) : (acceptorAnswer ok s).dots = s.dots := rfl
@[simp] theorem acceptorAnswer_figs (ok : Bool) (s : State) : (acceptorAnswer ok s).figs = s.figs := rfl
@[simp] theorem acceptorAnswer_cells (ok : Bool) (s : State) : (acceptorAnswer ok s).cells = s.cells := rfl
@[simp] theorem acceptorAnswer_leds (ok : Bool) (s : State) : (acceptorAnswer ok s).leds = s.leds := rfl
@[simp] theorem acceptorAnswer_prng (ok : Bool) (s : State) : (acceptorAnswer ok s).prng = s.prng := rfl
@[simp] theorem acceptorAnswer_caps (ok : Bool) (s : State) : (acceptorAnswer ok s).caps = s.caps := rfl
@[simp] theorem acceptorAnswer_counts (ok : Bool) (s : State) : (acceptorAnswer ok s).counts = s.counts := rfl
@[simp] theorem acceptorAnswer_ents (ok : Bool) (s : State) : (acceptorAnswer ok s).ents = s.ents := rfl
@[simp] theorem acceptorAnswer_fault (ok : Bool) (s : State) : (acceptorAnswer ok s).fault = s.fault := rfl
@[simp] theorem acceptorAnswer_fcmd (ok : Bool) (s : State) : (acceptorAnswer ok s).fcmd = s.fcmd := rfl
@[simp] theorem acceptorAnswer_asm (ok : Bool) (s : State) : (acceptorAnswer ok s).asm = s.asm := rfl
@[simp] theorem acceptorAnswer_walk (ok : Bool) (s : State) : (acceptorAnswer ok s).walk = s.walk := rfl
@[simp] theorem acceptorAnswer_cmdPort (ok : Bool) (s : State) : (acceptorAnswer ok s).cmdPort = s.cmdPort := rfl
@[simp] theorem acceptorAnswer_responses (ok : Bool) (s : State) : (acceptorAnswer ok s).responses = s.responses := rfl
@[simp] theorem acceptorAnswer_paintAnswers (ok : Bool) (s : State) : (acceptorAnswer ok s).paintAnswers = s.paintAnswers ++ [ok] := rfl
@[simp] theorem acceptorAnswer_paintRequests (ok : Bool) (s : State) : (acceptorAnswer ok s).paintRequests = s.paintRequests := rfl

end Sys2Proof.Machine
end

