-- ==== Sys2Proof/Laws/Ops.lean ====
section
/-! SUPPORT. What the register, cell, arena and LED operations read back as; the three ways a command can go (60_exceptions.md
R206); frames from equal fields. -/

namespace Sys2Proof.Machine

/-! ### Registers -/

theorem readDot_writeDot (r r' : RegNo) (v : Dot) (s : State) :
    readDot (writeDot r v s) r' = if r' = r then v else readDot s r' := by
  simp only [readDot, writeDot, Vector.getElem_set, BitVec.toNat_inj, eq_comm]

theorem readFig_writeFig (r r' : RegNo) (v : Figure) (s : State) :
    readFig (writeFig r v s) r' = if r' = r then v else readFig s r' := by
  simp only [readFig, writeFig, Vector.getElem_set, BitVec.toNat_inj, eq_comm]

theorem readCap_writeCap (a a' : RegNo) (n : Nat) (s : State) :
    readCap (writeCap a n s) a' = if a' = a then n else readCap s a' := by
  simp only [readCap, writeCap, Vector.getElem_set, BitVec.toNat_inj, eq_comm (a := a)]

theorem readCount_writeCount (a a' : RegNo) (n : Nat) (s : State) :
    readCount (writeCount a n s) a' = if a' = a then n else readCount s a' := by
  simp only [readCount, writeCount, Vector.getElem_set, BitVec.toNat_inj, eq_comm (a := a)]

theorem readDot_resetWith (u : Unspecified) (r : RegNo) : readDot (State.resetWith u) r = ⟨0, 0⟩ := by
  simp [readDot, State.resetWith]

theorem readFig_resetWith (u : Unspecified) (r : RegNo) : readFig (State.resetWith u) r = ⟨0, 0⟩ := by
  simp [readFig, State.resetWith]

theorem readCap_resetWith (u : Unspecified) (a : RegNo) : readCap (State.resetWith u) a = 0 := by
  simp [readCap, State.resetWith]

theorem readCount_resetWith (u : Unspecified) (a : RegNo) : readCount (State.resetWith u) a = 0 := by
  simp [readCount, State.resetWith]

/-! ### Arena slots -/

theorem entAddr_inj {a a' : RegNo} {k k' : Nat} : entAddr a k = entAddr a' k' ↔ a = a' ∧ k = k' := by
  have h := a.isLt; have h' := a'.isLt
  simp only [entAddr, ← BitVec.toNat_inj]
  omega

theorem entAddr_lt {a : RegNo} {k : Nat} (h : k < 256) : entAddr a k < 4096 := by
  have := a.isLt
  simp only [entAddr]; omega

/-- What a slot reads after a slot is written. -/
theorem readEnt_writeEnt (a a' : RegNo) (k k' : Nat) (v : Dot) (s : State) (hs : Memory.rising s.ents) :
    readEnt (writeEnt a k v s) a' k' = if a' = a ∧ k' = k then v else readEnt s a' k' := by
  simp only [readEnt, writeEnt, Memory.read_write _ _ _ _ hs, entAddr_inj]

/-- Every other slot is kept by a write, whatever form the memory has. -/
theorem readEnt_writeEnt_ne {a a' : RegNo} {k k' : Nat} (v : Dot) (s : State) (h : ¬(a' = a ∧ k' = k)) :
    readEnt (writeEnt a k v s) a' k' = readEnt s a' k' :=
  Memory.read_write_ne _ _ _ _ fun he => h (entAddr_inj.1 he)

theorem ents_rising_writeEnt (a : RegNo) (k : Nat) (v : Dot) (s : State) (hs : Memory.rising s.ents) :
    Memory.rising (writeEnt a k v s).ents := Memory.rising_write _ _ hs

/-- What a slot reads after an exchange of two slots. -/
theorem readEnt_swapEnts (a a' : RegNo) (k l k' : Nat) (s : State) (hs : Memory.rising s.ents) :
    readEnt (swapEnts a k l s) a' k' =
      if a' = a ∧ k' = l then readEnt s a k else if a' = a ∧ k' = k then readEnt s a l else readEnt s a' k' := by
  simp only [swapEnts, readEnt_writeEnt _ _ _ _ _ _ (ents_rising_writeEnt _ _ _ _ hs), readEnt_writeEnt _ _ _ _ _ _ hs]

/-! ### Cells -/

theorem onGrid_iff {x y : Int} : onGrid x y = true ↔ 0 ≤ x ∧ x < 8 ∧ 0 ≤ y ∧ y < 32 := by
  simp [onGrid, and_assoc]

theorem cellAddr_inj {b b' : RegNo} {x y x' y' : Int} (h : onGrid x y = true) (h' : onGrid x' y' = true) :
    cellAddr b x.toNat y.toNat = cellAddr b' x'.toNat y'.toNat ↔ b = b' ∧ x = x' ∧ y = y' := by
  rw [onGrid_iff] at h h'
  simp only [cellAddr, ← BitVec.toNat_inj]
  omega

theorem cellAddr_lt {b : RegNo} {x y : Int} (hb : bankOk b = true) (h : onGrid x y = true) :
    cellAddr b x.toNat y.toNat < 1024 := by
  rw [onGrid_iff] at h
  simp only [bankOk, decide_eq_true_eq] at hb
  simp only [cellAddr]; omega

/-- What a cell reads after a cell is written: on the grid the value, elsewhere what it read before. -/
theorem cellRead_cellWrite (b b' : RegNo) (x y x' y' : Int) (v : Byte) (s : State) (hs : Memory.rising s.cells) :
    cellRead (cellWrite b x y v s) b' x' y' =
      if onGrid x y = true ∧ b' = b ∧ x' = x ∧ y' = y then v else cellRead s b' x' y' := by
  by_cases h : onGrid x y = true
  · by_cases h' : onGrid x' y' = true
    · simp only [cellRead, cellWrite, h, h', if_true, true_and, Memory.read_write _ _ _ _ hs, cellAddr_inj h' h]
    · have : ¬(b' = b ∧ x' = x ∧ y' = y) := fun hh => h' (hh.2.1 ▸ hh.2.2 ▸ h)
      simp [cellRead, h', this]
  · simp [cellWrite, h]

theorem cells_rising_cellWrite (b : RegNo) (x y : Int) (v : Byte) (s : State) (hs : Memory.rising s.cells) :
    Memory.rising (cellWrite b x y v s).cells := by
  unfold cellWrite; split
  · exact Memory.rising_write _ _ hs
  · exact hs

theorem cells_wf_cellWrite {b : RegNo} (x y : Int) (v : Byte) {s : State} (hb : bankOk b = true)
    (hs : Memory.wf 0 1024 s.cells = true) : Memory.wf 0 1024 (cellWrite b x y v s).cells = true := by
  unfold cellWrite; split
  · exact Memory.wf_write _ (cellAddr_lt hb ‹_›) hs
  · exact hs

/-- What a cell reads after a range of rows of a bank is written. -/
theorem cellRead_cellFillRows {b : RegNo} (b' : RegNo) (y0 y1 : Nat) (f : Nat → Nat → Byte) (x y : Int) {s : State}
    (hb : bankOk b = true) (h1 : y1 ≤ 32) (hs : Memory.wf 0 1024 s.cells = true) :
    cellRead (cellFillRows b y0 y1 f s) b' x y =
      if onGrid x y = true ∧ b' = b ∧ (y0 : Int) ≤ y ∧ y < y1 then f x.toNat y.toNat else cellRead s b' x y := by
  simp only [bankOk, decide_eq_true_eq] at hb
  by_cases h : onGrid x y = true
  · have hg := onGrid_iff.1 h
    simp only [cellRead, h, if_true, true_and, cellFillRows_cells]
    rw [Memory.read_fill _ _ _ (by simp only [cellAddr]; omega) hs]
    have hc : (cellAddr b 0 y0 ≤ cellAddr b' x.toNat y.toNat ∧ cellAddr b' x.toNat y.toNat < cellAddr b 0 y1) ↔
        (b' = b ∧ (y0 : Int) ≤ y ∧ y < y1) := by
      simp only [cellAddr, ← BitVec.toNat_inj]; omega
    have hx : cellAddr b' x.toNat y.toNat % 8 = x.toNat := by simp only [cellAddr]; omega
    have hy : cellAddr b' x.toNat y.toNat / 8 % 32 = y.toNat := by simp only [cellAddr]; omega
    rw [hx, hy]
    simp only [hc]
  · simp [cellRead, h]

theorem cells_wf_cellFillRows {b : RegNo} (y0 y1 : Nat) (f : Nat → Nat → Byte) {s : State}
    (hb : bankOk b = true) (h1 : y1 ≤ 32) (hs : Memory.wf 0 1024 s.cells = true) :
    Memory.wf 0 1024 (cellFillRows b y0 y1 f s).cells = true := by
  simp only [bankOk, decide_eq_true_eq] at hb
  exact Memory.wf_fill _ (by simp only [cellAddr]; omega) hs

/-- Writing a cell changes the cells alone. -/
theorem cellWrite_fields (b : RegNo) (x y : Int) (v : Byte) (s : State) : ∃ m, cellWrite b x y v s = { s with cells := m } := by
  unfold cellWrite; split
  · exact ⟨_, rfl⟩
  · exact ⟨s.cells, rfl⟩

/-- The memories of the reset state have the canonical form. -/
theorem reset_memories_wf :
    Memory.wf 0 1024 State.reset.cells = true ∧ Memory.wf ⟨0, 0⟩ 4096 State.reset.ents = true := by decide

/-! ### Drawing a Figure -/

/-- The set pixel at list position `p` of a Figure placed at `(x, y)` lands on the grid position `(x', y')`. -/
abbrev landsOn (x y : Int) (p : Nat × Nat) (x' y' : Int) : Prop := x + p.1 = x' ∧ y + p.2 = y'

theorem cells_rising_foldl (b : RegNo) (x y : Int) (c : Byte) (ps : List (Nat × Nat)) (s : State)
    (hs : Memory.rising s.cells) :
    Memory.rising (ps.foldl (fun t p => cellWrite b (x + p.1) (y + p.2) c t) s).cells := by
  induction ps generalizing s with
  | nil => exact hs
  | cons p ps ih => exact ih _ (cells_rising_cellWrite _ _ _ _ _ hs)

/-- What a cell reads after a Figure is composited: the colour under a set pixel on the grid, elsewhere what it read before. -/
theorem cellRead_drawFigure (b b' : RegNo) (x y x' y' : Int) (f : Figure) (c : Byte) (s : State)
    (hs : Memory.rising s.cells) :
    cellRead (drawFigure b x y f c s) b' x' y' =
      if onGrid x' y' = true ∧ b' = b ∧ ∃ p ∈ f.pixels, landsOn x y p x' y' then c else cellRead s b' x' y' := by
  unfold drawFigure
  generalize f.pixels = ps
  induction ps generalizing s with
  | nil => simp
  | cons p ps ih =>
    rw [List.foldl_cons, ih _ (cells_rising_cellWrite _ _ _ _ _ hs), cellRead_cellWrite _ _ _ _ _ _ _ _ hs]
    by_cases h : onGrid x' y' = true ∧ b' = b
    · obtain ⟨hg, rfl⟩ := h
      by_cases hp : landsOn x y p x' y'
      · obtain ⟨rfl, rfl⟩ := hp
        simp [hg, landsOn]
      · have : ¬(x' = x + p.1 ∧ y' = y + p.2) := fun hh => hp ⟨hh.1.symm, hh.2.symm⟩
        simp only [List.mem_cons, exists_eq_or_imp, hp, false_or, this, and_false, true_and, hg, if_false]
    · have h' : ¬(onGrid (x + p.1) (y + p.2) = true ∧ b' = b ∧ x' = x + p.1 ∧ y' = y + p.2) := by
        rintro ⟨hg, hb, rfl, rfl⟩; exact h ⟨hg, hb⟩
      rw [if_neg h', if_neg (fun hh => h ⟨hh.1, hh.2.1⟩), if_neg (fun hh => h ⟨hh.1, hh.2.1⟩)]

theorem cells_wf_drawFigure {b : RegNo} (x y : Int) (f : Figure) (c : Byte) {s : State} (hb : bankOk b = true)
    (hs : Memory.wf 0 1024 s.cells = true) : Memory.wf 0 1024 (drawFigure b x y f c s).cells = true := by
  unfold drawFigure
  generalize f.pixels = ps
  induction ps generalizing s with
  | nil => exact hs
  | cons p ps ih => exact ih (cells_wf_cellWrite _ _ _ hb hs)

/-- Drawing changes the cells alone. -/
theorem drawFigure_fields (b : RegNo) (x y : Int) (f : Figure) (c : Byte) (s : State) :
    ∃ m, drawFigure b x y f c s = { s with cells := m } := by
  unfold drawFigure
  generalize f.pixels = ps
  induction ps generalizing s with
  | nil => exact ⟨s.cells, rfl⟩
  | cons p ps ih =>
    obtain ⟨m, hm⟩ := ih (cellWrite b (x + p.1) (y + p.2) c s)
    refine ⟨m, ?_⟩
    rw [List.foldl_cons, hm]
    unfold cellWrite
    split <;> rfl

/-! ### The LED buffer -/

theorem tabulate_getElem {α : Type} {n : Nat} (f : Nat → α) (i : Nat) (h : i < n) : (tabulate n f)[i] = f i := by
  simp [tabulate]

theorem ledIdx_lt {x y : Nat} (hx : x < 8) (hy : y < 32) : ledIdx x y < 256 := by
  unfold ledIdx; split <;> omega

theorem ledPos_ledIdx {x y : Nat} (hx : x < 8) : ledPos (ledIdx x y) = (x, y) := by
  unfold ledPos ledIdx
  by_cases h : y % 2 = 0
  · have h1 : (y * 8 + (7 - x)) / 8 = y := by omega
    have h2 : (y * 8 + (7 - x)) % 8 = 7 - x := by omega
    simp only [h, if_true, h1, h2]
    rw [show 7 - (7 - x) = x by omega]
  · have h1 : (y * 8 + x) / 8 = y := by omega
    have h2 : (y * 8 + x) % 8 = x := by omega
    simp only [h, if_false, h1, h2]

theorem ledIdx_ledPos {i : Nat} : ledIdx (ledPos i).1 (ledPos i).2 = i := by
  unfold ledPos ledIdx
  by_cases h : i / 8 % 2 = 0 <;> simp only [h, if_true, if_false] <;> omega

/-! ### The ways a command can go -/

theorem halted_iff {s : State} : s.halted = true ↔ s.fault ≠ 0 := by simp [State.halted]

theorem checked_running {i : Instr} {s : State} (e : State) (h : s.fault = 0) (hi : i.wellFormed = true) :
    checked i s e = e := by simp [checked, State.halted, h, hi]

theorem checked_halted (i : Instr) {s : State} (e : State) (h : s.fault ≠ 0) : checked i s e = refuse s := by
  rw [checked, if_pos (halted_iff.2 h)]

theorem checked_illFormed {i : Instr} {s : State} (e : State) (h : s.fault = 0) (hi : i.wellFormed = false) :
    checked i s e = takeFault .reservedField i.header s := by simp [checked, State.halted, h, hi]

/-- Everything the checks can come to. -/
theorem checked_cases (i : Instr) (s e : State) :
    (s.fault ≠ 0 ∧ checked i s e = refuse s) ∨
    (s.fault = 0 ∧ i.wellFormed = false ∧ checked i s e = takeFault .reservedField i.header s) ∨
    (s.fault = 0 ∧ i.wellFormed = true ∧ checked i s e = e) := by
  by_cases h : s.fault = 0
  · by_cases hi : i.wellFormed = true
    · exact .inr (.inr ⟨h, hi, checked_running e h hi⟩)
    · rw [Bool.not_eq_true] at hi
      exact .inr (.inl ⟨h, hi, checked_illFormed e h hi⟩)
  · exact .inl ⟨h, checked_halted i e h⟩

theorem faultOrRefuse_cases (c : FaultCause) (w : Word) (s : State) :
    (s.fault ≠ 0 ∧ faultOrRefuse c w s = refuse s) ∨ (s.fault = 0 ∧ faultOrRefuse c w s = takeFault c w s) := by
  by_cases h : s.fault = 0
  · exact .inr ⟨h, by simp [faultOrRefuse, State.halted, h]⟩
  · exact .inl ⟨h, by rw [faultOrRefuse, if_pos (halted_iff.2 h)]⟩

theorem code_ne_zero (c : FaultCause) : c.code ≠ 0 := by cases c <;> decide

theorem code_le (c : FaultCause) : c.code.toNat ≤ 3 := by cases c <;> decide

/-! ### Frames -/

/-- The fields that make up a part. -/
def SameFields (p : Part) (s t : State) : Prop :=
  match p with
  | .dots => t.dots = s.dots
  | .figs => t.figs = s.figs
  | .cells => t.cells = s.cells
  | .leds => t.leds = s.leds
  | .prng => t.prng = s.prng
  | .caps => t.caps = s.caps
  | .counts => t.counts = s.counts
  | .ents => t.ents = s.ents
  | .faultRegs => t.fault = s.fault ∧ t.fcmd = s.fcmd
  | .assembler => t.asm = s.asm
  | .walk => t.walk = s.walk
  | .cmdPort => t.cmdPort = s.cmdPort
  | .responses => t.responses = s.responses
  | .paintPort => t.paintAnswers = s.paintAnswers ∧ t.paintRequests = s.paintRequests

theorem samePart_of_sameFields {p : Part} {s t : State} (h : SameFields p s t) : SamePart p s t := by
  cases p <;> simp only [SameFields] at h <;>
    simp only [SamePart, readDot, readFig, cellRead, readCap, readCount, readEnt, h, implies_true, and_self]

/-- A frame from equal fields. -/
theorem keepsAllBut_of_sameFields {changed : List Part} {s t : State} (h : ∀ p, p ∉ changed → SameFields p s t) :
    KeepsAllBut changed s t := fun p hp => samePart_of_sameFields (h p hp)

theorem keepsAllBut_trans {changed : List Part} {s t u : State} (h1 : KeepsAllBut changed s t)
    (h2 : KeepsAllBut changed t u) : KeepsAllBut changed s u := by
  intro p hp
  have a := h1 p hp
  have b := h2 p hp
  cases p <;> simp only [SamePart] at a b ⊢ <;> simp [a, b]

/-- Everything that taking a fault does: the two fault registers and one response (R203). It transfers control nowhere: the words
at hand and the walk are among what stays (R211). -/
theorem takeFault_effect (c : FaultCause) (w : Word) (s : State) :
    (takeFault c w s).fault = c.code ∧ (takeFault c w s).fcmd = w ∧ Responded c.code 0 s (takeFault c w s) ∧
      KeepsAllBut [.faultRegs, .responses] s (takeFault c w s) :=
  ⟨rfl, rfl, rfl, keepsAllBut_of_sameFields fun p hp => by cases p <;> first | rfl | exact ⟨rfl, rfl⟩ | simp at hp⟩

/-- Everything that a refusal does: one response (R205). -/
theorem refuse_effect (s : State) : Responded 0x7F 0 s (refuse s) ∧ KeepsAllBut [.responses] s (refuse s) :=
  ⟨rfl, keepsAllBut_of_sameFields fun p hp => by cases p <;> first | rfl | exact ⟨rfl, rfl⟩ | simp at hp⟩

theorem onlyResponds_respond (v : Value) (s : State) : OnlyResponds v s (respond v s) :=
  ⟨rfl, keepsAllBut_of_sameFields fun p hp => by cases p <;> first | rfl | exact ⟨rfl, rfl⟩ | simp at hp⟩

end Sys2Proof.Machine
end

