-- ==== Sys2Proof/Laws/Paint.lean ====
section
/-! SUPPORT. The paint walk: what comes of a list of answers, and that a walk may be cut and resumed. -/

namespace Sys2Proof.Machine

@[simp] theorem paintSettle_nil (as : List Bool) : paintSettle [] as = ⟨[], 0, some true, as⟩ := by
  cases as <;> rfl

@[simp] theorem paintSettle_no_answer (p : Nat × Nat) (ps : List (Nat × Nat)) :
    paintSettle (p :: ps) [] = ⟨[], 0, none, []⟩ := rfl

@[simp] theorem paintSettle_reject (p : Nat × Nat) (ps : List (Nat × Nat)) (as : List Bool) :
    paintSettle (p :: ps) (false :: as) = ⟨[], 0, some false, as⟩ := rfl

theorem paintSettle_accept (p : Nat × Nat) (ps : List (Nat × Nat)) (as : List Bool) :
    paintSettle (p :: ps) (true :: as) =
      { paintSettle ps as with
        sent := ps.take 1 ++ (paintSettle ps as).sent, accepted := (paintSettle ps as).accepted + 1 } := rfl

/-- A waiting walk used every answer, all of them acceptances, and has a pixel left. -/
theorem paintSettle_waits {ps : List (Nat × Nat)} {as : List Bool} (h : (paintSettle ps as).verdict = none) :
    (paintSettle ps as).answers = [] ∧ (paintSettle ps as).accepted = as.length ∧ as.length < ps.length ∧
      as = List.replicate as.length true := by
  induction ps generalizing as with
  | nil => simp at h
  | cons p ps ih =>
    cases as with
    | nil => simp
    | cons ok as =>
      cases ok with
      | false => simp at h
      | true =>
        rw [paintSettle_accept] at h ⊢
        obtain ⟨h1, h2, h3, h4⟩ := ih h
        refine ⟨h1, by simp [h2], by simpa using h3, ?_⟩
        simpa [List.replicate_succ] using h4

/-- Every answer accepted and one for each pixel: every request was sent and the verdict is acceptance. -/
theorem paintSettle_all (ps : List (Nat × Nat)) (rest : List Bool) :
    paintSettle ps (List.replicate ps.length true ++ rest) = ⟨ps.drop 1, ps.length, some true, rest⟩ := by
  induction ps with
  | nil => simp
  | cons p ps ih =>
    simp only [List.length_cons, List.replicate_succ, List.cons_append, paintSettle_accept, ih]
    cases ps <;> simp

/-- The first rejection, after `n` acceptances: the requests up to the rejected one were sent, no other. -/
theorem paintSettle_rejected {ps : List (Nat × Nat)} {n : Nat} (hn : n < ps.length) (rest : List Bool) :
    paintSettle ps (List.replicate n true ++ false :: rest) = ⟨(ps.take (n + 1)).drop 1, n, some false, rest⟩ := by
  induction ps generalizing n with
  | nil => simp at hn
  | cons p ps ih =>
    cases n with
    | zero => simp
    | succ n =>
      simp only [List.length_cons, Nat.add_lt_add_iff_right] at hn
      simp only [List.replicate_succ, List.cons_append, paintSettle_accept, ih hn]
      cases ps with
      | nil => simp at hn
      | cons q qs => simp

/-- Too few answers, all acceptances: one request more than the answers was sent and the walk waits. -/
theorem paintSettle_short {ps : List (Nat × Nat)} {n : Nat} (hn : n < ps.length) :
    paintSettle ps (List.replicate n true) = ⟨(ps.take (n + 1)).drop 1, n, none, []⟩ := by
  induction ps generalizing n with
  | nil => simp at hn
  | cons p ps ih =>
    cases n with
    | zero => simp
    | succ n =>
      simp only [List.length_cons, Nat.add_lt_add_iff_right] at hn
      simp only [List.replicate_succ, paintSettle_accept, ih hn]
      cases ps with
      | nil => simp at hn
      | cons q qs => simp

/-- A walk over more answers after `n` acceptances goes on as a walk over the pixels left. -/
theorem paintSettle_resumed (ps : List (Nat × Nat)) (n : Nat) (hn : n < ps.length) (more : List Bool) :
    paintSettle ps (List.replicate n true ++ more) =
      { paintSettle (ps.drop n) more with
        sent := (ps.take (n + 1)).drop 1 ++ (paintSettle (ps.drop n) more).sent
        accepted := n + (paintSettle (ps.drop n) more).accepted } := by
  induction ps generalizing n with
  | nil => simp at hn
  | cons p ps ih =>
    cases n with
    | zero => simp
    | succ n =>
      simp only [List.length_cons, Nat.add_lt_add_iff_right] at hn
      simp only [List.replicate_succ, List.cons_append, paintSettle_accept, List.drop_succ_cons, ih n hn]
      cases ps with
      | nil => simp at hn
      | cons q qs => simp; omega

/-- The walk is what its verdict says and the rest of the unit is as before (40_figure.md R108). -/
theorem paintAdvance_eq (w : PaintWalk) (first : List (Nat × Nat)) (run : PaintRun) (s : State) :
    paintAdvance w first run s =
      { s with
        paintRequests := s.paintRequests ++ (first ++ run.sent).map (paintRequest s w)
        paintAnswers := run.answers
        walk := match run.verdict with
          | some _ => none
          | none => some { w with pos := w.pos + run.accepted }
        responses := match run.verdict with
          | some ok => s.responses ++ [responseWord 0x00 (boolValue ok)]
          | none => s.responses } := by
  unfold paintAdvance
  cases run.verdict <;> rfl

end Sys2Proof.Machine
end

