-- ==== Sys2Proof/Laws/PerInstr.lean ====
section
/-! SUPPORT. Facts about every command as syntax, one lemma per constructor. -/

namespace Sys2Proof.Laws

/-- The encoded command is as long as its own opcode byte says (30_encoding.md R72). -/
def EncodedLength.Statement (i : Instr) : Prop := (encode i).length = commandLength i.header

theorem EncodedLength.nop : EncodedLength.Statement (.nop) := by
  simp [EncodedLength.Statement, encode, Instr.header, Instr.payload, commandLength]
theorem EncodedLength.stat (sel : Byte) : EncodedLength.Statement (.stat sel) := by
  simp [EncodedLength.Statement, encode, Instr.header, Instr.payload, commandLength]
theorem EncodedLength.fwid (s : RegNo) : EncodedLength.Statement (.fwid s) := by
  simp [EncodedLength.Statement, encode, Instr.header, Instr.payload, commandLength]
theorem EncodedLength.fhgt (s : RegNo) : EncodedLength.Statement (.fhgt s) := by
  simp [EncodedLength.Statement, encode, Instr.header, Instr.payload, commandLength]
theorem EncodedLength.fgetb (s : RegNo) (col row : Byte) : EncodedLength.Statement (.fgetb s col row) := by
  simp [EncodedLength.Statement, encode, Instr.header, Instr.payload, commandLength]
theorem EncodedLength.frot (d s : RegNo) : EncodedLength.Statement (.frot d s) := by
  simp [EncodedLength.Statement, encode, Instr.header, Instr.payload, commandLength]
theorem EncodedLength.frd (s : RegNo) : EncodedLength.Statement (.frd s) := by
  simp [EncodedLength.Statement, encode, Instr.header, Instr.payload, commandLength]
theorem EncodedLength.fpaint (b p s : RegNo) (c : Byte) : EncodedLength.Statement (.fpaint b p s c) := by
  simp [EncodedLength.Statement, encode, Instr.header, Instr.payload, commandLength]
theorem EncodedLength.fbset (b p : RegNo) (c : Byte) : EncodedLength.Statement (.fbset b p c) := by
  simp [EncodedLength.Statement, encode, Instr.header, Instr.payload, commandLength]
theorem EncodedLength.fbget (b p : RegNo) : EncodedLength.Statement (.fbget b p) := by
  simp [EncodedLength.Statement, encode, Instr.header, Instr.payload, commandLength]
theorem EncodedLength.fbcol (b p s : RegNo) : EncodedLength.Statement (.fbcol b p s) := by
  simp [EncodedLength.Statement, encode, Instr.header, Instr.payload, commandLength]
theorem EncodedLength.fbdraw (b p s : RegNo) (c : Byte) : EncodedLength.Statement (.fbdraw b p s c) := by
  simp [EncodedLength.Statement, encode, Instr.header, Instr.payload, commandLength]
theorem EncodedLength.fbrowf (b : RegNo) (y : Byte) : EncodedLength.Statement (.fbrowf b y) := by
  simp [EncodedLength.Statement, encode, Instr.header, Instr.payload, commandLength]
theorem EncodedLength.fbrowe (b : RegNo) (y : Byte) : EncodedLength.Statement (.fbrowe b y) := by
  simp [EncodedLength.Statement, encode, Instr.header, Instr.payload, commandLength]
theorem EncodedLength.fbclr (b : RegNo) : EncodedLength.Statement (.fbclr b) := by
  simp [EncodedLength.Statement, encode, Instr.header, Instr.payload, commandLength]
theorem EncodedLength.fbclrr (b : RegNo) (y0 y1 : Byte) : EncodedLength.Statement (.fbclrr b y0 y1) := by
  simp [EncodedLength.Statement, encode, Instr.header, Instr.payload, commandLength]
theorem EncodedLength.fbrend (b : RegNo) : EncodedLength.Statement (.fbrend b) := by
  simp [EncodedLength.Statement, encode, Instr.header, Instr.payload, commandLength]
theorem EncodedLength.fbrows (b : RegNo) (c : Byte) (p0 p1 p2 p3 p4 p5 p6 p7 : Word) : EncodedLength.Statement (.fbrows b c p0 p1 p2 p3 p4 p5 p6 p7) := by
  simp [EncodedLength.Statement, encode, Instr.header, Instr.payload, commandLength]
theorem EncodedLength.pseed (seed : Word) : EncodedLength.Statement (.pseed seed) := by
  simp [EncodedLength.Statement, encode, Instr.header, Instr.payload, commandLength]
theorem EncodedLength.pnext (max : Byte) : EncodedLength.Statement (.pnext max) := by
  simp [EncodedLength.Statement, encode, Instr.header, Instr.payload, commandLength]
theorem EncodedLength.dld (d : RegNo) (x y : Byte) : EncodedLength.Statement (.dld d x y) := by
  simp [EncodedLength.Statement, encode, Instr.header, Instr.payload, commandLength]
theorem EncodedLength.drd (s : RegNo) : EncodedLength.Statement (.drd s) := by
  simp [EncodedLength.Statement, encode, Instr.header, Instr.payload, commandLength]
theorem EncodedLength.dmovw (d s t : RegNo) : EncodedLength.Statement (.dmovw d s t) := by
  simp [EncodedLength.Statement, encode, Instr.header, Instr.payload, commandLength]
theorem EncodedLength.dtodir (d s : RegNo) : EncodedLength.Statement (.dtodir d s) := by
  simp [EncodedLength.Statement, encode, Instr.header, Instr.payload, commandLength]
theorem EncodedLength.dopp (s t : RegNo) : EncodedLength.Statement (.dopp s t) := by
  simp [EncodedLength.Statement, encode, Instr.header, Instr.payload, commandLength]
theorem EncodedLength.dzero (s : RegNo) : EncodedLength.Statement (.dzero s) := by
  simp [EncodedLength.Statement, encode, Instr.header, Instr.payload, commandLength]
theorem EncodedLength.ainit (a : RegNo) (cap : BitVec 16) : EncodedLength.Statement (.ainit a cap) := by
  simp [EncodedLength.Statement, encode, Instr.header, Instr.payload, commandLength]
theorem EncodedLength.apush (a s : RegNo) : EncodedLength.Statement (.apush a s) := by
  simp [EncodedLength.Statement, encode, Instr.header, Instr.payload, commandLength]
theorem EncodedLength.arem (a : RegNo) (i : Byte) : EncodedLength.Statement (.arem a i) := by
  simp [EncodedLength.Statement, encode, Instr.header, Instr.payload, commandLength]
theorem EncodedLength.aget (a d : RegNo) (i : Byte) : EncodedLength.Statement (.aget a d i) := by
  simp [EncodedLength.Statement, encode, Instr.header, Instr.payload, commandLength]
theorem EncodedLength.aset (a s : RegNo) (i : Byte) : EncodedLength.Statement (.aset a s i) := by
  simp [EncodedLength.Statement, encode, Instr.header, Instr.payload, commandLength]
theorem EncodedLength.acnt (a : RegNo) : EncodedLength.Statement (.acnt a) := by
  simp [EncodedLength.Statement, encode, Instr.header, Instr.payload, commandLength]
theorem EncodedLength.fld (d : RegNo) (wh : Byte) (data : BitVec 16) : EncodedLength.Statement (.fld d wh data) := by
  have h : 0xF0 ≤ (opOf (packL d wh data)).toNat := (fieldMajor_eq_iff _).1 (fieldMajor_packL d wh data)
  have h1 : opOf (packL d wh data) ≠ 0x29#8 := fun he => by rw [he] at h; exact absurd h (by decide)
  have h2 : opOf (packL d wh data) ≠ 0x30#8 := fun he => by rw [he] at h; exact absurd h (by decide)
  simp [EncodedLength.Statement, encode, Instr.header, Instr.payload, commandLength, h1, h2]

end Sys2Proof.Laws
end

