-- ==== Sys2Proof/Laws/Step.lean ====
section
/-! SUPPORT. What a step can do, said once; every command answers a next state. -/

namespace Sys2Proof.Machine

@[simp] theorem groupCommands_zero (stream : List Word) : groupCommands 0 stream = ([], stream) := rfl

theorem groupCommands_incomplete {stream : List Word} (n : Nat) (h : takeCommand stream = none) :
    groupCommands n stream = ([], stream) := by
  cases n with
  | zero => rfl
  | succ n => simp only [groupCommands, h]

theorem groupCommands_whole {stream ws rest : List Word} (n : Nat) (h : takeCommand stream = some (ws, rest)) :
    groupCommands (n + 1) stream = (ws :: (groupCommands n rest).1, (groupCommands n rest).2) := by
  simp only [groupCommands, h]

/-- Everything a fetch can come to. -/
theorem fetch_cases (s : State) :
    (∃ w, s.walk = some w ∧ fetch s = .done (paintResume w s)) ∨
    (s.walk = none ∧ takeCommand (s.asm ++ s.cmdPort) = none ∧ fetch s = .done (gather s)) ∨
    (s.walk = none ∧ ∃ ws rest, takeCommand (s.asm ++ s.cmdPort) = some (ws, rest) ∧
      fetch s = dispatchWords ws (afterTaking rest s)) := by
  unfold fetch
  cases hw : s.walk with
  | some w => exact .inl ⟨w, rfl, rfl⟩
  | none =>
    cases ht : takeCommand (s.asm ++ s.cmdPort) with
    | none => exact .inr (.inl ⟨rfl, rfl, rfl⟩)
    | some p => exact .inr (.inr ⟨rfl, p.1, p.2, rfl, rfl⟩)

/-- Everything a taken command can come to; a whole command is never of the wrong length. -/
theorem dispatchWords_cases {ws : List Word} (s : State)
    (h : ∃ w pay, ws = w :: pay ∧ ws.length = commandLength w) :
    (∃ i, decode ws = .ok i ∧ dispatchWords ws s = .run i s) ∨
    (decode ws = .error .illegalOpcode ∧ dispatchWords ws s = .done (faultOrRefuse .illegalOpcode (ws.headD 0) s)) ∨
    (decode ws = .error .reservedField ∧ dispatchWords ws s = .done (faultOrRefuse .reservedField (ws.headD 0) s)) := by
  obtain ⟨w, pay, rfl, hl⟩ := h
  unfold dispatchWords
  cases hd : decode (w :: pay) with
  | ok i => exact .inl ⟨i, rfl, rfl⟩
  | error e =>
    cases e with
    | illegalOpcode => exact .inr (.inl ⟨rfl, rfl⟩)
    | reservedField => exact .inr (.inr ⟨rfl, rfl⟩)
    | wrongLength =>
      simp only [decode] at hd
      rw [if_pos (by simpa using hl)] at hd
      split at hd
      · simp at hd
      · split at hd <;> simp at hd

/-- Everything a step can do. -/
theorem step_cases (s : State) :
    (∃ w, s.walk = some w ∧ step s = .next (paintResume w s)) ∨
    (s.walk = none ∧ takeCommand (s.asm ++ s.cmdPort) = none ∧ step s = .next (gather s)) ∨
    (s.walk = none ∧ ∃ ws rest, takeCommand (s.asm ++ s.cmdPort) = some (ws, rest) ∧
      ((∃ i, decode ws = .ok i ∧ step s = exec i (afterTaking rest s)) ∨
       (decode ws = .error .illegalOpcode ∧
          step s = .next (faultOrRefuse .illegalOpcode (ws.headD 0) (afterTaking rest s))) ∨
       (decode ws = .error .reservedField ∧
          step s = .next (faultOrRefuse .reservedField (ws.headD 0) (afterTaking rest s))))) := by
  unfold step
  rcases fetch_cases s with ⟨w, h1, h2⟩ | ⟨h1, h2, h3⟩ | ⟨h1, ws, rest, h2, h3⟩
  · exact .inl ⟨w, h1, by rw [h2]⟩
  · exact .inr (.inl ⟨h1, h2, by rw [h3]⟩)
  · refine .inr (.inr ⟨h1, ws, rest, h2, ?_⟩)
    rcases dispatchWords_cases (afterTaking rest s) (takeCommand_eq_some h2).2 with ⟨i, hd, he⟩ | ⟨hd, he⟩ | ⟨hd, he⟩
    · exact .inl ⟨i, hd, by rw [h3, he]⟩
    · exact .inr (.inl ⟨hd, by rw [h3, he]⟩)
    · exact .inr (.inr ⟨hd, by rw [h3, he]⟩)

/-- No command touches the words that come after it: the assembler and the command port are the fetch's alone (R72). -/
theorem exec_keeps_words {i : Instr} {s t : State} (h : exec i s = .next t) : t.asm = s.asm ∧ t.cmdPort = s.cmdPort := by
  cases i
  case stat sel =>
    cases h
    split
    · exact ⟨rfl, rfl⟩
    · rcases faultOrRefuse_cases .reservedField (Instr.stat sel).header s with ⟨_, e⟩ | ⟨_, e⟩ <;> rw [e] <;> exact ⟨rfl, rfl⟩
  all_goals
    cases h
    rcases checked_cases _ s _ with ⟨-, e⟩ | ⟨-, -, e⟩ | ⟨-, -, e⟩ <;> rw [e]
    · exact ⟨rfl, rfl⟩
    · exact ⟨rfl, rfl⟩
  case fpaint b p f c => unfold paintStart; rw [paintAdvance_eq]; exact ⟨rfl, rfl⟩
  case fbset b p c =>
    obtain ⟨m, hm⟩ := cellWrite_fields b (posX s p) (posY s p) c s
    rw [hm]; exact ⟨rfl, rfl⟩
  case fbdraw b p f c =>
    obtain ⟨m, hm⟩ := drawFigure_fields b (posX s p) (posY s p) (readFig s f) c s
    rw [hm]; exact ⟨rfl, rfl⟩
  all_goals first | exact ⟨rfl, rfl⟩ | (split <;> exact ⟨rfl, rfl⟩)

/-- Every meaning answers a next state. -/
theorem exec_answers (i : Instr) (s : State) : ∃ t, exec i s = .next t := by
  cases i <;> exact ⟨_, rfl⟩

end Sys2Proof.Machine
end

