-- ==== Sys2Proof/Tests/Slice0.lean ====
section
/-! SUPPORT. The model's own tests. Expected values come from spec/95_test_vectors.md (V1 to V6, P3) and from the examples of
the family files; words are written out from the encodings of 30_encoding.md. -/

namespace Sys2Proof.Tests

open Sys2Proof Sys2Proof.Machine

/-! ### Well-formedness refuses each ill-formed term (R74, R83) -/

theorem test_wf_refuses_stat_selector_3 : (Instr.stat 3).wellFormed = false := by decide
theorem test_wf_refuses_fpaint_bank_4 : (Instr.fpaint 4 0 0 0).wellFormed = false := by decide
theorem test_wf_refuses_fbset_bank_4 : (Instr.fbset 4 0 0).wellFormed = false := by decide
theorem test_wf_refuses_fbget_bank_15 : (Instr.fbget 15 0).wellFormed = false := by decide
theorem test_wf_refuses_fbcol_bank_4 : (Instr.fbcol 4 0 0).wellFormed = false := by decide
theorem test_wf_refuses_fbdraw_bank_8 : (Instr.fbdraw 8 0 0 0).wellFormed = false := by decide
theorem test_wf_refuses_fbrowf_bank_4 : (Instr.fbrowf 4 0).wellFormed = false := by decide
theorem test_wf_refuses_fbrowe_bank_4 : (Instr.fbrowe 4 0).wellFormed = false := by decide
theorem test_wf_refuses_fbclr_bank_4 : (Instr.fbclr 4).wellFormed = false := by decide
theorem test_wf_refuses_fbclrr_bank_4 : (Instr.fbclrr 4 0 32).wellFormed = false := by decide
theorem test_wf_refuses_fbrend_bank_4 : (Instr.fbrend 4).wellFormed = false := by decide
theorem test_wf_refuses_fbrows_bank_4 : (Instr.fbrows 4 0 0 0 0 0 0 0 0 0).wellFormed = false := by decide
theorem test_wf_accepts_bank_3_and_selector_2 :
    (Instr.fbclr 3).wellFormed = true ∧ (Instr.stat 2).wellFormed = true := by decide

/-! ### Every constructor's decoding, from a word written out by hand -/

theorem test_decode_nop : decode [0x00000000] = .ok .nop := by decide
theorem test_decode_stat : decode [0x01000002] = .ok (.stat 2) := by decide
theorem test_decode_fwid : decode [0x10100000] = .ok (.fwid 1) := by decide
theorem test_decode_fhgt : decode [0x11100000] = .ok (.fhgt 1) := by decide
theorem test_decode_fgetb : decode [0x12100201] = .ok (.fgetb 1 1 2) := by decide
theorem test_decode_frot : decode [0x13210000] = .ok (.frot 2 1) := by decide
theorem test_decode_frd : decode [0x14200000] = .ok (.frd 2) := by decide
theorem test_decode_fpaint : decode [0x153010C8] = .ok (.fpaint 3 0 1 200) := by decide
theorem test_decode_fbset : decode [0x20010003] = .ok (.fbset 0 1 3) := by decide
theorem test_decode_fbget : decode [0x21020000] = .ok (.fbget 0 2) := by decide
theorem test_decode_fbcol : decode [0x22031000] = .ok (.fbcol 0 3 1) := by decide
theorem test_decode_fbdraw : decode [0x23051005] = .ok (.fbdraw 0 5 1 5) := by decide
theorem test_decode_fbrowf : decode [0x24000028] = .ok (.fbrowf 0 40) := by decide
theorem test_decode_fbrowe : decode [0x25000007] = .ok (.fbrowe 0 7) := by decide
theorem test_decode_fbclr : decode [0x26100000] = .ok (.fbclr 1) := by decide
theorem test_decode_fbclrr : decode [0x27000CC8] = .ok (.fbclrr 0 12 200) := by decide
theorem test_decode_fbrend : decode [0x28000000] = .ok (.fbrend 0) := by decide
theorem test_decode_fbrows :
    decode [0x29200003, 0x80000001, 0, 0, 0, 0, 0, 0, 0xC0000000] =
      .ok (.fbrows 2 3 0x80000001 0 0 0 0 0 0 0xC0000000) := by decide
theorem test_decode_pseed : decode [0x30000000, 0x00003039] = .ok (.pseed 12345) := by decide
theorem test_decode_pnext : decode [0x31000007] = .ok (.pnext 7) := by decide
theorem test_decode_dld : decode [0x40807F80] = .ok (.dld 8 (-128) 127) := by decide
theorem test_decode_drd : decode [0x41800000] = .ok (.drd 8) := by decide
theorem test_decode_dmovw : decode [0x42756000] = .ok (.dmovw 7 5 6) := by decide
theorem test_decode_dtodir : decode [0x43BA0000] = .ok (.dtodir 11 10) := by decide
theorem test_decode_dopp : decode [0x44CD0000] = .ok (.dopp 12 13) := by decide
theorem test_decode_dzero : decode [0x45C00000] = .ok (.dzero 12) := by decide
theorem test_decode_ainit : decode [0x5010012C] = .ok (.ainit 1 300) := by decide
theorem test_decode_apush : decode [0x51020000] = .ok (.apush 0 2) := by decide
theorem test_decode_arem : decode [0x52000001] = .ok (.arem 0 1) := by decide
theorem test_decode_aget : decode [0x530F0001] = .ok (.aget 0 15 1) := by decide
theorem test_decode_aset : decode [0x54010001] = .ok (.aset 0 1 1) := by decide
theorem test_decode_acnt : decode [0x55000000] = .ok (.acnt 0) := by decide
theorem test_decode_fld : decode [0xF123002B] = .ok (.fld 1 0x23 0x002B) := by decide

theorem test_decode_refuses_illegal_opcodes :
    [(0x02000000 : Word), 0x0F000000, 0x16000000, 0x1FFFFFFF, 0x2A000000, 0x2F000000, 0x32000000, 0x3F000000, 0x46000000,
      0x4F000000, 0x56000000, 0xEF000000].all (fun w => decide (decode [w] = .error .illegalOpcode)) = true := by decide

theorem test_decode_refuses_reserved_fields :
    [(0x00000001 : Word), 0x01000003, 0x01000100, 0x10100001, 0x12110000, 0x15001102, 0x15401002, 0x20000103, 0x26400000,
      0x27010A0C, 0x42201001, 0x5011012C].all (fun w => decide (decode [w] = .error .reservedField)) = true := by decide

theorem test_decode_refuses_wrong_lengths :
    decode [] = .error .wrongLength ∧ decode [0x30000000] = .error .wrongLength ∧
      decode [0x00000000, 0x00000000] = .error .wrongLength := by decide

theorem test_table_numbering :
    decodeTableWord 64 0x0000303930000000 = some (.pseed 12345) ∧ decodeTableWord 32 0x30000000 = some (.pseed 0) ∧
      decodeTableWord 32 0x29200003 = some (.fbrows 2 3 0 0 0 0 0 0 0 0) := by decide

/-! ### One step of each command on a small state -/

/-- A running unit: some Dots of the vectors, the L shape in F1, one occupied cell (3, 6) of bank 0, and arena 0 holding
`[(7, 31), (0, 31)]` at capacity 2. -/
def world : State :=
  writeDot 0 ⟨3, 6⟩ <| writeDot 1 ⟨8, 6⟩ <| writeDot 2 ⟨-1, 0⟩ <| writeDot 3 ⟨2, 4⟩ <| writeDot 4 ⟨7, 31⟩ <|
  writeDot 5 ⟨7, 10⟩ <| writeDot 6 ⟨-1, -1⟩ <| writeDot 8 ⟨-128, 127⟩ <| writeDot 10 ⟨1, -1⟩ <| writeDot 12 ⟨1, 0⟩ <|
  writeDot 13 ⟨-1, 0⟩ <| writeFig 1 ⟨0x002B, 0x23⟩ <|
    { State.reset with
      cells := [(51, 3)], ents := [(0, ⟨7, 31⟩), (16, ⟨0, 31⟩)],
      caps := State.reset.caps.set 0 2, counts := State.reset.counts.set 0 2 }

/-- The state after one step with these words on the command port. -/
def after (ws : List Word) (s : State) : State :=
  match step { s with cmdPort := ws } with
  | .next t => t
  | _ => s

/-- The responses after one step. -/
def answer (ws : List Word) (s : State) : List Word := (after ws s).responses

/-- The halted unit after the faulting command 0xF1450000 (45_system.md R191). -/
def halted : State := { world with fault := 3, fcmd := 0xF1450000 }

theorem test_nop : after [0x00000000] world = { world with responses := [0x00000000] } := by rfl
theorem test_nop_halted : answer [0x00000000] halted = [0x7F000000] := by decide
theorem test_stat_low : answer [0x01000001] halted = [0x00450000] := by decide
theorem test_stat_high : answer [0x01000002] halted = [0x000000F1] := by decide
theorem test_fld : readFig (after [0xF0230000] world) 0 = ⟨0, 0x23⟩ ∧ answer [0xF0230000] world = [0] := by decide
theorem test_fld_stray_bit :
    (after [0xF0F18000] world).fault = 3 ∧ (after [0xF0F18000] world).fcmd = 0xF0F18000 ∧
      answer [0xF0F18000] world = [0x03000000] := by decide
theorem test_fwid : answer [0x10100000] world = [2] := by decide
theorem test_fhgt : answer [0x11100000] world = [3] := by decide
theorem test_fgetb_bottom_right : answer [0x12100201] world = [1] := by decide
theorem test_fgetb_top_right : answer [0x12100001] world = [0] := by decide
theorem test_frot : readFig (after [0x13210000] world) 2 = ⟨0x003C, 0x32⟩ := by decide
theorem test_frot_in_place : readFig (after [0x13110000] (writeFig 1 ⟨0x126F, 0x35⟩ world)) 1 = ⟨0x621F, 0x53⟩ := by decide
theorem test_frd : answer [0x14100000] world = [0x0023002B] := by decide
theorem test_fpaint_accepts :
    let t := after [0x15001002] { world with paintAnswers := [true, true, true, true] }
    t.responses = [1] ∧ t.walk = none ∧ t.paintRequests = [⟨0, 3, 6, 2⟩, ⟨0, 3, 7, 2⟩, ⟨0, 3, 8, 2⟩, ⟨0, 4, 8, 2⟩] := by decide
theorem test_fpaint_rejects :
    let t := after [0x15001002] { world with paintAnswers := [true, true, false] }
    t.responses = [0] ∧ t.paintRequests.length = 3 := by decide
theorem test_fbset : (after [0x20000005] world).cells = [(51, 5)] := by decide
theorem test_fbset_off_grid : (after [0x20010003] world).cells = [(51, 3)] ∧ answer [0x20010003] world = [0] := by decide
theorem test_fbget : answer [0x21000000] world = [3] := by decide
theorem test_fbget_off_grid : answer [0x21020000] world = [0] := by decide
theorem test_fbcol_occupied : answer [0x22031000] world = [1] := by decide
theorem test_fbcol_off_grid : answer [0x22051000] world = [1] := by decide
theorem test_fbdraw : (after [0x23051005] world).cells = [(51, 3), (87, 5), (95, 5), (103, 5)] := by decide
theorem test_fbrowf : answer [0x24000006] world = [0] ∧ answer [0x24000028] world = [0] := by decide
theorem test_fbrowe : answer [0x25000007] world = [1] ∧ answer [0x25000028] world = [1] := by decide
theorem test_fbclr : (after [0x26000000] world).cells = [] ∧ (after [0x26100000] world).cells = [(51, 3)] := by decide
theorem test_fbclrr :
    (after [0x27000A0C] { world with cells := [(51, 3), (87, 5), (95, 5), (103, 5)] }).cells = [(51, 3), (103, 5)] := by decide
theorem test_fbclrr_empty_range : (after [0x27000606] world).cells = [(51, 3)] := by decide
theorem test_fbrend : (writeLeds (fun i => shownColour (cellRead world 0 (ledPos i).1 (ledPos i).2)) world).leds[52] =
    Config.palette 3 := by
  show (tabulate 256 _)[52] = _
  rw [tabulate_getElem]
  rfl
theorem test_fbrend_black_but_occupied :
    (after [0x28000000] { world with cells := [(51, 10)], leds := Vector.replicate 256 ⟨1, 1, 1⟩ }).leds[52] = ⟨0, 0, 0⟩ := by
  decide +kernel
theorem test_ledIdx : [ledIdx 0 0, ledIdx 7 0, ledIdx 2 1, ledIdx 3 6, ledIdx 4 17, ledIdx 7 31] = [7, 0, 10, 52, 140, 255] := by
  decide
theorem test_fbrows :
    (after [0x29200003, 0x80000001, 0, 0, 0, 0, 0, 0, 0xC0000000] world).cells =
      [(51, 3), (512, 3), (519, 3), (527, 3), (760, 3)] := by decide +kernel
theorem test_pseed : (after [0x30000000, 0x00003039] world).prng = 0x3039 := by decide
theorem test_pnext_zero : answer [0x31000000] world = [0] := by decide
theorem test_dld : readDot (after [0x40C0FF01] world) 12 = ⟨1, -1⟩ := by decide
theorem test_drd : answer [0x41800000] world = [0x00007F80] := by decide
theorem test_dmovw_wraps : readDot (after [0x42756000] (writeDot 5 ⟨0, 0⟩ world)) 7 = ⟨7, 31⟩ := by decide
theorem test_dmovw_off_grid : readDot (after [0x42988000] world) 9 = ⟨0, 30⟩ := by decide
theorem test_dtodir : readDot (after [0x43BA0000] world) 11 = ⟨0, -1⟩ := by decide
theorem test_dopp : answer [0x44CD0000] world = [1] ∧ answer [0x44CC0000] world = [0] := by decide
theorem test_dzero : answer [0x45500000] State.reset = [1] ∧ answer [0x45C00000] world = [0] := by decide
theorem test_ainit : readCap (after [0x5010012C] world) 1 = 256 := by decide
theorem test_apush_full : answer [0x51010000] world = [0] := by decide
theorem test_apush : readEnt (after [0x51010000] (writeCap 0 3 world)) 0 2 = ⟨8, 6⟩ := by decide
theorem test_arem : (after [0x52000000] world).ents = [(0, ⟨0, 31⟩), (16, ⟨7, 31⟩)] ∧
    readCount (after [0x52000000] world) 0 = 1 := by decide
theorem test_aget : readDot (after [0x530F0001] world) 15 = ⟨0, 31⟩ := by decide
theorem test_aget_not_live : answer [0x530F0002] world = [0] := by decide
theorem test_aset : (after [0x54010000] world).ents = [(0, ⟨8, 6⟩), (16, ⟨0, 31⟩)] := by decide
theorem test_acnt : answer [0x55000000] world = [2] := by decide

/-! ### Between the commands -/

theorem test_withFetchWord_runs_first :
    (match step (State.reset.withFetchWord 64 0x0000303930000000) with
      | .next t => decide (t.prng = 0x3039)
      | _ => false) = true := by decide
theorem test_incomplete_command_waits : (after [0x30000000] world).asm = [0x30000000] ∧ answer [0x30000000] world = [] := by decide
theorem test_resumed_command : (after [0x00003039] { world with asm := [0x30000000] }).prng = 0x3039 := by decide
theorem test_faulting_command_consumes_payload :
    (after [0x30000001, 0x3039, 0x00000000] world).cmdPort = [0x00000000] ∧
      (after [0x30000001, 0x3039, 0x00000000] world).fcmd = 0x30000001 := by decide
theorem test_fromStr : fromStr "# \n# \n##".toList = some ⟨0x002B, 0x23⟩ := by decide
theorem test_assembleText :
    assembleText "DLD D2, #-1, #0 ; a comment\nFLDS F1, \"# \\n# \\n##\"".toList = some [0x402000FF, 0xF123002B] := by decide

/-! ### Witnesses: states and operands that meet all hypotheses of a statement together, for each of its clauses -/

/-- `world` with words on the command port. -/
def sent (ws : List Word) : State := { world with cmdPort := ws }

/-- An FPAINT of the L shape that waits after two acceptances. -/
def waiting : State := after [0x15001002] { world with paintAnswers := [true, true] }

/-- A table over the sixteen numbers proves a claim about every register. -/
theorem forall_regNo {P : RegNo → Prop} (h : ∀ k : Fin 16, P (BitVec.ofFin k)) : ∀ r, P r := fun r => h r.toFin

theorem world_inv (ws : List Word) (as : List Bool) : Inv { world with cmdPort := ws, paintAnswers := as } where
  figsValid := forall_regNo (show ∀ k : Fin 16, (readFig world (BitVec.ofFin k)).valid = true by decide)
  countLeCap := forall_regNo (show ∀ k : Fin 16, readCount world (BitVec.ofFin k) ≤ readCap world (BitVec.ofFin k) by decide)
  capLe := forall_regNo (show ∀ k : Fin 16, readCap world (BitVec.ofFin k) ≤ 256 by decide)
  faultLegal := show world.fault.toNat ≤ 3 by decide
  fcmdRunning := fun _ => rfl
  cellsWf := show Memory.wf 0 1024 world.cells = true by decide
  entsWf := show Memory.wf ⟨0, 0⟩ 4096 world.ents = true by decide
  asmPartial := rfl
  walkWaits := by intro w h; cases h

theorem witness_DecodeReadsEncodedCommand :
    (Instr.fbrows 3 255 0 1 2 3 4 5 6 0xFFFFFFFF).wellFormed = true ∧ (Instr.fld 15 0xFF 0xFFFF).wellFormed = true := by decide
theorem witness_DecodedWordsAreTheEncoding : decode [0x153FF0FF] = .ok (.fpaint 3 15 15 255) := by decide
theorem witness_IllegalOpcodesFault :
    [(0x02 : Nat), 0x0F, 0x16, 0x1F, 0x2A, 0x2F, 0x32, 0x3F, 0x46, 0x4F, 0x56, 0xEF].all illegalByte = true ∧
    [(0x01 : Nat), 0x10, 0x15, 0x20, 0x29, 0x30, 0x31, 0x40, 0x45, 0x50, 0x55, 0xF0, 0xFF].all (fun n => !illegalByte n) = true ∧
    commandLength 0x02FFFFFF = 1 ∧ (sent [0x02FFFFFF, 0]).walk = none ∧ (sent [0x02FFFFFF, 0]).fault = 0 ∧
    illegalByte (opOf 0x02FFFFFF).toNat = true ∧
    (sent [0x02FFFFFF, 0]).asm ++ (sent [0x02FFFFFF, 0]).cmdPort = [0x02FFFFFF, 0] := by decide
theorem witness_ReservedFieldsFault_reserved_bit :
    reservedWrong 0x30000001 ∧ [(0x30000001 : Word), 5].length = commandLength 0x30000001 ∧
    illegalByte (opOf 0x30000001).toNat = false ∧ (sent [0x30000001, 5, 0]).walk = none ∧ (sent [0x30000001, 5, 0]).fault = 0 ∧
    (sent [0x30000001, 5, 0]).asm ++ (sent [0x30000001, 5, 0]).cmdPort = [0x30000001, 5] ++ [0] := by
  unfold reservedWrong; decide
theorem witness_ReservedFieldsFault_bank : reservedWrong 0x26400000 ∧ ¬reservedWrong 0x26300000 := by
  unfold reservedWrong; decide
theorem witness_ReservedFieldsFault_selector : reservedWrong 0x01000003 ∧ ¬reservedWrong 0x01000002 := by
  unfold reservedWrong; decide
theorem witness_StreamSplitsOneWay_lengths :
    commandLength 0x29F00000 = 9 ∧ commandLength 0x30FFFFFF = 2 ∧ commandLength 0x28000000 = 1 ∧ commandLength 0x2A000000 = 1 ∧
    commandLength 0x2F000000 = 1 ∧ commandLength 0x31000000 = 1 ∧ commandLength 0xFFFFFFFF = 1 := by decide
theorem witness_StreamSplitsOneWay_grouping :
    groupCommands 4 [0x30000000, 5, 0, 0x29000000] = ([[0x30000000, 5], [0]], [0x29000000]) ∧
    takeCommand [0x29000000, 1, 2, 3, 4, 5, 6, 7] = none ∧
    takeCommand [0x29000000, 1, 2, 3, 4, 5, 6, 7, 8] = some ([0x29000000, 1, 2, 3, 4, 5, 6, 7, 8], []) := by decide
theorem witness_StreamSplitsOneWay_step :
    (sent [0x29F00000, 1, 2, 3, 4, 5, 6, 7, 8, 9]).walk = none ∧
    (sent [0x29F00000, 1, 2, 3, 4, 5, 6, 7, 8, 9]).asm ++ (sent [0x29F00000, 1, 2, 3, 4, 5, 6, 7, 8, 9]).cmdPort =
      [0x29F00000, 1, 2, 3, 4, 5, 6, 7, 8] ++ [9] ∧ WholeCommand [0x29F00000, 1, 2, 3, 4, 5, 6, 7, 8] ∧
    (after [0x29F00000, 1, 2, 3, 4, 5, 6, 7, 8, 9] world).cmdPort = [9] :=
  ⟨rfl, rfl, ⟨0x29F00000, [1, 2, 3, 4, 5, 6, 7, 8], rfl, by decide⟩, by decide⟩
theorem witness_StepRunsDecodedCommand :
    (sent [0x30000000, 7, 0]).walk = none ∧
    (sent [0x30000000, 7, 0]).asm ++ (sent [0x30000000, 7, 0]).cmdPort = [0x30000000, 7] ++ [0] ∧
    decode [0x30000000, 7] = .ok (.pseed 7) := by decide
theorem witness_IncompleteCommandWaits :
    (sent [0x30000000]).walk = none ∧ PartialCommand ((sent [0x30000000]).asm ++ (sent [0x30000000]).cmdPort) ∧
    PartialCommand [] :=
  ⟨rfl, .inr ⟨0x30000000, [], rfl, by decide⟩, .inl rfl⟩
theorem witness_StepKeepsInv : Inv (sent [0x13210000]) ∧ ∃ t, step (sent [0x13210000]) = .next t := ⟨world_inv _ _, _, rfl⟩
theorem witness_ResetMeetsInv :
    Unspecified.wf ⟨[(51, 3), (1023, 255)], Vector.replicate 256 ⟨255, 0, 0⟩, 7, [(4095, ⟨-1, 1⟩)]⟩ = true := by decide
theorem witness_HaltedUnitRefuses :
    halted.walk = none ∧ halted.fault ≠ 0 ∧
    halted.asm ++ { halted with cmdPort := [0x01000003, 0] }.cmdPort = [0x01000003] ++ [0] ∧ WholeCommand [0x01000003] ∧
    decode [0x01000003] = .error .reservedField :=
  ⟨rfl, by decide, by decide, ⟨0x01000003, [], rfl, by decide⟩, by decide⟩
theorem witness_StatReadsFaultRegisters : (0 : Byte).toNat ≤ 2 ∧ (1 : Byte).toNat ≤ 2 ∧ (2 : Byte).toNat ≤ 2 := by decide
theorem witness_HaltedUntilReset :
    halted.fault ≠ 0 ∧ halted.walk = none ∧ ∃ t, core.run 2 { halted with cmdPort := [0x01000001, 0x40000000] } = .next t :=
  ⟨by decide, rfl, _, rfl⟩
theorem witness_FaultWritesOnlyFaultRegisters :
    (match step (sent [0xF0450000]) with | .next t => decide (t.fault ≠ (sent [0xF0450000]).fault) | _ => false) = true := by
  decide
theorem witness_FaultTransfersControlNowhere :
    ((match step (sent [0xF0450000, 0x01000000, 0x40000000]), step (sent [0xF0450000, 0x30000000, 7, 0]) with
      | .next t, .next t' => decide (t.fault ≠ (sent [0xF0450000, 0x01000000, 0x40000000]).fault ∧
          t.cmdPort = [0x01000000] ++ [0x40000000] ∧ t'.fault ≠ (sent [0xF0450000, 0x30000000, 7, 0]).fault ∧
          t'.cmdPort = [0x30000000, 7] ++ [0])
      | _, _ => false) = true) ∧
    WholeCommand [0x01000000] ∧ decode [0x01000000] = .ok (.stat 0) ∧ WholeCommand [0x30000000, 7] ∧
    decode [0x30000000, 7] = .ok (.pseed 7) :=
  ⟨by decide, ⟨0x01000000, [], rfl, by decide⟩, by decide, ⟨0x30000000, [7], rfl, by decide⟩, by decide⟩
theorem witness_FaultFreeCommandsNeverFault :
    (Instr.fld 0 0x44 0xFFFF).faultFree = true ∧ (Instr.stat 2).faultFree = true ∧ world.fault = 0 := by decide
theorem witness_FaultFreeStreamsAreAnswered :
    let is := [Instr.fld 2 0x11 1, .fpaint 3 0 1 9]
    let s := { world with cmdPort := is.flatMap encode, paintAnswers := List.replicate 32 true }
    Inv s ∧ s.fault = 0 ∧ s.walk = none ∧ s.asm = [] ∧ s.cmdPort = is.flatMap encode ∧ (∀ i ∈ is, i.faultFree = true) ∧
      16 * is.length ≤ s.paintAnswers.length :=
  ⟨world_inv _ _, rfl, rfl, rfl, rfl, by decide, by decide⟩
theorem witness_OneResponsePerCommand : world.walk = none := rfl
theorem witness_NopOnlyResponds :
    world.fault = 0 ∧ halted.fault ≠ 0 ∧ opOf 0x00000000 = 0x00 ∧ opOf 0x00FFFFFF = 0x00 ∧ (sent [0x00FFFFFF, 0]).walk = none ∧
    (sent [0x00FFFFFF, 0]).fault = 0 ∧ (0x00FFFFFF : Word) ≠ 0 ∧
    (sent [0x00FFFFFF, 0]).asm ++ (sent [0x00FFFFFF, 0]).cmdPort = 0x00FFFFFF :: [0] := by decide
theorem witness_FldLoadsValidFigure :
    world.fault = 0 ∧ Figure.valid ⟨0xFFFF, 0x44⟩ = true ∧ Figure.valid ⟨0x7FFF, 0xF1⟩ = true ∧ Figure.valid ⟨0, 0⟩ = true := by
  decide
theorem witness_FldInvalidFigureFaults :
    world.fault = 0 ∧ 16 < ((0x29 : Byte).toNat / 16) * ((0x29 : Byte).toNat % 16) ∧
    (((0xF1 : Byte).toNat / 16) * ((0xF1 : Byte).toNat % 16) ≤ 15 ∧ (0x8000 : BitVec 16).getLsbD 15 = true) := by decide
theorem witness_FigureReadBacks : world.fault = 0 := rfl
theorem witness_FgetbReadsPixel : world.fault = 0 ∧ (readFig world 1).bit 1 2 = true ∧ (readFig world 1).bit 1 0 = false := by decide
theorem witness_FrotTurnsClockwise : world.fault = 0 ∧ (readFig world 1).valid = true ∧ (readFig world 1).width = 2 := by decide
theorem witness_FourRotationsAreIdentity : Figure.valid ⟨0x126F, 0x35⟩ = true := by decide
theorem witness_RotationTurnsAndKeepsBits : Figure.valid ⟨0x126F, 0x35⟩ = true := by decide
theorem witness_FpaintOffersEveryPixel :
    let s := { world with paintAnswers := [true, true, true, true, false] }
    s.fault = 0 ∧ (3 : RegNo).toNat ≤ 3 ∧ s.paintAnswers = List.replicate (readFig s 1).pixels.length true ++ [false] := by decide
theorem witness_FpaintStopsAtRejection :
    let s := { world with paintAnswers := [true, true, true, false, true] }
    s.fault = 0 ∧ (3 : RegNo).toNat ≤ 3 ∧ 3 < (readFig s 1).pixels.length ∧
      s.paintAnswers = List.replicate 3 true ++ false :: [true] := by decide
theorem witness_FpaintWaitsForAnswer :
    let s := { world with paintAnswers := [true, true, true] }
    s.fault = 0 ∧ (0 : RegNo).toNat ≤ 3 ∧ 3 < (readFig s 1).pixels.length ∧ s.paintAnswers = List.replicate 3 true := by decide
theorem witness_FpaintResumesWhereItWaited :
    (match exec (.fpaint 0 0 1 2) { world with paintAnswers := [true, true] } with
      | .next t => decide (t.walk = some ⟨0, 0, 1, 2, 2⟩)
      | _ => false) = true ∧ world.fault = 0 ∧ world.walk = none := by decide
theorem witness_waiting : waiting.walk = some ⟨0, 0, 1, 2, 2⟩ ∧ waiting.responses = [] ∧ waiting.paintRequests.length = 3 := by decide
theorem witness_FigureTextRoundTrip : fromStr "  #\n  #\n  #\n# #\n###".toList = some ⟨0x126F, 0x35⟩ := by decide
theorem witness_FigureTextRoundTrip_lines :
    LiteralLines [List.replicate 15 '#'] 15 ∧ LiteralLines (List.replicate 15 ['#']) 1 ∧
    LiteralLines (List.replicate 4 ['#', ' ', '#', '#']) 4 := by
  refine ⟨⟨?_, ?_, ?_, ?_, ?_, ?_⟩, ⟨?_, ?_, ?_, ?_, ?_, ?_⟩, ?_, ?_, ?_, ?_, ?_, ?_⟩ <;> simp
theorem witness_FigureTextRoundTrip_rejected :
    ["".toList, "#\n".toList, "##\n#".toList, "a".toList, List.replicate 16 '#', "######\n######\n######".toList].all
      (fun text => decide (fromStr text = none)) = true := by decide
theorem witness_AssemblerReadsWrittenCommand :
    (Instr.aset 15 14 255).wellFormed = true ∧ assemble "FBCLRROW" [.bank 3, .imm 31] = some (.fbclrr 3 31 32) ∧
    assemble "FBCLRROW" [.bank 0, .imm 0] = some (.fbclrr 0 0 1) ∧
    assemble "FLDS" [.fig 15, .text ['#']] = some (.fld 15 0x11 1) ∧ fromStr ['#'] = some ⟨1, 0x11⟩ ∧
    fromStr ['\n'] = none ∧ assemble "FLDS" [.fig 15, .text ['\n']] = none := by decide
theorem witness_FbsetWritesOneCell :
    world.fault = 0 ∧ (3 : RegNo).toNat ≤ 3 ∧ Memory.wf 0 1024 world.cells = true ∧
    onGrid (posX world 4) (posY world 4) = true ∧ onGrid (posX world 1) (posY world 1) = false := by decide
theorem witness_FbgetReadsOneCell :
    world.fault = 0 ∧ (0 : RegNo).toNat ≤ 3 ∧ posX world 4 = 7 ∧ posY world 4 = 31 ∧ posX world 1 = 8 := by decide
theorem witness_FbcolFindsCollisions :
    world.fault = 0 ∧ (0 : RegNo).toNat ≤ 3 ∧ collides world 0 2 4 (readFig world 1) = true ∧
    collides world 0 3 7 (readFig world 1) = false := by decide
theorem witness_FbdrawCompositesFigure :
    world.fault = 0 ∧ (0 : RegNo).toNat ≤ 3 ∧ Memory.wf 0 1024 world.cells = true ∧ (readFig world 1).bit 0 2 = true ∧
    onGrid (posX world 5 + 0) (posY world 5 + 2) = true ∧ onGrid (posX world 5 + 1) (posY world 5 + 2) = false := by decide
theorem witness_DrawAndCollideTogether :
    let s := writeDot 7 ⟨3, 7⟩ world
    s.fault = 0 ∧ (0 : RegNo).toNat ≤ 3 ∧ Memory.wf 0 1024 s.cells = true ∧ (readFig s 1).bit 0 0 = true ∧
    (match exec (.fbcol 0 7 1) s with | .next v => decide (v.responses = s.responses ++ [responseWord 0 0]) | _ => false) = true := by
  decide
theorem witness_RowTestsReadRows : world.fault = 0 ∧ (3 : RegNo).toNat ≤ 3 ∧ (31 : Byte).toNat < 32 ∧ 32 ≤ (32 : Byte).toNat := by
  decide
theorem witness_FbclrClearsBank : world.fault = 0 ∧ (0 : RegNo).toNat ≤ 3 ∧ Memory.wf 0 1024 world.cells = true := by decide
theorem witness_FbclrrClearsRows :
    world.fault = 0 ∧ (0 : RegNo).toNat ≤ 3 ∧ Memory.wf 0 1024 world.cells = true ∧ ((6 : Byte).toNat : Int) ≤ 6 ∧
    (6 : Int) < ((255 : Byte).toNat : Int) := by decide
theorem witness_FbrendShowsEveryCell : world.fault = 0 ∧ (3 : RegNo).toNat ≤ 3 := by decide
theorem witness_LedIndexIsBijection : 7 < 8 ∧ 31 < 32 ∧ 30 % 2 = 0 ∧ 31 % 2 = 1 ∧ 255 < 256 := by decide
theorem witness_FrameBufferLaws :
    world.fault = 0 ∧ (0 : RegNo).toNat ≤ 3 ∧ Memory.wf 0 1024 world.cells = true ∧ onGrid (posX world 4) (posY world 4) = true := by
  decide
/-- Every colour 1 to 9 is shown unlike background, by the law of the palette (R9). -/
theorem witness_FrameBufferLaws_colour : shownColour 9 ≠ Config.palette 0 := by
  have h := (Config.paletteColour 8).isLt
  intro e
  have e' : Config.colour ((Config.paletteColour 8).val + 1) = Config.colour 0 := e
  have hr := congrArg (fun c => c.r.toNat) e'
  have hg := congrArg (fun c => c.g.toNat) e'
  have hb := congrArg (fun c => c.b.toNat) e'
  simp only [Config.colour, BitVec.toNat_ofNat] at hr hg hb
  omega
theorem witness_FbrowsFillsBank : world.fault = 0 ∧ (3 : RegNo).toNat ≤ 3 ∧ Memory.wf 0 1024 world.cells = true := by decide
theorem witness_PseedStoresAndPnextSteps : world.fault = 0 ∧ (1 : Byte) ≠ 0 ∧ (255 : Byte) ≠ 0 := by decide
theorem witness_PrngLaws : world.fault = 0 ∧ (∀ m ∈ [(7 : Byte), 1, 255], m ≠ 0) := by decide
theorem witness_DldLoadsAndDrdReads : world.fault = 0 := rfl
theorem witness_DmovwWraps : world.fault = 0 := rfl
theorem witness_DtodirReduces : world.fault = 0 := rfl
theorem witness_DoppAndDzeroTest : world.fault = 0 := rfl
theorem witness_DotLaws :
    world.fault = 0 ∧ onGrid (⟨7, 31⟩ : Dot).x.toInt (⟨7, 31⟩ : Dot).y.toInt = true ∧
    (⟨1, 0⟩ : Dot) ∈ [(⟨1, 0⟩ : Dot), ⟨-1, 0⟩, ⟨0, 1⟩, ⟨0, -1⟩] ∧ (⟨1, 0⟩ : Dot).opposite ⟨-1, 0⟩ = true := by decide
theorem witness_AinitSetsCapacity : world.fault = 0 := rfl
theorem witness_ApushAppendsOrDrops :
    world.fault = 0 ∧ Memory.wf ⟨0, 0⟩ 4096 world.ents = true ∧ readCap world 0 ≤ readCount world 0 ∧
    readCount (writeCap 0 3 world) 0 < readCap (writeCap 0 3 world) 0 := by decide
theorem witness_AremSwapsWithLast :
    world.fault = 0 ∧ Memory.wf ⟨0, 0⟩ 4096 world.ents = true ∧ (1 : Byte).toNat < readCount world 0 ∧
    readCount world 0 ≤ (2 : Byte).toNat := by decide
theorem witness_AgetAsetAcntAccess :
    world.fault = 0 ∧ Memory.wf ⟨0, 0⟩ 4096 world.ents = true ∧ readCount world 0 ≤ 256 ∧ (1 : Byte).toNat < readCount world 0 ∧
    readCount world 0 ≤ (2 : Byte).toNat := by decide
theorem witness_ArenaLaws :
    world.fault = 0 ∧ Memory.wf ⟨0, 0⟩ 4096 world.ents = true ∧ (1 : Byte).toNat < readCount world 0 ∧
    readCount world 0 = readCap world 0 ∧ (∀ k : Fin 16, readCount world (BitVec.ofFin k) ≤ readCap world (BitVec.ofFin k)) ∧
    (∃ t, exec (.arem 0 0) world = .next t ∧ readCount t 0 ≠ readCount world 0) ∧
    (∃ t, exec (.ainit 0 9) world = .next t ∧ readCount t 0 ≠ readCount world 0) ∧
    (∃ t, exec (.apush 0 0) (writeCap 0 3 world) = .next t ∧ readCount t 0 ≠ readCount world 0) :=
  ⟨by decide, by decide, by decide, by decide, by decide, ⟨_, rfl, by decide⟩, ⟨_, rfl, by decide⟩, ⟨_, rfl, by decide⟩⟩

end Sys2Proof.Tests
end

section
/-! The laws of the OPEN parameters (00_scope.md R9). The colours with channels at most 12 are the numbers below `13 ^ 3`, read by
their base-13 digits; the palette gives each index such a number, and 0 to index 0 alone. -/

namespace Sys2Proof.Config

/-- The first digit is bounded only because the number has three digits. -/
theorem colour_r_toNat {n : Nat} (hn : n < 13 ^ 3) : (colour n).r.toNat = n / 169 := by
  simp only [colour, BitVec.toNat_ofNat]
  omega

@[simp] theorem colour_g_toNat (n : Nat) : (colour n).g.toNat = n / 13 % 13 := by
  simp only [colour, BitVec.toNat_ofNat]
  omega

@[simp] theorem colour_b_toNat (n : Nat) : (colour n).b.toNat = n % 13 := by
  simp only [colour, BitVec.toNat_ofNat]
  omega

theorem colour_channels_le {n : Nat} (hn : n < 13 ^ 3) :
    (colour n).r.toNat ≤ 12 ∧ (colour n).g.toNat ≤ 12 ∧ (colour n).b.toNat ≤ 12 := by
  rw [colour_r_toNat hn, colour_g_toNat, colour_b_toNat]
  omega

/-- Only number 0 is black: a colour's channels are the digits of its number. -/
theorem colour_eq_black_iff {n : Nat} (hn : n < 13 ^ 3) : colour n = colour 0 ↔ n = 0 := by
  constructor
  · intro h
    have hr := congrArg (·.r.toNat) h
    have hg := congrArg (·.g.toNat) h
    have hb := congrArg (·.b.toNat) h
    simp only [colour_r_toNat hn, colour_r_toNat (n := 0) (by decide), colour_g_toNat, colour_b_toNat] at hr hg hb
    omega
  · rintro rfl
    rfl

/-- All that R9 says of the palette, as a fact about numbers. -/
theorem exists_palette_eq_colour (i : Fin 10) : ∃ n < 13 ^ 3, palette i = colour n ∧ (n = 0 ↔ i = 0) := by
  unfold palette
  split
  next h0 => exact ⟨0, by decide, rfl, iff_of_true rfl (Fin.ext h0)⟩
  next h0 =>
    have hlt := (paletteColour ⟨i.val - 1, by omega⟩).isLt
    exact ⟨_, by omega, rfl, iff_of_false (Nat.succ_ne_zero _) (mt (congrArg Fin.val) h0)⟩

theorem palette_zero : palette 0 = colour 0 := rfl

theorem palette_channels_le (i : Fin 10) :
    (palette i).r.toNat ≤ 12 ∧ (palette i).g.toNat ≤ 12 ∧ (palette i).b.toNat ≤ 12 := by
  obtain ⟨n, hn, hpal, -⟩ := exists_palette_eq_colour i
  exact hpal ▸ colour_channels_le hn

theorem palette_eq_background_iff (i : Fin 10) : palette i = palette 0 ↔ i = 0 := by
  obtain ⟨n, hn, hpal, hzero⟩ := exists_palette_eq_colour i
  rw [hpal, palette_zero, colour_eq_black_iff hn, hzero]

end Sys2Proof.Config

namespace Sys2Proof.Machine

/-- The law of `PRNG_RANGE` (R9): the open function answers in `Fin max`. -/
theorem prngRange_lt (st : Word) {max : Nat} (hmax : 1 ≤ max) : prngRange st max < max := by
  cases max with
  | zero => contradiction
  | succ m => exact (Config.prngRange st m).isLt

/-- Settles O45, from the digits of the palette's colour numbers and the type of the open draw. -/
theorem openParameterLaws : Obligations.OpenParameterLaws :=
  ⟨Config.palette_channels_le, rfl, fun i => mt (Config.palette_eq_background_iff i).mp,
    fun st _ hmax => prngRange_lt st hmax⟩

end Sys2Proof.Machine
end

section
/-! The invariant of the unit (10_state.md R24, R31, R32, R35; 44_arena.md R170): first that each operation on the state keeps
it, then that each command does, being made of these operations, then that a step does. A command needs a state without a walk
and with an empty assembler, which is what the fetch leaves it. -/

namespace Sys2Proof

/-- A pixel of a Figure lands inside the rotated Figure's rectangle (R106). -/
theorem rotatedIndex_lt {w h : Nat} {p : Nat × Nat} (hc : p.1 < w) (hr : p.2 < h) : rotatedIndex w h p < w * h :=
  calc (w - 1 - p.1) * h + p.2
    _ < (w - 1 - p.1 + 1) * h := by rw [Nat.succ_mul]; omega
    _ ≤ w * h := Nat.mul_le_mul_right h (by omega)

/-- A rotation keeps validity (R109 c): every bit it sets lies below `W*H`, which it keeps. -/
theorem Figure.valid_rotate {f : Figure} (hf : f.valid = true) : f.rotate.valid = true := by
  rw [Figure.valid_iff] at hf ⊢
  rw [Figure.rotate_width, Figure.rotate_height, Nat.mul_comm]
  refine ⟨hf.1, fun k hk => ?_⟩
  have hmiss : ∀ p ∈ f.pixels, rotatedIndex f.width f.height p ≠ k := fun p hp => by
    have hin := Figure.bit_bounds (Figure.mem_pixels.1 hp)
    have hlt := rotatedIndex_lt hin.1 hin.2
    omega
  rw [Figure.rotate_getLsbD, List.any_eq_false.2 (by simpa using hmiss), Bool.and_false]

end Sys2Proof

namespace Sys2Proof.Machine

section
variable {s : State} (hs : Inv s)
include hs

/-! ### The operations on the state -/

theorem inv_sendResponse (status : Byte) (v : Value) : Inv (sendResponse status v s) := { hs with }

theorem inv_respond (v : Value) : Inv (respond v s) := inv_sendResponse hs _ v

theorem inv_refuse : Inv (refuse s) := inv_sendResponse hs _ _

theorem inv_writeDot (r : RegNo) (v : Dot) : Inv (writeDot r v s) := { hs with }

theorem inv_writePrng (v : Word) : Inv (writePrng v s) := { hs with }

theorem inv_writeLeds (f : Nat → Rgb) : Inv (writeLeds f s) := { hs with }

/-- A walk waits at a pixel of a Figure register, so a register may be written only while there is none. -/
theorem inv_writeFig (hw : s.walk = none) (r : RegNo) {v : Figure} (hv : v.valid = true) : Inv (writeFig r v s) :=
  { hs with
    figsValid := fun r' => by
      rw [readFig_writeFig]
      split
      · exact hv
      · exact hs.figsValid r'
    walkWaits := by simp [hw] }

theorem inv_writeCount (a : RegNo) {n : Nat} (hn : n ≤ readCap s a) : Inv (writeCount a n s) :=
  { hs with
    countLeCap := fun a' => by
      rw [readCount_writeCount]
      split
      · subst a'; exact hn
      · exact hs.countLeCap a' }

/-- AINIT's two writes together; after the first alone the old count may be above the new capacity. -/
theorem inv_writeCount_writeCap (a : RegNo) {n : Nat} (hn : n ≤ 256) : Inv (writeCount a 0 (writeCap a n s)) :=
  { hs with
    countLeCap := fun a' => by
      change readCount (writeCount a 0 s) a' ≤ readCap (writeCap a n s) a'
      rw [readCount_writeCount, readCap_writeCap]
      split
      · exact Nat.zero_le n
      · exact hs.countLeCap a'
    capLe := fun a' => by
      change readCap (writeCap a n s) a' ≤ 256
      rw [readCap_writeCap]
      split
      · exact hn
      · exact hs.capLe a' }

theorem inv_writeEnt (a : RegNo) {k : Nat} (hk : k < 256) (v : Dot) : Inv (writeEnt a k v s) :=
  { hs with entsWf := Memory.wf_write v (entAddr_lt hk) hs.entsWf }

theorem inv_swapEnts (a : RegNo) {k l : Nat} (hk : k < 256) (hl : l < 256) : Inv (swapEnts a k l s) :=
  inv_writeEnt (inv_writeEnt hs a hk _) a hl _

/-- Live slots are physical slots (R170). -/
theorem readCount_le (a : RegNo) : readCount s a ≤ 256 := (hs.countLeCap a).trans (hs.capLe a)

/-- An operation that changes the cells alone need only keep their canonical form. -/
theorem inv_of_cells {t : State} (ht : ∃ m, t = { s with cells := m }) (hwf : Memory.wf 0 1024 t.cells = true) : Inv t := by
  obtain ⟨m, rfl⟩ := ht
  exact { hs with cellsWf := hwf }

theorem inv_cellWrite {b : RegNo} (hb : bankOk b = true) (x y : Int) (v : Byte) : Inv (cellWrite b x y v s) :=
  inv_of_cells hs (cellWrite_fields b x y v s) (cells_wf_cellWrite x y v hb hs.cellsWf)

theorem inv_drawFigure {b : RegNo} (hb : bankOk b = true) (x y : Int) (f : Figure) (c : Byte) :
    Inv (drawFigure b x y f c s) :=
  inv_of_cells hs (drawFigure_fields b x y f c s) (cells_wf_drawFigure x y f c hb hs.cellsWf)

theorem inv_cellFillRows {b : RegNo} (hb : bankOk b = true) (y0 : Nat) {y1 : Nat} (h1 : y1 ≤ 32) (f : Nat → Nat → Byte) :
    Inv (cellFillRows b y0 y1 f s) :=
  inv_of_cells hs ⟨_, rfl⟩ (cells_wf_cellFillRows y0 y1 f hb h1 hs.cellsWf)

/-! ### Faults, refusals and the taking of words -/

/-- A paint walk belongs to a running unit, so a fault may be taken only while there is none. -/
theorem inv_takeFault (hw : s.walk = none) (c : FaultCause) (w : Word) : Inv (takeFault c w s) :=
  { hs with
    faultLegal := code_le c
    fcmdRunning := fun h => absurd h (code_ne_zero c)
    walkWaits := by simp [hw] }

theorem inv_faultOrRefuse (hw : s.walk = none) (c : FaultCause) (w : Word) : Inv (faultOrRefuse c w s) := by
  rcases faultOrRefuse_cases c w s with ⟨-, h⟩ | ⟨-, h⟩ <;> rw [h]
  · exact inv_refuse hs
  · exact inv_takeFault hs hw c w

/-- A checked command keeps the invariant if its effect does, on a running unit and for operands with a legal encoding. -/
theorem inv_checked (hw : s.walk = none) {i : Instr} {e : State}
    (he : s.fault = 0 → i.wellFormed = true → Inv e) : Inv (checked i s e) := by
  rcases checked_cases i s e with ⟨-, h⟩ | ⟨-, -, h⟩ | ⟨hrun, hi, h⟩ <;> rw [h]
  · exact inv_refuse hs
  · exact inv_takeFault hs hw _ _
  · exact he hrun hi

theorem inv_afterTaking (hw : s.walk = none) (rest : List Word) : Inv (afterTaking rest s) :=
  { hs with
    asmPartial := rfl
    walkWaits := by simp [hw] }

theorem inv_gather (hw : s.walk = none) (hnone : takeCommand (s.asm ++ s.cmdPort) = none) : Inv (gather s) :=
  { hs with
    asmPartial := hnone
    walkWaits := by simp [hw] }

/-! ### The paint walk -/

/-- Advancing a walk keeps the invariant if a walk that waits on does so at one of the Figure's pixels. -/
theorem inv_paintAdvance {w : PaintWalk} {run : PaintRun} (hrun : s.fault = 0) (hasm : s.asm = [])
    (hb : bankOk w.bank = true)
    (hpos : run.verdict = none → w.pos + run.accepted < (readFig s w.fig).pixels.length) (first : List (Nat × Nat)) :
    Inv (paintAdvance w first run s) := by
  rw [paintAdvance_eq]
  refine { hs with walkWaits := fun w' hw' => ?_ }
  cases hv : run.verdict with
  | some ok => simp [hv] at hw'
  | none =>
    simp only [hv, Option.some.injEq] at hw'
    subst w'
    exact ⟨hrun, hasm, hb, hpos hv⟩

theorem inv_paintStart {w : PaintWalk} (hrun : s.fault = 0) (hasm : s.asm = []) (hb : bankOk w.bank = true)
    (hpos : w.pos = 0) : Inv (paintStart w s) := by
  refine inv_paintAdvance hs hrun hasm hb (fun hv => ?_) _
  obtain ⟨-, hacc, hlt, -⟩ := paintSettle_waits hv
  rw [hpos, hacc, Nat.zero_add]
  exact hlt

theorem inv_paintResume {w : PaintWalk} (hw : s.walk = some w) : Inv (paintResume w s) := by
  obtain ⟨hrun, hasm, hb, -⟩ := hs.walkWaits w hw
  refine inv_paintAdvance hs hrun hasm hb (fun hv => ?_) _
  obtain ⟨-, hacc, hlt, -⟩ := paintSettle_waits hv
  rw [List.length_drop] at hlt
  omega

/-! ### The commands -/

/-- Every command keeps the invariant, on a unit that has just taken its words. -/
theorem inv_exec {i : Instr} {t : State} (hw : s.walk = none) (hasm : s.asm = []) (h : exec i s = .next t) : Inv t := by
  cases i <;> cases h
  case stat sel =>
    split
    · exact inv_respond hs _
    · exact inv_faultOrRefuse hs hw _ _
  all_goals refine inv_checked hs hw fun hrun hi => ?_
  case nop | fwid | fhgt | fgetb | frd | fbget | fbcol | fbrowf | fbrowe | drd | dopp | dzero | acnt =>
    exact inv_respond hs _
  case dld | dmovw | dtodir => exact inv_respond (inv_writeDot hs _ _) _
  case pseed | pnext => exact inv_respond (inv_writePrng hs _) _
  case fbrend => exact inv_respond (inv_writeLeds hs _) _
  case fld =>
    split
    · exact inv_respond (inv_writeFig hs hw _ ‹_›) _
    · exact inv_takeFault hs hw _ _
  case frot d f => exact inv_respond (inv_writeFig hs hw _ (Figure.valid_rotate (hs.figsValid f))) _
  case fpaint => exact inv_paintStart hs hrun hasm hi rfl
  case fbset => exact inv_respond (inv_cellWrite hs hi _ _ _) _
  case fbdraw => exact inv_respond (inv_drawFigure hs hi _ _ _ _) _
  case fbclr | fbrows => exact inv_respond (inv_cellFillRows hs hi _ (Nat.le_refl 32) _) _
  case fbclrr => exact inv_respond (inv_cellFillRows hs hi _ (Nat.min_le_right _ 32) _) _
  case ainit => exact inv_respond (inv_writeCount_writeCap hs _ (Nat.min_le_right _ 256)) _
  case apush a ds =>
    split
    next hroom =>
      have hslot : readCount s a < 256 := hroom.trans_le (hs.capLe a)
      exact inv_respond (inv_writeCount (inv_writeEnt hs a hslot _) a hroom) _
    next => exact inv_respond hs _
  case arem a k =>
    split
    next hlive =>
      have hcount := readCount_le hs a
      have hcap : readCount s a - 1 ≤ readCap s a := (Nat.sub_le _ 1).trans (hs.countLeCap a)
      exact inv_respond (inv_writeCount (inv_swapEnts hs a k.isLt (by omega)) a hcap) _
    next => exact inv_respond hs _
  case aget =>
    split
    · exact inv_respond (inv_writeDot hs _ _) _
    · exact inv_respond hs _
  case aset a ds k =>
    split
    · exact inv_respond (inv_writeEnt hs a k.isLt _) _
    · exact inv_respond hs _

end

/-- Settles O10: each thing a step can do keeps the invariant. -/
theorem stepKeepsInv : Obligations.StepKeepsInv := by
  intro s t hs h
  rcases step_cases s with ⟨w, hw, he⟩ | ⟨hw, hnone, he⟩ | ⟨hw, ws, rest, -, hcmd⟩
  · cases he.symm.trans h
    exact inv_paintResume hs hw
  · cases he.symm.trans h
    exact inv_gather hs hw hnone
  · have htaken := inv_afterTaking hs hw rest
    rcases hcmd with ⟨i, -, he⟩ | ⟨-, he⟩ | ⟨-, he⟩
    · exact inv_exec htaken hw rfl (he.symm.trans h)
    · cases he.symm.trans h
      exact inv_faultOrRefuse htaken hw _ _
    · cases he.symm.trans h
      exact inv_faultOrRefuse htaken hw _ _

end Sys2Proof.Machine
end

section
/-! A paint walk that is cut and resumed (10_state.md R35 b, 40_figure.md R108): the answers used in two goes come to one run,
and advancing the walk twice comes to advancing it once by that run. -/

namespace Sys2Proof.Machine

/-- The run made of a run that waits and the run that goes on from there. -/
def PaintRun.andThen (run later : PaintRun) : PaintRun :=
  { later with sent := run.sent ++ later.sent, accepted := run.accepted + later.accepted }

/-- A queue of answers may be cut where the walk waits. -/
theorem paintSettle_append {ps : List (Nat × Nat)} {as : List Bool} (hwait : (paintSettle ps as).verdict = none)
    (more : List Bool) :
    paintSettle ps (as ++ more) =
      (paintSettle ps as).andThen (paintSettle (ps.drop (paintSettle ps as).accepted) more) := by
  obtain ⟨-, -, hlt, has⟩ := paintSettle_waits hwait
  generalize as.length = n at hlt has
  subst as
  rw [paintSettle_resumed ps n hlt more, paintSettle_short hlt]
  rfl

/-- Two advances of a walk, the first of which leaves it waiting, are one advance by both runs; the answers that stand on the
port before it do not matter. -/
theorem paintAdvance_paintAdvance {run : PaintRun} (hwait : run.verdict = none) (w : PaintWalk) (first : List (Nat × Nat))
    (later : PaintRun) (s : State) (as as' : List Bool) :
    paintAdvance { w with pos := w.pos + run.accepted } [] later { paintAdvance w first run s with paintAnswers := as } =
      paintAdvance w first (run.andThen later) { s with paintAnswers := as' } := by
  simp only [paintAdvance_eq, PaintRun.andThen, hwait, List.nil_append, Nat.add_assoc, ← List.append_assoc,
    List.map_append]
  rfl

theorem readFig_paintStart (w : PaintWalk) (s : State) (r : RegNo) : readFig (paintStart w s) r = readFig s r := by
  rw [paintStart, paintAdvance_eq]
  rfl

/-- Resuming a walk that waits comes to what beginning it with all the answers at once comes to (R35 b). -/
theorem paintResume_paintStart {s : State} {w : PaintWalk} (hpos : w.pos = 0)
    (hwait : (paintSettle (readFig s w.fig).pixels s.paintAnswers).verdict = none) (more : List Bool) :
    paintResume { w with pos := w.pos + (paintSettle (readFig s w.fig).pixels s.paintAnswers).accepted }
        { paintStart w s with paintAnswers := more } =
      paintStart w { s with paintAnswers := s.paintAnswers ++ more } := by
  have hfig : readFig { paintStart w s with paintAnswers := more } w.fig = readFig s w.fig := readFig_paintStart w s w.fig
  have hdrop (n : Nat) : (readFig s w.fig).pixels.drop (w.pos + n) = (readFig s w.fig).pixels.drop n := by
    rw [hpos, Nat.zero_add]
  simp only [paintResume, hfig, hdrop]
  refine (paintAdvance_paintAdvance hwait w _ _ s more (s.paintAnswers ++ more)).trans ?_
  rw [← paintSettle_append hwait]
  rfl

/-- A step of a unit with a walk in progress resumes it (R35 b). -/
theorem step_of_walk {s : State} {w : PaintWalk} (hw : s.walk = some w) : step s = .next (paintResume w s) := by
  simp only [step, fetch, hw]

theorem exec_fpaint_running {s : State} {b : RegNo} (p f : RegNo) (c : Byte) (hrun : s.fault = 0) (hb : b.toNat ≤ 3) :
    exec (.fpaint b p f c) s = .next (paintStart ⟨b, p, f, c, 0⟩ s) :=
  congrArg Host.Outcome.next (checked_running _ hrun (decide_eq_true hb))

/-- A walk just begun is still in progress only if it waits, and it does so after the pixels accepted. -/
theorem walk_paintStart {s : State} {w : PaintWalk} (h : (paintStart w s).walk ≠ none) :
    (paintSettle (readFig s w.fig).pixels s.paintAnswers).verdict = none ∧
      (paintStart w s).walk =
        some { w with pos := w.pos + (paintSettle (readFig s w.fig).pixels s.paintAnswers).accepted } := by
  cases hv : (paintSettle (readFig s w.fig).pixels s.paintAnswers).verdict with
  | some ok => simp [paintStart, paintAdvance_eq, hv] at h
  | none => simp [paintStart, paintAdvance_eq, hv]

/-- Settles O31: the walk that waits has used its answers, and resuming it is going on where the longer queue would. -/
theorem fpaintResumesWhereItWaited : Obligations.FpaintResumesWhereItWaited := by
  intro s t b p r c more hrun hb h hwaits _
  rw [exec_fpaint_running p r c hrun hb] at h
  cases h
  obtain ⟨hwait, hwalk⟩ := walk_paintStart hwaits
  calc step { paintStart ⟨b, p, r, c, 0⟩ s with paintAnswers := more }
    _ = .next (paintResume _ { paintStart ⟨b, p, r, c, 0⟩ s with paintAnswers := more }) := step_of_walk hwalk
    _ = .next (paintStart ⟨b, p, r, c, 0⟩ { s with paintAnswers := s.paintAnswers ++ more }) :=
        congrArg Host.Outcome.next (paintResume_paintStart rfl hwait more)
    _ = exec (.fpaint b p r c) { s with paintAnswers := s.paintAnswers ++ more } :=
        (exec_fpaint_running (s := { s with paintAnswers := s.paintAnswers ++ more }) p r c hrun hb).symm

end Sys2Proof.Machine
end

section
/-! The serpentine map of the LED strip (20_memory.md R61), with `ledPos` as its inverse. -/

namespace Sys2Proof.Machine

theorem ledIdx_even (x : Nat) {y : Nat} (hy : y % 2 = 0) : ledIdx x y = y * 8 + (7 - x) := if_pos hy

theorem ledIdx_odd (x : Nat) {y : Nat} (hy : y % 2 = 1) : ledIdx x y = y * 8 + x := if_neg (by omega)

theorem ledPos_lt {i : Nat} (hi : i < 256) : (ledPos i).1 < 8 ∧ (ledPos i).2 < 32 := by
  simp only [ledPos]
  split <;> omega

/-- Settles O43: `ledPos i` is a position of index `i`, and the only one, since it inverts the map. -/
theorem ledIndexIsBijection : Obligations.LedIndexIsBijection := by
  refine ⟨fun x y hx hy => ⟨ledIdx_even x, ledIdx_odd x, ledIdx_lt hx hy⟩, fun i hi => ?_⟩
  obtain ⟨hx, hy⟩ := ledPos_lt hi
  refine ⟨ledPos i, ⟨hx, hy, ledIdx_ledPos⟩, ?_⟩
  rintro ⟨x, y⟩ ⟨hx', -, rfl⟩
  exact (ledPos_ledIdx hx').symm

end Sys2Proof.Machine
end

section
/-! How many responses a command sends (20_memory.md R59): the effect of every command but FPAINT is one response on top of
writes that leave the response port and the walk alone; an FPAINT's is that of its walk. -/

namespace Sys2Proof.Machine

/-- From `s` to `t` one response word was sent, and no paint walk is in progress. -/
def AnswersOnce (s t : State) : Prop := t.walk = none ∧ ∃ r, t.responses = s.responses ++ [r]

@[simp] theorem drawFigure_walk (b : RegNo) (x y : Int) (f : Figure) (c : Byte) (s : State) :
    (drawFigure b x y f c s).walk = s.walk := by
  obtain ⟨m, hm⟩ := drawFigure_fields b x y f c s
  rw [hm]

@[simp] theorem drawFigure_responses (b : RegNo) (x y : Int) (f : Figure) (c : Byte) (s : State) :
    (drawFigure b x y f c s).responses = s.responses := by
  obtain ⟨m, hm⟩ := drawFigure_fields b x y f c s
  rw [hm]

section
variable {s : State} (hw : s.walk = none)
include hw

/-- A response answers once after any writes that leave the response port and the walk alone. -/
theorem answersOnce_respond (v : Value) {e : State} (hwalk : e.walk = s.walk) (hresp : e.responses = s.responses) :
    AnswersOnce s (respond v e) :=
  ⟨hwalk.trans hw, responseWord 0x00 v, congrArg (· ++ [_]) hresp⟩

theorem answersOnce_refuse : AnswersOnce s (refuse s) := ⟨hw, _, rfl⟩

theorem answersOnce_takeFault (c : FaultCause) (w : Word) : AnswersOnce s (takeFault c w s) := ⟨hw, _, rfl⟩

theorem answersOnce_faultOrRefuse (c : FaultCause) (w : Word) : AnswersOnce s (faultOrRefuse c w s) := by
  rcases faultOrRefuse_cases c w s with ⟨-, h⟩ | ⟨-, h⟩ <;> rw [h]
  · exact answersOnce_refuse hw
  · exact answersOnce_takeFault hw c w

/-- The checks answer in place of the effect when they stop a command. -/
theorem checked_answersOnce_or (i : Instr) (e : State) : AnswersOnce s (checked i s e) ∨ checked i s e = e := by
  rcases checked_cases i s e with ⟨-, h⟩ | ⟨-, -, h⟩ | ⟨-, -, h⟩
  · exact .inl (h ▸ answersOnce_refuse hw)
  · exact .inl (h ▸ answersOnce_takeFault hw _ _)
  · exact .inr h

theorem answersOnce_checked (i : Instr) {e : State} (he : AnswersOnce s e) : AnswersOnce s (checked i s e) := by
  rcases checked_answersOnce_or hw i e with h | h
  · exact h
  · exact h.symm ▸ he

theorem exec_answersOnce {i : Instr} {t : State} (hi : ∀ b p f c, i ≠ .fpaint b p f c) (h : exec i s = .next t) :
    AnswersOnce s t := by
  cases i <;> cases h
  case stat =>
    split
    · exact answersOnce_respond hw _ rfl rfl
    · exact answersOnce_faultOrRefuse hw _ _
  case fpaint b p f c => exact absurd rfl (hi b p f c)
  all_goals refine answersOnce_checked hw _ ?_
  case fld =>
    split
    · exact answersOnce_respond hw _ rfl rfl
    · exact answersOnce_takeFault hw _ _
  case fbset => exact answersOnce_respond hw _ (cellWrite_walk ..) (cellWrite_responses ..)
  case fbdraw => exact answersOnce_respond hw _ (drawFigure_walk ..) (drawFigure_responses ..)
  case apush | arem | aget | aset => split <;> exact answersOnce_respond hw _ rfl rfl
  all_goals exact answersOnce_respond hw _ rfl rfl

end

/-- A walk just begun has ended with one response, or waits and has sent none (R108, R35 b). -/
theorem paintStart_answersOnce_or_waits (w : PaintWalk) (s : State) :
    AnswersOnce s (paintStart w s) ∨ ((paintStart w s).walk ≠ none ∧ (paintStart w s).responses = s.responses) := by
  rw [paintStart, paintAdvance_eq]
  cases (paintSettle (readFig s w.fig).pixels s.paintAnswers).verdict with
  | some ok => exact .inl ⟨rfl, _, rfl⟩
  | none => exact .inr ⟨Option.some_ne_none _, rfl⟩

theorem exec_fpaint_answersOnce_or_waits {s t : State} (hw : s.walk = none) {b p f : RegNo} {c : Byte}
    (h : exec (.fpaint b p f c) s = .next t) :
    AnswersOnce s t ∨ (t.walk ≠ none ∧ t.responses = s.responses) := by
  cases h
  rcases checked_answersOnce_or hw (.fpaint b p f c) (paintStart ⟨b, p, f, c, 0⟩ s) with hstopped | heffect
  · exact .inl hstopped
  · exact heffect.symm ▸ paintStart_answersOnce_or_waits _ s

/-- Settles O19: only an FPAINT can leave its answer for later. -/
theorem oneResponsePerCommand : Obligations.OneResponsePerCommand := by
  intro i s hw
  obtain ⟨t, ht⟩ := exec_answers i s
  refine ⟨t, ht, ?_⟩
  by_cases hi : ∃ b p f c, i = .fpaint b p f c
  · obtain ⟨b, p, f, c, rfl⟩ := hi
    exact (exec_fpaint_answersOnce_or_waits hw ht).imp_right (⟨⟨b, p, f, c, rfl⟩, ·⟩)
  · exact .inl (exec_answersOnce hw (fun b p f c e => hi ⟨b, p, f, c, e⟩) ht)

end Sys2Proof.Machine
end

section
/-! The formats (30_encoding.md R73): a header with a clear reserved part is what its fields are packed to again, and the reserved
part of each format is a mask. -/

namespace Sys2Proof

/-- The header of a format put together again from the fields that the format has, its reserved bits zero (R73). -/
def Format.repack (f : Format) (w : Word) : Word :=
  match f with
  | .N | .N1 => packABCE (opOf w) 0#4 0#4 0#4 0#8
  | .E => packABCE (opOf w) 0#4 0#4 0#4 (fieldE w)
  | .A => packABCE (opOf w) (fieldA w) 0#4 0#4 0#8
  | .AB => packABCE (opOf w) (fieldA w) (fieldB w) 0#4 0#8
  | .ABC => packABCE (opOf w) (fieldA w) (fieldB w) (fieldC w) 0#8
  | .AE | .AE8 => packABCE (opOf w) (fieldA w) 0#4 0#4 (fieldE w)
  | .ABE => packABCE (opOf w) (fieldA w) (fieldB w) 0#4 (fieldE w)
  | .ABCE => packABCE (opOf w) (fieldA w) (fieldB w) (fieldC w) (fieldE w)
  | .AHE => packAHE (opOf w) (fieldA w) (fieldHb w) (fieldE w)
  | .AI => packAI (opOf w) (fieldA w) (fieldI16 w)
  | .L => packL (fieldD w) (fieldWh w) (fieldI16 w)

/-- The reserved bits are the ones that the fields do not hold. -/
theorem Format.repack_eq_iff {f : Format} {w : Word} (hL : f = .L → fieldMajor w = 0xF#4) :
    f.repack w = w ↔ f.reservedClear w = true := by
  have := w.isLt
  rw [← BitVec.toNat_inj]
  cases f
  case L =>
    have hmajor := hL rfl
    simp only [fieldMajor, extract_eq_iff, BitVec.toNat_ofNat] at hmajor
    refine iff_of_true ?_ rfl
    simp only [repack, packL_toNat, fieldD, fieldWh, fieldI16, extract_toNat]
    omega
  all_goals
    simp only [repack, reservedClear, beq_iff_eq, packABCE_toNat, packAHE_toNat, packAI_toNat, opOf, fieldA, fieldB,
      fieldC, fieldHb, fieldE, fieldI16, extract_eq_iff, extract_toNat, BitVec.toNat_ofNat]
    omega

/-- The bits that the format reserves (R73). -/
def Format.mask (f : Format) : Word :=
  match f with
  | .N | .N1 => 0x00FFFFFF
  | .E => 0x00FFFF00
  | .A => 0x000FFFFF
  | .AB => 0x0000FFFF
  | .ABC => 0x00000FFF
  | .AE | .AE8 => 0x000FFF00
  | .ABE => 0x0000FF00
  | .ABCE => 0x00000F00
  | .AHE | .AI => 0x000F0000
  | .L => 0

/-- A field of a word is zero exactly when the word has no bit in common with the field's mask. -/
theorem and_fieldMask_eq_zero_iff (w : Word) (lo n : Nat) :
    w &&& (BitVec.allOnes n).setWidth 32 <<< lo = 0#32 ↔ w.extractLsb' lo n = 0#n := by
  have hmask (k : Nat) : (w &&& (BitVec.allOnes n).setWidth 32 <<< lo).getLsbD k = true ↔
      w.getLsbD k = true ∧ lo ≤ k ∧ k - lo < n := by
    by_cases hk : k < 32
    · simp [hk]
    · simp [BitVec.getLsbD_of_ge w k (by omega)]
  constructor
  · intro h
    refine BitVec.eq_of_getLsbD_eq fun i hi => ?_
    have hbit := (hmask (lo + i)).not.1 (by simp [h])
    simpa [hi] using hbit
  · intro h
    refine BitVec.eq_of_getLsbD_eq fun k _ => ?_
    rw [BitVec.getLsbD_zero, ← Bool.not_eq_true, hmask]
    rintro ⟨hw, hlo, hn⟩
    have hfield := congrArg (·.getLsbD (k - lo)) h
    simp [hn, Nat.add_sub_cancel' hlo, hw] at hfield

theorem Format.reservedClear_iff_and_mask (f : Format) (w : Word) :
    f.reservedClear w = true ↔ w &&& f.mask = 0#32 := by
  cases f
  case L => simp [reservedClear, mask]
  all_goals exact beq_iff_eq.trans (and_fieldMask_eq_zero_iff ..).symm

end Sys2Proof
end

section
/-! The opcode map (30_encoding.md R76, R80): which row a header selects, and what every row of the map has: a header and a payload
that the row's command encodes to again, and the bits, the bank and the selector that R83 tests. -/

namespace Sys2Proof

open Machine (illegalByte bankByte reservedMask reservedWrong)

theorem rowOf_fld {w : Word} (h : fieldMajor w = 0xF#4) : rowOf w = some fldRow := if_pos h

theorem rowOf_mapped {w : Word} (h : (opOf w).toNat < 0xF0) : rowOf w = rows.find? (fun r => r.op == opOf w) :=
  if_neg fun hmajor => by have := (fieldMajor_eq_iff w).1 hmajor; omega

theorem rowOf_of_find {w : Word} {op : Byte} {row : Row} (hop : opOf w = op) (hlt : op.toNat < 0xF0)
    (hfind : rows.find? (fun r => r.op == op) = some row) : rowOf w = some row := by
  subst hop
  exact (rowOf_mapped hlt).trans hfind

/-- A header selects FLD's row by its major nibble, or a row of the map by its opcode byte. -/
theorem rowOf_eq_some {w : Word} {row : Row} (h : rowOf w = some row) :
    (fieldMajor w = 0xF#4 ∧ row = fldRow) ∨ ((opOf w).toNat < 0xF0 ∧ row ∈ rows ∧ opOf w = row.op) := by
  by_cases hmajor : fieldMajor w = 0xF#4
  · exact .inl ⟨hmajor, Option.some.inj ((rowOf_fld hmajor).symm.trans h) |>.symm⟩
  · have hlt : (opOf w).toNat < 0xF0 := by rw [fieldMajor_eq_iff] at hmajor; omega
    rw [rowOf_mapped hlt] at h
    exact .inr ⟨hlt, List.mem_of_find?_eq_some h, (beq_iff_eq.1 (List.find?_some h :)).symm⟩

/-- Below FLD's half of the byte, the bytes without a row are those that R80 lists. -/
theorem no_row_iff_illegalByte {op : Byte} (h : op.toNat < 0xF0) :
    (∀ row ∈ rows, row.op ≠ op) ↔ illegalByte op.toNat = true := by
  simp only [rows, illegalByte, List.forall_mem_cons, ne_eq, ← BitVec.toNat_inj, BitVec.toNat_ofNat, Bool.or_eq_true,
    decide_eq_true_eq, List.not_mem_nil, false_imp_iff, implies_true, and_true]
  omega

theorem rowOf_eq_none_iff (w : Word) : rowOf w = none ↔ illegalByte (opOf w).toNat = true := by
  by_cases hmajor : fieldMajor w = 0xF#4
  · have hop := (fieldMajor_eq_iff w).1 hmajor
    simp only [rowOf_fld hmajor, illegalByte, Bool.or_eq_true, decide_eq_true_eq]
    exact iff_of_false (Option.some_ne_none _) (by omega)
  · have hlt : (opOf w).toNat < 0xF0 := by rw [fieldMajor_eq_iff] at hmajor; omega
    rw [rowOf_mapped hlt, ← no_row_iff_illegalByte hlt]
    simp

section
variable {row : Row} {w : Word} (hrow : row ∈ rows) (hop : opOf w = row.op) (pay : List Word)
include hrow hop

theorem header_build_of_mem_rows : (row.build w pay).header = row.fmt.repack w := by
  fin_cases hrow <;> dsimp only at hop <;> simp only [Format.repack, hop] <;> rfl

theorem payload_build_of_mem_rows :
    (row.build w pay).payload = (List.range (commandLength w - 1)).map (pay.getD · 0) := by
  rw [commandLength, hop]
  fin_cases hrow <;> rfl

theorem wellFormed_build_of_mem_rows : (row.build w pay).wellFormed = true ↔
    ¬(bankByte (opOf w).toNat = true ∧ 3 < (fieldA w).toNat) ∧ ¬(opOf w = 0x01 ∧ 2 < (fieldE w).toNat) := by
  fin_cases hrow <;> simp [hop, bankByte, Instr.wellFormed, bankOk, selOk]

end

theorem reservedMask_of_mem_rows : ∀ row ∈ rows, reservedMask row.op.toNat = row.fmt.mask := by decide

theorem fmt_ne_L_of_mem_rows : ∀ row ∈ rows, row.fmt ≠ .L := by decide

theorem commandLength_eq_one {w : Word} (h29 : opOf w ≠ 0x29#8) (h30 : opOf w ≠ 0x30#8) : commandLength w = 1 := by
  simp [commandLength, h29, h30]

theorem commandLength_fld {w : Word} (h : fieldMajor w = 0xF#4) : commandLength w = 1 := by
  have hop := (fieldMajor_eq_iff w).1 h
  refine commandLength_eq_one ?_ ?_ <;> intro heq <;> simp [heq] at hop

theorem commandLength_illegal {w : Word} (h : illegalByte (opOf w).toNat = true) : commandLength w = 1 := by
  refine commandLength_eq_one ?_ ?_ <;> intro heq <;> simp [heq, illegalByte] at h

theorem repack_eq_iff_of_rowOf {w : Word} {row : Row} (hrow : rowOf w = some row) :
    row.fmt.repack w = w ↔ row.fmt.reservedClear w = true := by
  refine Format.repack_eq_iff fun hL => ?_
  rcases rowOf_eq_some hrow with ⟨hmajor, -⟩ | ⟨-, hmem, -⟩
  · exact hmajor
  · exact absurd hL (fmt_ne_L_of_mem_rows row hmem)

/-- The words that a command was read from are its encoding, if the reserved bits are clear: the fields hold all the others. -/
theorem encode_build {w : Word} {pay : List Word} {row : Row} (hrow : rowOf w = some row)
    (hlen : (w :: pay).length = commandLength w) (hclear : row.fmt.reservedClear w = true) :
    encode (row.build w pay) = w :: pay := by
  have hpack := (repack_eq_iff_of_rowOf hrow).2 hclear
  rw [List.length_cons] at hlen
  rcases rowOf_eq_some hrow with ⟨hmajor, rfl⟩ | ⟨-, hmem, hop⟩
  · have hpay : pay = [] := by rw [commandLength_fld hmajor] at hlen; simpa using hlen
    exact hpay ▸ congrArg (· :: []) hpack
  · rw [encode, header_build_of_mem_rows hmem hop, hpack, payload_build_of_mem_rows hmem hop, ← hlen, Nat.add_sub_cancel]
    congr 1
    exact List.ext_getElem (by simp) fun k _ hk => by simp [List.getElem?_eq_getElem hk]

end Sys2Proof
end

section
/-! The decoder and the encoder undo each other (30_encoding.md R70 to R77): a decoded command is built from its row, which its own
encoding selects again. -/

namespace Sys2Proof

section
variable {w : Word} {pay : List Word} (hlen : (w :: pay).length = commandLength w)
include hlen

theorem decode_of_no_row (hrow : rowOf w = none) : decode (w :: pay) = .error .illegalOpcode := by
  rw [List.length_cons] at hlen
  simp only [decode, if_pos hlen, hrow]

theorem decode_of_row {row : Row} (hrow : rowOf w = some row) :
    decode (w :: pay) = if row.fmt.reservedClear w && (row.build w pay).wellFormed then .ok (row.build w pay)
      else .error .reservedField := by
  rw [List.length_cons] at hlen
  simp only [decode, if_pos hlen, hrow]

theorem decode_eq_illegalOpcode_iff : decode (w :: pay) = .error .illegalOpcode ↔ rowOf w = none := by
  refine ⟨fun h => ?_, decode_of_no_row hlen⟩
  cases hrow : rowOf w with
  | none => rfl
  | some row =>
    rw [decode_of_row hlen hrow] at h
    split at h <;> cases h

end

/-- A decoded command was built from the row that the header selects, whose reserved bits are clear. -/
theorem decode_eq_ok_build {w : Word} {pay : List Word} {i : Instr} (hlen : (w :: pay).length = commandLength w)
    (h : decode (w :: pay) = .ok i) :
    ∃ row, rowOf w = some row ∧ row.fmt.reservedClear w = true ∧ i = row.build w pay := by
  cases hrow : rowOf w with
  | none => rw [decode_of_no_row hlen hrow] at h; cases h
  | some row =>
    rw [decode_of_row hlen hrow] at h
    split at h
    next hok => cases h; exact ⟨row, rfl, (Bool.and_eq_true_iff.1 hok).1, rfl⟩
    next => cases h

/-- Settles O2: the fields of the row's format hold every bit that is not reserved. -/
theorem decodedWordsAreTheEncoding : Obligations.DecodedWordsAreTheEncoding := by
  intro ws i h
  obtain ⟨⟨w, pay, rfl, hlen⟩, hwf⟩ := decode_eq_ok h
  obtain ⟨row, hrow, hclear, rfl⟩ := decode_eq_ok_build hlen h
  exact ⟨encode_build hrow hlen hclear, hwf⟩

/-- The encoded command selects its own row, which builds it again; the header's reserved bits are clear. -/
theorem rowOf_header (i : Instr) :
    ∃ row, rowOf i.header = some row ∧ row.fmt.repack i.header = i.header ∧ row.build i.header i.payload = i := by
  cases i
  case fld d wh data =>
    exact ⟨fldRow, rowOf_fld (fieldMajor_packL d wh data), by simp [fldRow, Format.repack, Instr.header],
      by simp [fldRow, Instr.header]⟩
  case fgetb | fbclrr | dld =>
    exact ⟨_, rowOf_of_find (opOf_packAHE ..) (by decide) rfl, by simp [Format.repack, Instr.header],
      by simp [Instr.header]⟩
  case ainit =>
    exact ⟨_, rowOf_of_find (opOf_packAI ..) (by decide) rfl, by simp [Format.repack, Instr.header],
      by simp [Instr.header]⟩
  all_goals
    exact ⟨_, rowOf_of_find (opOf_packABCE ..) (by decide) rfl, by simp [Format.repack, Instr.header],
      by simp [Instr.header, Instr.payload]⟩

theorem encode_length (i : Instr) : (encode i).length = commandLength i.header := by
  cases i
  case fld => exact Laws.EncodedLength.fld ..
  all_goals simp [encode, commandLength, Instr.header, Instr.payload]

/-- Settles O1: the encoded command's row reads back the fields that the encoder packed. -/
theorem decodeReadsEncodedCommand : Obligations.DecodeReadsEncodedCommand := by
  intro i hwf
  obtain ⟨row, hrow, hpack, hbuild⟩ := rowOf_header i
  have hclear : row.fmt.reservedClear i.header = true := (repack_eq_iff_of_rowOf hrow).1 hpack
  rw [encode, decode_of_row (encode_length i) hrow, hbuild, hclear, hwf]
  rfl

end Sys2Proof
end

section
/-! Taking words (30_encoding.md R72): a step takes the whole command at hand and no more, whatever comes of it; the words of an
incomplete command wait; and taking commands one after the other is the only way to split a stream. -/

namespace Sys2Proof.Machine

theorem commandLength_eq_ite (w : Word) :
    commandLength w = if w.toNat / 2 ^ 24 = 0x29 then 9 else if w.toNat / 2 ^ 24 = 0x30 then 2 else 1 := by
  have hop : w.toNat / 2 ^ 24 % 2 ^ 8 = w.toNat / 2 ^ 24 := Nat.mod_eq_of_lt (by have := w.isLt; omega)
  simp only [commandLength, opOf, extract_eq_iff, hop]
  rfl

theorem wholeCommand_length_pos {ws : List Word} (h : WholeCommand ws) : 1 ≤ ws.length := by
  obtain ⟨w, pay, rfl, -⟩ := h
  simp

theorem takeCommand_wholeCommand {ws : List Word} (rest : List Word) (h : WholeCommand ws) :
    takeCommand (ws ++ rest) = some (ws, rest) := by
  obtain ⟨w, pay, rfl, hlen⟩ := h
  exact takeCommand_append rest hlen

theorem takeCommand_eq_some_iff {stream ws rest : List Word} :
    takeCommand stream = some (ws, rest) ↔ stream = ws ++ rest ∧ WholeCommand ws :=
  ⟨takeCommand_eq_some, fun ⟨h, hws⟩ => h ▸ takeCommand_wholeCommand rest hws⟩

theorem takeCommand_eq_none_iff {stream : List Word} : takeCommand stream = none ↔ PartialCommand stream :=
  takeCommand_eq_none

/-! ### Splitting a stream -/

/-- Enough fuel groups whole commands in front of an incomplete one as they stand. -/
theorem groupCommands_flatten {cs : List (List Word)} {rest : List Word} (hcs : ∀ c ∈ cs, WholeCommand c)
    (hrest : PartialCommand rest) {n : Nat} (hn : (cs.flatten ++ rest).length ≤ n) :
    groupCommands n (cs.flatten ++ rest) = (cs, rest) := by
  induction cs generalizing n with
  | nil => exact groupCommands_incomplete n (takeCommand_eq_none_iff.2 hrest)
  | cons c cs ih =>
    have hc : WholeCommand c := hcs c (by simp)
    have hpos := wholeCommand_length_pos hc
    simp only [List.flatten_cons, List.append_assoc, List.length_append] at hn ⊢
    obtain ⟨m, rfl⟩ : ∃ m, n = m + 1 := ⟨n - 1, by omega⟩
    rw [groupCommands_whole m (takeCommand_wholeCommand _ hc),
      ih (fun c h => hcs c (by simp [h])) (by rw [List.length_append]; omega)]

/-- Grouping with enough fuel splits the stream into whole commands and an incomplete rest. -/
theorem groupCommands_splits {n : Nat} {stream : List Word} (hn : stream.length ≤ n) :
    stream = (groupCommands n stream).1.flatten ++ (groupCommands n stream).2 ∧
      (∀ c ∈ (groupCommands n stream).1, WholeCommand c) ∧ PartialCommand (groupCommands n stream).2 := by
  induction n generalizing stream with
  | zero => exact ⟨rfl, by simp, .inl (List.length_eq_zero_iff.1 (Nat.le_zero.1 hn))⟩
  | succ n ih =>
    cases htake : takeCommand stream with
    | none =>
      rw [groupCommands_incomplete _ htake]
      exact ⟨rfl, by simp, takeCommand_eq_none_iff.1 htake⟩
    | some p =>
      obtain ⟨ws, rest⟩ := p
      obtain ⟨rfl, hws⟩ := takeCommand_eq_some_iff.1 htake
      have hpos := wholeCommand_length_pos hws
      rw [List.length_append] at hn
      obtain ⟨hsplit, hwhole, hpartial⟩ := ih (stream := rest) (by omega)
      rw [groupCommands_whole n htake]
      refine ⟨?_, ?_, hpartial⟩
      · rw [List.flatten_cons, List.append_assoc, ← hsplit]
      · exact List.forall_mem_cons.2 ⟨hws, hwhole⟩

theorem split_iff_groupCommands (stream : List Word) (split : List (List Word) × List Word) :
    (stream = split.1.flatten ++ split.2 ∧ (∀ c ∈ split.1, WholeCommand c) ∧ PartialCommand split.2) ↔
      split = groupCommands stream.length stream := by
  constructor
  · rintro ⟨rfl, hwhole, hpartial⟩
    exact (groupCommands_flatten hwhole hpartial le_rfl).symm
  · rintro rfl
    exact groupCommands_splits le_rfl

/-! ### The step that takes a whole command -/

section
variable {s : State} {ws rest : List Word} (hw : s.walk = none) (hat : s.asm ++ s.cmdPort = ws ++ rest)
include hw hat

theorem fetch_wholeCommand (hws : WholeCommand ws) : fetch s = dispatchWords ws (afterTaking rest s) := by
  simp only [fetch, hw, hat, takeCommand_wholeCommand rest hws]

theorem step_of_decode_eq_ok {i : Instr} (hd : decode ws = .ok i) : step s = exec i (afterTaking rest s) := by
  simp only [step, fetch_wholeCommand hw hat (decode_eq_ok hd).1, dispatchWords, hd]

theorem step_takes_wholeCommand (hws : WholeCommand ws) : ∃ t, step s = .next t ∧ t.asm = [] ∧ t.cmdPort = rest := by
  have hrefused (c : FaultCause) (w : Word) :
      (faultOrRefuse c w (afterTaking rest s)).asm = [] ∧ (faultOrRefuse c w (afterTaking rest s)).cmdPort = rest := by
    rcases faultOrRefuse_cases c w (afterTaking rest s) with ⟨-, h⟩ | ⟨-, h⟩ <;> rw [h] <;> exact ⟨rfl, rfl⟩
  rcases dispatchWords_cases (afterTaking rest s) hws with ⟨i, hd, -⟩ | ⟨-, h⟩ | ⟨-, h⟩
  · obtain ⟨t, ht⟩ := exec_answers i (afterTaking rest s)
    exact ⟨t, (step_of_decode_eq_ok hw hat hd).trans ht, exec_keeps_words ht⟩
  · exact ⟨_, by rw [step, fetch_wholeCommand hw hat hws, h], hrefused _ _⟩
  · exact ⟨_, by rw [step, fetch_wholeCommand hw hat hws, h], hrefused _ _⟩

end

/-- Settles O7, as the fetch of a command that decodes. -/
theorem stepRunsDecodedCommand : Obligations.StepRunsDecodedCommand :=
  fun _ _ _ _ hw hat hd => step_of_decode_eq_ok hw hat hd

/-- Settles O6, by induction on the commands of a split and on the fuel of the grouping. -/
theorem streamSplitsOneWay : Obligations.StreamSplitsOneWay :=
  ⟨commandLength_eq_ite, fun _ _ _ => takeCommand_eq_some_iff, fun _ => takeCommand_eq_none_iff, split_iff_groupCommands,
    fun _ _ _ hw hat hws => step_takes_wholeCommand hw hat hws⟩

/-! ### The step without a whole command -/

theorem step_incomplete {s : State} (hw : s.walk = none) (h : PartialCommand (s.asm ++ s.cmdPort)) :
    step s = .next (gather s) := by
  simp only [step, fetch, hw, takeCommand_eq_none_iff.2 h]

theorem gather_keepsAllBut (s : State) : KeepsAllBut [.assembler, .cmdPort] s (gather s) :=
  keepsAllBut_of_sameFields fun p hp => by cases p <;> first | rfl | exact ⟨rfl, rfl⟩ | simp at hp

/-- Without a walk, a step sees the words at hand as one list: where the assembler ends in it makes no difference. -/
theorem step_hostSend_gather {s : State} (hw : s.walk = none) (more : List Word) :
    step (hostSend more (gather s)) = step (hostSend more s) := by
  have hwords : (hostSend more (gather s)).asm ++ (hostSend more (gather s)).cmdPort =
      (hostSend more s).asm ++ (hostSend more s).cmdPort := by simp [hostSend]
  have hgather : gather (hostSend more (gather s)) = gather (hostSend more s) := by simp [gather, hostSend]
  have htaking (rest : List Word) : afterTaking rest (hostSend more (gather s)) = afterTaking rest (hostSend more s) := rfl
  simp only [step, fetch, hostSend_walk, gather_walk, hw, hwords, hgather, htaking]

/-- Settles O8: the step only moves the words into the assembler. -/
theorem incompleteCommandWaits : Obligations.IncompleteCommandWaits :=
  fun s hw h => ⟨gather s, step_incomplete hw h, rfl, rfl, gather_keepsAllBut s, step_hostSend_gather hw⟩

end Sys2Proof.Machine
end

section
/-! Commands that fault on their encoding (30_encoding.md R80, R83; 60_exceptions.md R203): the header alone decides, and a step on
a running unit takes the command, faults and does nothing else. -/

namespace Sys2Proof.Machine

theorem faultOrRefuse_running (c : FaultCause) (w : Word) {s : State} (hrun : s.fault = 0) :
    faultOrRefuse c w s = takeFault c w s := by
  simp [faultOrRefuse, State.halted, hrun]

theorem step_faults_on_encoding {s : State} {w : Word} {pay rest : List Word} {c : FaultCause} (hw : s.walk = none)
    (hrun : s.fault = 0) (hat : s.asm ++ s.cmdPort = w :: pay ++ rest) (hlen : (w :: pay).length = commandLength w)
    (hdisp : ∀ t, dispatchWords (w :: pay) t = .done (faultOrRefuse c w t)) :
    ∃ t, step s = .next t ∧ t.fault = c.code ∧ t.fcmd = w ∧ t.asm = [] ∧ t.cmdPort = rest ∧ Responded c.code 0 s t ∧
      KeepsAllBut [.faultRegs, .responses, .assembler, .cmdPort] s t := by
  refine ⟨takeFault c w (afterTaking rest s), ?_, rfl, rfl, rfl, rfl, rfl, ?_⟩
  · simp only [step, fetch_wholeCommand hw hat ⟨w, pay, rfl, hlen⟩, hdisp]
    rw [faultOrRefuse_running c w (s := afterTaking rest s) hrun]
  · exact keepsAllBut_of_sameFields fun p hp => by cases p <;> first | rfl | exact ⟨rfl, rfl⟩ | simp at hp

theorem dispatchWords_illegalOpcode {w : Word} {pay : List Word} (hd : decode (w :: pay) = .error .illegalOpcode)
    (t : State) : dispatchWords (w :: pay) t = .done (faultOrRefuse .illegalOpcode w t) := by
  simp only [dispatchWords, hd, List.headD_cons]

theorem dispatchWords_reservedField {w : Word} {pay : List Word} (hd : decode (w :: pay) = .error .reservedField)
    (t : State) : dispatchWords (w :: pay) t = .done (faultOrRefuse .reservedField w t) := by
  simp only [dispatchWords, hd, List.headD_cons]

/-- Settles O4: the map has a row for every byte that R80 does not list. -/
theorem illegalOpcodesFault : Obligations.IllegalOpcodesFault := by
  constructor
  · intro w pay hlen
    rw [decode_eq_illegalOpcode_iff hlen, rowOf_eq_none_iff]
  · intro s w rest hw hrun hbyte hat
    have hone : [w].length = commandLength w := (commandLength_illegal hbyte).symm
    have hd : decode [w] = .error .illegalOpcode := decode_of_no_row hone ((rowOf_eq_none_iff w).2 hbyte)
    exact ⟨hone.symm, step_faults_on_encoding hw hrun hat hone (dispatchWords_illegalOpcode hd)⟩

/-- FLD has no reserved bits, and its opcode bytes are those of no bank command and not STAT's. -/
theorem not_reservedWrong_fld {w : Word} (h : fieldMajor w = 0xF#4) : ¬reservedWrong w := by
  have hop := (fieldMajor_eq_iff w).1 h
  have hmask : reservedMask (opOf w).toNat = 0 := by
    have hne (k : Nat) (hk : k < 0xF0) : (opOf w).toNat ≠ k := by omega
    simp [reservedMask, hne]
  rintro (hbits | ⟨hbank, -⟩ | ⟨hstat, -⟩)
  · exact hbits (by simp [hmask])
  · simp [bankByte] at hbank
    omega
  · simp [hstat] at hop

/-- What R83 tests of a header is what the decoder tests of the row's reserved bits and of the command built. -/
theorem reservedWrong_iff {w : Word} {row : Row} (hrow : rowOf w = some row) (pay : List Word) :
    reservedWrong w ↔ (row.fmt.reservedClear w && (row.build w pay).wellFormed) = false := by
  rcases rowOf_eq_some hrow with ⟨hmajor, rfl⟩ | ⟨-, hmem, hop⟩
  · exact iff_of_false (not_reservedWrong_fld hmajor) Bool.noConfusion
  · rw [Bool.and_eq_false_iff, ← Bool.not_eq_true, ← Bool.not_eq_true, Format.reservedClear_iff_and_mask,
      wellFormed_build_of_mem_rows hmem hop, reservedWrong, hop, reservedMask_of_mem_rows row hmem]
    tauto

/-- Settles O5: what R83 tests is what makes the decoder reject a header that selects a row. -/
theorem reservedFieldsFault : Obligations.ReservedFieldsFault := by
  intro w pay hlen hbyte
  obtain ⟨row, hrow⟩ : ∃ row, rowOf w = some row := by
    rw [← Option.ne_none_iff_exists', ne_eq, rowOf_eq_none_iff, hbyte]
    exact Bool.false_ne_true
  have hdecode : decode (w :: pay) = .error .reservedField ↔ reservedWrong w := by
    rw [decode_of_row hlen hrow, reservedWrong_iff hrow pay]
    cases row.fmt.reservedClear w && (row.build w pay).wellFormed <;> simp
  exact ⟨hdecode, fun hwrong s rest hw hrun hat =>
    step_faults_on_encoding hw hrun hat hlen (dispatchWords_reservedField (hdecode.2 hwrong))⟩

end Sys2Proof.Machine
end

section
/-! The figure literal (30_encoding.md R90): the Figure of a rectangle of lines, its size and its pixels, and the lines that `str`
writes of it. -/

namespace Sys2Proof.Machine

/-- The bit of the pixel at column `c` and row `r` of a `w` by `h` Figure (40_figure.md R101). -/
def pixelIndex (w h : Nat) (p : Nat × Nat) : Nat := (h - 1 - p.2) * w + (w - 1 - p.1)

/-- The Figure whose set pixels are the `#` of the lines (R90). -/
def figureOfLines (lines : List (List Char)) (w : Nat) : Figure where
  wh := BitVec.ofNat 4 w ++ BitVec.ofNat 4 lines.length
  data := ((positions w lines.length).filter fun p => charAt lines p.1 p.2 = '#').foldl
    (fun acc p => acc ||| 1#16 <<< pixelIndex w lines.length p) 0

theorem fromStr_eq (text : List Char) :
    fromStr text = if literalOk (splitLines text) then
      some (figureOfLines (splitLines text) ((splitLines text).headD []).length) else none := by
  simp only [fromStr, figureOfLines, List.foldl_filter, decide_eq_true_eq]
  rfl

/-! ### The lines of a literal -/

theorem literalLines_headD {lines : List (List Char)} {w : Nat} (h : LiteralLines lines w) :
    (lines.headD []).length = w := by
  obtain ⟨-, -, hne, -, -, hlines⟩ := h
  cases lines with
  | nil => contradiction
  | cons l ls => exact (hlines l (by simp)).1

theorem literalOk_iff (lines : List (List Char)) :
    literalOk lines = true ↔ LiteralLines lines (lines.headD []).length := by
  have hne (h : 1 ≤ (lines.headD []).length) : 1 ≤ lines.length := by cases lines <;> simp at h ⊢
  simp only [literalOk, LiteralLines, Bool.and_eq_true, decide_eq_true_eq, List.all_eq_true, Bool.or_eq_true, beq_iff_eq]
  tauto

theorem mem_positions {w h : Nat} {p : Nat × Nat} : p ∈ positions w h ↔ p.1 < w ∧ p.2 < h := by
  obtain ⟨c, r⟩ := p
  simp [positions, and_comm]

/-- A place outside the lines reads as a space. -/
theorem charAt_eq_hash_iff (lines : List (List Char)) (c r : Nat) :
    charAt lines c r = '#' ↔ lines[r]?.bind (fun l => l[c]?) = some '#' := by
  simp only [charAt, List.getD_eq_getElem?_getD]
  cases lines[r]? with
  | none => simp
  | some l => cases h : l[c]? <;> simp [h]

/-! ### Pixels and their bits -/

theorem pixelIndex_lt {w h : Nat} {p : Nat × Nat} (hc : p.1 < w) (hr : p.2 < h) : pixelIndex w h p < w * h :=
  calc (h - 1 - p.2) * w + (w - 1 - p.1)
    _ < (h - 1 - p.2 + 1) * w := by rw [Nat.succ_mul]; omega
    _ ≤ h * w := Nat.mul_le_mul_right w (by omega)
    _ = w * h := Nat.mul_comm h w

/-- A pixel's bit gives the pixel back: its row is the quotient by the width, its column the remainder. -/
theorem pixelIndex_inj {w h : Nat} {p q : Nat × Nat} (hp : p.1 < w ∧ p.2 < h) (hq : q.1 < w ∧ q.2 < h)
    (heq : pixelIndex w h p = pixelIndex w h q) : p = q := by
  have hdiv (x y : Nat) (hy : y < w) : (x * w + y) / w = x ∧ (x * w + y) % w = y := by
    rw [Nat.add_comm, Nat.add_mul_div_right _ _ (by omega), Nat.add_mul_mod_self_right, Nat.div_eq_of_lt hy,
      Nat.mod_eq_of_lt hy, Nat.zero_add]
    exact ⟨rfl, rfl⟩
  obtain ⟨hrow, hcol⟩ := hdiv (h - 1 - p.2) (w - 1 - p.1) (by omega)
  obtain ⟨hrow', hcol'⟩ := hdiv (h - 1 - q.2) (w - 1 - q.1) (by omega)
  rw [pixelIndex, pixelIndex] at heq
  rw [heq] at hrow hcol
  exact Prod.ext (by omega) (by omega)

theorem figure_bit_iff (f : Figure) (c r : Nat) :
    f.bit c r = true ↔ c < f.width ∧ r < f.height ∧ f.data.getLsbD (pixelIndex f.width f.height (c, r)) = true := by
  simp only [Figure.bit, Bool.and_eq_true, decide_eq_true_eq, and_assoc, pixelIndex]

section
variable {lines : List (List Char)} {w : Nat} (h : LiteralLines lines w)
include h

theorem figureOfLines_wh : (figureOfLines lines w).wh.toNat = w * 16 + lines.length := by
  obtain ⟨-, hw, -, hh, -⟩ := h
  simp only [figureOfLines, toNat_append_eq, BitVec.toNat_ofNat]
  omega

theorem figureOfLines_width : (figureOfLines lines w).width = w := by
  obtain ⟨-, -, -, hh, -⟩ := id h
  rw [Figure.width_eq, figureOfLines_wh h]
  omega

theorem figureOfLines_height : (figureOfLines lines w).height = lines.length := by
  obtain ⟨-, -, -, hh, -⟩ := id h
  rw [Figure.height_eq, figureOfLines_wh h]
  omega

theorem figureOfLines_getLsbD (k : Nat) : (figureOfLines lines w).data.getLsbD k = true ↔
    ∃ p : Nat × Nat, (p.1 < w ∧ p.2 < lines.length) ∧ charAt lines p.1 p.2 = '#' ∧ pixelIndex w lines.length p = k := by
  obtain ⟨-, -, -, -, hsize, -⟩ := id h
  rw [figureOfLines, getLsbD_foldl_bits]
  simp only [List.any_eq_true, List.mem_filter, mem_positions, decide_eq_true_eq, beq_iff_eq, Bool.or_eq_true, Bool.and_eq_true,
    BitVec.ofNat_eq_ofNat, BitVec.getLsbD_zero, Bool.false_eq_true, false_or, and_assoc]
  refine and_iff_right_of_imp ?_
  rintro ⟨p, hc, hr, -, rfl⟩
  exact (pixelIndex_lt hc hr).trans_le hsize

theorem figureOfLines_bit (c r : Nat) :
    (figureOfLines lines w).bit c r = true ↔ c < w ∧ r < lines.length ∧ charAt lines c r = '#' := by
  rw [figure_bit_iff, figureOfLines_width h, figureOfLines_height h, figureOfLines_getLsbD h]
  constructor
  · rintro ⟨hc, hr, p, hp, hchar, hidx⟩
    cases pixelIndex_inj hp ⟨hc, hr⟩ hidx
    exact ⟨hc, hr, hchar⟩
  · rintro ⟨hc, hr, hchar⟩
    exact ⟨hc, hr, (c, r), ⟨hc, hr⟩, hchar, rfl⟩

theorem figureOfLines_bit_iff (c r : Nat) :
    (figureOfLines lines w).bit c r = true ↔ lines[r]?.bind (fun l => l[c]?) = some '#' := by
  rw [figureOfLines_bit h, charAt_eq_hash_iff]
  obtain ⟨-, -, -, -, -, hlines⟩ := h
  refine ⟨fun ⟨_, _, hchar⟩ => hchar, fun hchar => ?_⟩
  obtain ⟨l, hl, hc⟩ := Option.bind_eq_some_iff.1 hchar
  obtain ⟨hr, rfl⟩ := List.getElem?_eq_some_iff.1 hl
  obtain ⟨hlt, -⟩ := List.getElem?_eq_some_iff.1 hc
  exact ⟨(hlines _ (List.getElem_mem hr)).1 ▸ hlt, hr, hchar⟩

theorem figureOfLines_valid : (figureOfLines lines w).valid = true := by
  obtain ⟨-, -, -, -, hsize, -⟩ := id h
  rw [Figure.valid_iff, figureOfLines_width h, figureOfLines_height h]
  refine ⟨hsize, fun k hk => Bool.eq_false_iff.2 fun hbit => ?_⟩
  obtain ⟨p, ⟨hc, hr⟩, -, rfl⟩ := (figureOfLines_getLsbD h k).1 hbit
  exact absurd (pixelIndex_lt hc hr) (by omega)

/-- `str` writes the lines back: a `#` where the pixel is set, and the other character that a literal has where it is not. -/
theorem str_figureOfLines : str (figureOfLines lines w) = List.intercalate ['\n'] lines := by
  rw [str, figureOfLines_width h, figureOfLines_height h]
  congr 1
  have hlines : ∀ l ∈ lines, l.length = w ∧ ∀ c ∈ l, c = '#' ∨ c = ' ' := by obtain ⟨-, -, -, -, -, h⟩ := h; exact h
  refine List.ext_getElem (by simp) fun r _ hr => ?_
  obtain ⟨hlen, hchars⟩ := hlines lines[r] (List.getElem_mem hr)
  rw [List.getElem_map, List.getElem_range]
  refine List.ext_getElem (by simp [hlen]) fun c _ hc => ?_
  have hbit : (figureOfLines lines w).bit c r = true ↔ lines[r][c] = '#' := by
    rw [figureOfLines_bit_iff h, List.getElem?_eq_getElem hr, Option.bind_some, List.getElem?_eq_getElem hc,
      Option.some_inj]
  rw [List.getElem_map, List.getElem_range]
  rcases hchars _ (List.getElem_mem hc) with he | he <;> simp [hbit, he]

theorem fromStr_intercalate : fromStr (List.intercalate ['\n'] lines) = some (figureOfLines lines w) := by
  obtain ⟨-, -, hne, -, -, hlines⟩ := id h
  have hsplit : splitLines (List.intercalate ['\n'] lines) = lines := by
    refine splitLines_intercalate (List.length_pos_iff.1 hne) fun l hl c hc => ?_
    rcases (hlines l hl).2 c hc with rfl | rfl <;> decide
  rw [fromStr_eq, hsplit, literalLines_headD h, if_pos]
  rwa [literalOk_iff, literalLines_headD h]

end

/-- Everything `from_str` accepts: the joined lines of a literal. -/
theorem fromStr_eq_some {text : List Char} {f : Figure} (h : fromStr text = some f) :
    ∃ lines w, LiteralLines lines w ∧ text = List.intercalate ['\n'] lines ∧ f = figureOfLines lines w := by
  rw [fromStr_eq, Option.ite_none_right_eq_some] at h
  obtain ⟨hok, hf⟩ := h
  exact ⟨_, _, (literalOk_iff _).1 hok, (intercalate_splitLines text).symm, (Option.some.inj hf).symm⟩

theorem fromStr_valid {text : List Char} {f : Figure} (h : fromStr text = some f) : f.valid = true := by
  obtain ⟨lines, w, hlit, -, rfl⟩ := fromStr_eq_some h
  exact figureOfLines_valid hlit

/-- Settles O32: the Figure of a literal's lines has the pixels that `str` writes as those lines. -/
theorem figureTextRoundTrip : Obligations.FigureTextRoundTrip := by
  refine ⟨fun text f h => ?_, fun text => ⟨?_, ?_⟩, fun lines w h => ?_⟩
  · obtain ⟨lines, w, hlit, rfl, rfl⟩ := fromStr_eq_some h
    exact ⟨str_figureOfLines hlit, figureOfLines_valid hlit⟩
  · rintro ⟨f, h⟩
    obtain ⟨lines, w, hlit, htext, -⟩ := fromStr_eq_some h
    exact ⟨lines, w, hlit, htext⟩
  · rintro ⟨lines, w, hlit, rfl⟩
    exact ⟨_, fromStr_intercalate hlit⟩
  · exact ⟨_, fromStr_intercalate h, figureOfLines_wh h, figureOfLines_bit_iff h⟩

end Sys2Proof.Machine
end

section
/-! The assembler (30_encoding.md R88, R89): each written operand reads back, and what FLDS and FBCLRROW stand for. -/

namespace Sys2Proof.Machine

/-! ### Immediates -/

theorem unsignedImm_toNat {n : Nat} (v : BitVec n) : unsignedImm n v.toNat = some v := by
  have hlt : (v.toNat : Int) < 2 ^ n := by exact_mod_cast v.isLt
  rw [unsignedImm, if_pos ⟨Int.natCast_nonneg _, hlt⟩, BitVec.ofInt_natCast, BitVec.ofNat_toNat, BitVec.setWidth_eq]

theorem signedImm_toInt (v : Byte) : signedImm v.toInt = some v := by
  have hlo := BitVec.le_toInt v
  have hhi := BitVec.toInt_lt (x := v)
  rw [signedImm, if_pos (by omega), BitVec.ofInt_toInt]

/-! ### The commands with an immediate: their reading is that of the immediate -/

@[simp] theorem readCommand_stat (v : Int) : readCommand "STAT" [.imm v] = (unsignedImm 8 v).map .stat := rfl
@[simp] theorem readCommand_fld (d : RegNo) (v u : Int) :
    readCommand "FLD" [.fig d, .imm v, .imm u] =
      (unsignedImm 8 v).bind fun wh => (unsignedImm 16 u).map fun data => .fld d wh data := rfl
@[simp] theorem readCommand_fgetb (r : RegNo) (v u : Int) :
    readCommand "FGETB" [.fig r, .imm v, .imm u] =
      (unsignedImm 8 v).bind fun col => (unsignedImm 8 u).map fun row => .fgetb r col row := rfl
@[simp] theorem readCommand_fpaint (b p r : RegNo) (v : Int) :
    readCommand "FPAINT" [.bank b, .dot p, .fig r, .imm v] = (unsignedImm 8 v).map fun c => .fpaint b p r c := rfl
@[simp] theorem readCommand_fbset (b p : RegNo) (v : Int) :
    readCommand "FBSET" [.bank b, .dot p, .imm v] = (unsignedImm 8 v).map fun c => .fbset b p c := rfl
@[simp] theorem readCommand_fbdraw (b p r : RegNo) (v : Int) :
    readCommand "FBDRAW" [.bank b, .dot p, .fig r, .imm v] = (unsignedImm 8 v).map fun c => .fbdraw b p r c := rfl
@[simp] theorem readCommand_fbrowf (b : RegNo) (v : Int) :
    readCommand "FBROWF" [.bank b, .imm v] = (unsignedImm 8 v).map fun y => .fbrowf b y := rfl
@[simp] theorem readCommand_fbrowe (b : RegNo) (v : Int) :
    readCommand "FBROWE" [.bank b, .imm v] = (unsignedImm 8 v).map fun y => .fbrowe b y := rfl
@[simp] theorem readCommand_fbclrr (b : RegNo) (v u : Int) :
    readCommand "FBCLRR" [.bank b, .imm v, .imm u] =
      (unsignedImm 8 v).bind fun y0 => (unsignedImm 8 u).map fun y1 => .fbclrr b y0 y1 := rfl
@[simp] theorem readCommand_fbrows (b : RegNo) (v : Int) (p0 p1 p2 p3 p4 p5 p6 p7 : Word) :
    readCommand "FBROWS" [.bank b, .imm v, .words [p0, p1, p2, p3, p4, p5, p6, p7]] =
      (unsignedImm 8 v).map fun c => .fbrows b c p0 p1 p2 p3 p4 p5 p6 p7 := rfl
@[simp] theorem readCommand_pseed (v : Int) : readCommand "PSEED" [.imm v] = (unsignedImm 32 v).map .pseed := rfl
@[simp] theorem readCommand_pnext (v : Int) : readCommand "PNEXT" [.imm v] = (unsignedImm 8 v).map .pnext := rfl
@[simp] theorem readCommand_dld (d : RegNo) (v u : Int) :
    readCommand "DLD" [.dot d, .imm v, .imm u] = (signedImm v).bind fun x => (signedImm u).map fun y => .dld d x y := rfl
@[simp] theorem readCommand_ainit (a : RegNo) (v : Int) :
    readCommand "AINIT" [.arena a, .imm v] = (unsignedImm 16 v).map fun cap => .ainit a cap := rfl
@[simp] theorem readCommand_arem (a : RegNo) (v : Int) :
    readCommand "AREM" [.arena a, .imm v] = (unsignedImm 8 v).map fun k => .arem a k := rfl
@[simp] theorem readCommand_aget (a d : RegNo) (v : Int) :
    readCommand "AGET" [.dot d, .arena a, .imm v] = (unsignedImm 8 v).map fun k => .aget a d k := rfl
@[simp] theorem readCommand_aset (a r : RegNo) (v : Int) :
    readCommand "ASET" [.arena a, .imm v, .dot r] = (unsignedImm 8 v).map fun k => .aset a r k := rfl

/-- A command's written operands read back as that command: an immediate that is written from a field is in the field's range. -/
theorem readCommand_written (i : Instr) : readCommand (written i).1 (written i).2 = some i := by
  cases i
  case stat | fld | fgetb | fpaint | fbset | fbdraw | fbrowf | fbrowe | fbclrr | fbrows | pseed | pnext | dld | ainit
      | arem | aget | aset =>
    simp [written, unsignedImm_toNat, signedImm_toInt]
  all_goals rfl

/-! ### What the assembler accepts -/

theorem readCommand_flds {ops : List AsmOperand} {i : Instr} (h : readCommand "FLDS" ops = some i) :
    ∃ d t f, ops = [.fig d, .text t] ∧ fromStr t = some f ∧ i = .fld d f.wh f.data := by
  rcases ops with _ | ⟨a, _ | ⟨b, _ | ⟨c, ops⟩⟩⟩
  · cases (h : none = some i)
  · cases a <;> cases (h : none = some i)
  · cases a
    case fig d =>
      cases b
      case text t =>
        obtain ⟨f, hf, rfl⟩ := Option.map_eq_some_iff.1 (h : (fromStr t).map _ = some i)
        exact ⟨d, t, f, rfl, hf, rfl⟩
      all_goals cases (h : none = some i)
    all_goals cases (h : none = some i)
  · cases a <;> cases b <;> cases (h : none = some i)

theorem assemble_eq_some_iff {m : String} {ops : List AsmOperand} {i : Instr} :
    assemble m ops = some i ↔ readCommand m ops = some i ∧ i.wellFormed = true := by
  rw [assemble, Option.filter_eq_some_iff]

/-- A row on the grid is half-open between itself and the next one (R89). -/
theorem assemble_fbclrrow_onGrid {b : RegNo} {y : Nat} (hb : b.toNat ≤ 3) (hy : y ≤ 31) :
    assemble "FBCLRROW" [.bank b, .imm y] = some (.fbclrr b (BitVec.ofNat 8 y) (BitVec.ofNat 8 (y + 1))) := by
  have hwf (y0 y1 : Byte) : (Instr.fbclrr b y0 y1).wellFormed = true := decide_eq_true hb
  have hnext : (y : Int) + 1 = ((y + 1 : Nat) : Int) := by omega
  rw [assemble_fbclrrow, if_pos (by omega), hnext, BitVec.ofInt_natCast, BitVec.ofInt_natCast, Option.filter_some,
    if_pos (hwf _ _)]

/-- Settles O33: the assembler accepts what is read as a well-formed command, and only that. -/
theorem assemblerReadsWrittenCommand : Obligations.AssemblerReadsWrittenCommand := by
  refine ⟨fun i hi => assemble_eq_some_iff.2 ⟨readCommand_written i, hi⟩, fun m ops i h => (assemble_eq_some_iff.1 h).2,
    fun ops i h => ?_, fun d text => ⟨fun h => ?_, fun f h => ?_⟩, fun b y hb hy => ?_⟩
  · obtain ⟨d, t, f, -, hf, rfl⟩ := readCommand_flds (assemble_eq_some_iff.1 h).1
    exact fromStr_valid hf
  · rw [assemble_flds, h]; rfl
  · rw [assemble_flds, h]; rfl
  · exact ⟨BitVec.ofNat 8 y, BitVec.ofNat 8 (y + 1), by rw [BitVec.toNat_ofNat]; omega,
      by rw [BitVec.toNat_ofNat]; omega, assemble_fbclrrow_onGrid hb hy⟩

end Sys2Proof.Machine
end

section
/-! Rotation (40_figure.md R106, R109): the data bits of a valid Figure, and of its rotation, are the places of its set pixels under
two numberings of the rectangle; the second is the first one's numbering of the turned rectangle. -/

namespace Sys2Proof.Machine

/-! ### The set pixels as data bits -/

/-- Every bit below `W*H` is the bit of a pixel. -/
theorem exists_pixelIndex_eq {w h k : Nat} (hk : k < w * h) : ∃ p : Nat × Nat, p.1 < w ∧ p.2 < h ∧ pixelIndex w h p = k := by
  have hw : 0 < w := Nat.pos_of_mul_pos_right (by omega : 0 < w * h)
  have hcol : k % w < w := Nat.mod_lt k hw
  have hrow : k / w < h := Nat.div_lt_of_lt_mul hk
  refine ⟨(w - 1 - k % w, h - 1 - k / w), Nat.sub_one_sub_lt hcol, Nat.sub_one_sub_lt hrow, ?_⟩
  rw [pixelIndex, Nat.sub_sub_self (Nat.le_sub_one_of_lt hrow), Nat.sub_sub_self (Nat.le_sub_one_of_lt hcol)]
  exact Nat.div_add_mod' k w

theorem bounds_of_mem_pixels {f : Figure} {p : Nat × Nat} (hp : p ∈ f.pixels) : p.1 < f.width ∧ p.2 < f.height :=
  Figure.bit_bounds (Figure.mem_pixels.1 hp)

theorem data_getLsbD_iff_pixel {f : Figure} (hf : f.valid = true) (k : Nat) :
    f.data.getLsbD k = true ↔ ∃ p ∈ f.pixels, pixelIndex f.width f.height p = k := by
  simp only [Figure.mem_pixels, figure_bit_iff]
  constructor
  · intro hk
    have hlt : k < f.width * f.height := by
      by_contra hge
      rw [(Figure.valid_iff.1 hf).2 k (by omega)] at hk
      contradiction
    obtain ⟨p, hc, hr, rfl⟩ := exists_pixelIndex_eq hlt
    exact ⟨p, ⟨hc, hr, hk⟩, rfl⟩
  · rintro ⟨p, ⟨-, -, hp⟩, rfl⟩
    exact hp

theorem rotate_getLsbD_iff_pixel {f : Figure} (hf : f.valid = true) (k : Nat) :
    f.rotate.data.getLsbD k = true ↔ ∃ p ∈ f.pixels, rotatedIndex f.width f.height p = k := by
  simp only [Figure.rotate_getLsbD, Bool.and_eq_true, decide_eq_true_eq, List.any_eq_true, beq_iff_eq]
  refine and_iff_right_of_imp ?_
  rintro ⟨p, hp, rfl⟩
  obtain ⟨hc, hr⟩ := bounds_of_mem_pixels hp
  exact (rotatedIndex_lt hc hr).trans_le (Figure.valid_iff.1 hf).1

/-- A valid Figure is its size and its pixels. -/
theorem figure_eq_of_bit {f g : Figure} (hf : f.valid = true) (hg : g.valid = true) (hwh : f.wh = g.wh)
    (hbit : ∀ c r, c < g.width → r < g.height → f.bit c r = g.bit c r) : f = g := by
  have hw : f.width = g.width := by rw [Figure.width_eq, hwh, Figure.width_eq]
  have hh : f.height = g.height := by rw [Figure.height_eq, hwh, Figure.height_eq]
  have hpix (p : Nat × Nat) : p ∈ f.pixels ↔ p ∈ g.pixels := by
    rw [Figure.mem_pixels, Figure.mem_pixels]
    constructor <;> intro hp
    · obtain ⟨hc, hr⟩ := Figure.bit_bounds hp
      rwa [← hbit _ _ (hw ▸ hc) (hh ▸ hr)]
    · obtain ⟨hc, hr⟩ := Figure.bit_bounds hp
      rwa [hbit _ _ hc hr]
  have hdata : f.data = g.data := BitVec.eq_of_getLsbD_eq fun k _ => by
    rw [Bool.eq_iff_iff, data_getLsbD_iff_pixel hf, data_getLsbD_iff_pixel hg, hw, hh]
    simp only [hpix]
  cases f
  cases g
  exact congrArg₂ Figure.mk hdata hwh

/-! ### Where a rotation puts a pixel -/

/-- The place of pixel `p` of a Figure of height `h` once the Figure is turned (R106). -/
def turned (h : Nat) (p : Nat × Nat) : Nat × Nat := (h - 1 - p.2, p.1)

theorem turned_bounds {w h : Nat} {p : Nat × Nat} (hp : p.1 < w ∧ p.2 < h) : (turned h p).1 < h ∧ (turned h p).2 < w := by
  simp only [turned]
  omega

theorem rotatedIndex_eq_pixelIndex (w : Nat) {h : Nat} {p : Nat × Nat} (hr : p.2 < h) :
    rotatedIndex w h p = pixelIndex h w (turned h p) := by
  simp only [rotatedIndex, pixelIndex, turned]
  omega

theorem rotatedIndex_inj {w h : Nat} {p q : Nat × Nat} (hp : p.1 < w ∧ p.2 < h) (hq : q.1 < w ∧ q.2 < h)
    (heq : rotatedIndex w h p = rotatedIndex w h q) : p = q := by
  rw [rotatedIndex_eq_pixelIndex w hp.2, rotatedIndex_eq_pixelIndex w hq.2] at heq
  have hturned := pixelIndex_inj (turned_bounds hp) (turned_bounds hq) heq
  simp only [turned, Prod.mk.injEq] at hturned
  exact Prod.ext (by omega) (by omega)

/-- The data bit of a rotated Figure that a pixel lands on holds that pixel (R106). -/
theorem rotate_getLsbD_rotatedIndex {f : Figure} (hf : f.valid = true) {c r : Nat} (hc : c < f.width) (hr : r < f.height) :
    f.rotate.data.getLsbD (rotatedIndex f.width f.height (c, r)) = f.bit c r := by
  rw [Bool.eq_iff_iff, rotate_getLsbD_iff_pixel hf]
  constructor
  · rintro ⟨p, hp, hidx⟩
    cases rotatedIndex_inj (bounds_of_mem_pixels hp) ⟨hc, hr⟩ hidx
    exact Figure.mem_pixels.1 hp
  · exact fun h => ⟨(c, r), Figure.mem_pixels.2 h, rfl⟩

/-- The pixel of a rotated Figure (R106). -/
theorem rotate_bit {f : Figure} (hf : f.valid = true) {c r : Nat} (hc : c < f.height) (hr : r < f.width) :
    f.rotate.bit c r = f.bit r (f.height - 1 - c) := by
  have hfrom : f.height - 1 - c < f.height := by omega
  have hplace : turned f.height (r, f.height - 1 - c) = (c, r) := by
    simp only [turned, Prod.mk.injEq, and_true]
    omega
  rw [← rotate_getLsbD_rotatedIndex hf hr hfrom, rotatedIndex_eq_pixelIndex _ hfrom, hplace, Bool.eq_iff_iff,
    figure_bit_iff, Figure.rotate_width, Figure.rotate_height]
  exact ⟨fun ⟨_, _, h⟩ => h, fun h => ⟨hc, hr, h⟩⟩

/-! ### Repeated rotations (R109 a, b) -/

theorem rotate_rotate_wh (f : Figure) : f.rotate.rotate.wh = f.wh := by
  apply BitVec.eq_of_toNat_eq
  rw [Figure.rotate_wh, Figure.rotate_height, Figure.rotate_width, Figure.width_eq, Figure.height_eq]
  omega

theorem rotate_rotate_bit {f : Figure} (hf : f.valid = true) {c r : Nat} (hc : c < f.width) (hr : r < f.height) :
    f.rotate.rotate.bit c r = f.bit (f.width - 1 - c) (f.height - 1 - r) := by
  rw [rotate_bit (Figure.valid_rotate hf) (by rwa [Figure.rotate_height]) (by rwa [Figure.rotate_width]),
    Figure.rotate_height, rotate_bit hf hr (by omega)]

/-- Settles O26: a valid Figure is its size and its pixels, and two half turns leave both as they are. -/
theorem fourRotationsAreIdentity : Obligations.FourRotationsAreIdentity := by
  intro f hf
  have hf2 : f.rotate.rotate.valid = true := Figure.valid_rotate (Figure.valid_rotate hf)
  refine figure_eq_of_bit (Figure.valid_rotate (Figure.valid_rotate hf2)) hf ?_ fun c r hc hr => ?_
  · rw [rotate_rotate_wh, rotate_rotate_wh]
  · calc f.rotate.rotate.rotate.rotate.bit c r
      _ = f.rotate.rotate.bit (f.width - 1 - c) (f.height - 1 - r) := by
        rw [rotate_rotate_bit hf2] <;> simp [hc, hr]
      _ = f.bit (f.width - 1 - (f.width - 1 - c)) (f.height - 1 - (f.height - 1 - r)) :=
        rotate_rotate_bit hf (Nat.sub_one_sub_lt hc) (Nat.sub_one_sub_lt hr)
      _ = f.bit c r := by
        rw [Nat.sub_sub_self (Nat.le_sub_one_of_lt hc), Nat.sub_sub_self (Nat.le_sub_one_of_lt hr)]

/-! ### The number of set bits (R109 c) -/

/-- The pixels are listed row by row and in a row from left to right (R110). -/
theorem pixels_rowMajor (f : Figure) :
    f.pixels.Pairwise (fun k k' => k.2 < k'.2 ∨ (k.2 = k'.2 ∧ k.1 < k'.1)) := by
  refine List.pairwise_flatMap.2 ⟨fun r _ => ?_, ?_⟩
  · exact List.pairwise_map.2 ((List.pairwise_lt_range.filter _).imp fun hlt => .inr ⟨rfl, hlt⟩)
  · refine List.pairwise_lt_range.imp fun hlt => ?_
    simp only [List.mem_map]
    rintro _ ⟨c, -, rfl⟩ _ ⟨c', -, rfl⟩
    exact .inl hlt

theorem pixels_nodup (f : Figure) : f.pixels.Nodup :=
  (pixels_rowMajor f).imp fun h heq => by
    subst heq
    omega

/-- If the set bits of a word are the indices of some items, no two alike, there are as many as items. -/
theorem countP_range_eq_length {α : Type} {data : BitVec 16} {ps : List α} {idx : α → Nat} (hnodup : ps.Nodup)
    (hinj : ∀ p ∈ ps, ∀ q ∈ ps, idx p = idx q → p = q) (hbits : ∀ k, data.getLsbD k = true ↔ ∃ p ∈ ps, idx p = k) :
    (List.range 16).countP (fun k => data.getLsbD k) = ps.length := by
  have hperm : ((List.range 16).filter fun k => data.getLsbD k).Perm (ps.map idx) := by
    refine (List.perm_ext_iff_of_nodup (List.nodup_range.filter _) (hnodup.map_on hinj)).2 fun k => ?_
    rw [List.mem_filter, List.mem_range, List.mem_map, ← hbits, and_iff_right_iff_imp]
    exact BitVec.lt_of_getLsbD
  rw [List.countP_eq_length_filter, hperm.length_eq, List.length_map]

theorem countP_data {f : Figure} (hf : f.valid = true) :
    (List.range 16).countP (fun k => f.data.getLsbD k) = f.pixels.length :=
  countP_range_eq_length (pixels_nodup f)
    (fun _ hp _ hq => pixelIndex_inj (bounds_of_mem_pixels hp) (bounds_of_mem_pixels hq))
    (data_getLsbD_iff_pixel hf)

theorem countP_rotate_data {f : Figure} (hf : f.valid = true) :
    (List.range 16).countP (fun k => f.rotate.data.getLsbD k) = f.pixels.length :=
  countP_range_eq_length (pixels_nodup f)
    (fun _ hp _ hq => rotatedIndex_inj (bounds_of_mem_pixels hp) (bounds_of_mem_pixels hq))
    (rotate_getLsbD_iff_pixel hf)

/-- Settles O27: a Figure and its rotation both have a set bit for each set pixel of the Figure. -/
theorem rotationTurnsAndKeepsBits : Obligations.RotationTurnsAndKeepsBits := fun f hf =>
  ⟨rotate_rotate_wh f, fun _ _ hc hr => rotate_rotate_bit hf hc hr, Figure.valid_rotate hf,
    (countP_rotate_data hf).trans (countP_data hf).symm⟩

end Sys2Proof.Machine
end

section
/-! The Figure commands but FPAINT on a running unit (40_figure.md R102 to R107). -/

namespace Sys2Proof.Machine

section
variable {s : State} (hrun : s.fault = 0)
include hrun

theorem exec_fld_valid (d : RegNo) {wh : Byte} {data : BitVec 16} (hv : Figure.valid ⟨data, wh⟩ = true) :
    exec (.fld d wh data) s = .next (respond 0 (writeFig d ⟨data, wh⟩ s)) :=
  congrArg Host.Outcome.next ((checked_running _ hrun rfl).trans (if_pos hv))

theorem exec_fld_invalid (d : RegNo) {wh : Byte} {data : BitVec 16} (hv : ¬Figure.valid ⟨data, wh⟩ = true) :
    exec (.fld d wh data) s = .next (takeFault .invalidFigure (packL d wh data) s) :=
  congrArg Host.Outcome.next ((checked_running _ hrun rfl).trans (if_neg hv))

theorem exec_fwid (r : RegNo) : exec (.fwid r) s = .next (respond (natValue (readFig s r).width) s) :=
  congrArg Host.Outcome.next (checked_running _ hrun rfl)

theorem exec_fhgt (r : RegNo) : exec (.fhgt r) s = .next (respond (natValue (readFig s r).height) s) :=
  congrArg Host.Outcome.next (checked_running _ hrun rfl)

theorem exec_frd (r : RegNo) : exec (.frd r) s = .next (respond (figureValue (readFig s r)) s) :=
  congrArg Host.Outcome.next (checked_running _ hrun rfl)

theorem exec_fgetb (r : RegNo) (col row : Byte) :
    exec (.fgetb r col row) s = .next (respond (boolValue ((readFig s r).bit col.toNat row.toNat)) s) :=
  congrArg Host.Outcome.next (checked_running _ hrun rfl)

theorem exec_frot (d r : RegNo) : exec (.frot d r) s = .next (respond 0 (writeFig d (readFig s r).rotate s)) :=
  congrArg Host.Outcome.next (checked_running _ hrun rfl)

end

/-- Everything that a Figure register written and answered for comes to. -/
theorem respond_writeFig_effect (d : RegNo) (v : Figure) (s : State) :
    readFig (respond 0 (writeFig d v s)) d = v ∧
      (∀ r, r ≠ d → readFig (respond 0 (writeFig d v s)) r = readFig s r) ∧
      Responded 0x00 0 s (respond 0 (writeFig d v s)) ∧ KeepsAllBut [.figs, .responses] s (respond 0 (writeFig d v s)) := by
  have hread (r : RegNo) : readFig (respond 0 (writeFig d v s)) r = if r = d then v else readFig s r :=
    readFig_writeFig d r v s
  refine ⟨(hread d).trans (if_pos rfl), fun r hr => (hread r).trans (if_neg hr), rfl, ?_⟩
  exact keepsAllBut_of_sameFields fun p hp => by cases p <;> simp_all [SameFields]

/-- R100's two ways for a literal to be invalid, as numbers. -/
theorem not_valid_of_stray {wh : Byte} {data : BitVec 16}
    (h : 16 < (wh.toNat / 16) * (wh.toNat % 16) ∨ ∃ k, (wh.toNat / 16) * (wh.toNat % 16) ≤ k ∧ data.getLsbD k = true) :
    ¬Figure.valid ⟨data, wh⟩ = true := by
  simp only [Figure.valid_iff, Figure.width_eq, Figure.height_eq]
  rintro ⟨hsize, hclear⟩
  rcases h with hbig | ⟨k, hk, hset⟩
  · exact absurd hsize (Nat.not_le_of_lt hbig)
  · exact absurd hset (by simp [hclear k hk])

/-- Settles O21: a valid literal passes the check and is written. -/
theorem fldLoadsValidFigure : Obligations.FldLoadsValidFigure := fun s d _ _ hrun hv =>
  ⟨_, exec_fld_valid hrun d hv, respond_writeFig_effect d _ s⟩

/-- Settles O22: FCMD holds the packed header of the literal. -/
theorem fldInvalidFigureFaults : Obligations.FldInvalidFigureFaults := by
  intro s d wh data hrun h
  obtain ⟨hfault, hfcmd, hresp, hkeeps⟩ := takeFault_effect .invalidFigure (packL d wh data) s
  refine ⟨_, exec_fld_invalid hrun d (not_valid_of_stray h), hfault, ?_, hresp, hkeeps⟩
  rw [hfcmd, packL_toNat]

theorem natValue_toNat {n : Nat} (hn : n < 2 ^ 24) : (natValue n).toNat = n := by
  rw [natValue, BitVec.toNat_ofNat, Nat.mod_eq_of_lt hn]

/-- Settles O23: the values as numbers. -/
theorem figureReadBacks : Obligations.FigureReadBacks := by
  intro s r hrun
  have hw := (readFig s r).width_lt
  have hh := (readFig s r).height_lt
  refine ⟨⟨_, _, exec_fwid hrun r, onlyResponds_respond _ s, ?_⟩, ⟨_, _, exec_fhgt hrun r, onlyResponds_respond _ s, ?_⟩,
    ⟨_, _, exec_frd hrun r, onlyResponds_respond _ s, toNat_append_eq _ _⟩⟩
  · rw [natValue_toNat (by omega), Figure.width_eq]
  · rw [natValue_toNat (by omega), Figure.height_eq]

/-- Settles O24: the value is R101's test of the pixel. -/
theorem fgetbReadsPixel : Obligations.FgetbReadsPixel := by
  intro s r col row hrun
  refine ⟨_, exec_fgetb hrun r col row, ?_⟩
  simp only [← Figure.width_eq, ← Figure.height_eq]
  have h := figure_bit_iff (readFig s r) col.toNat row.toNat
  simp only [pixelIndex] at h
  simp only [← h]
  exact onlyResponds_respond _ s

/-- Settles O25: the destination holds the rotated source. -/
theorem frotTurnsClockwise : Obligations.FrotTurnsClockwise := by
  intro s d r hrun hv
  obtain ⟨hd, hothers, hresp, hkeeps⟩ := respond_writeFig_effect d (readFig s r).rotate s
  refine ⟨_, exec_frot hrun d r, ?_⟩
  rw [hd]
  exact ⟨Figure.rotate_width _, Figure.rotate_height _, fun _ _ hc hr => rotate_bit hv hc hr,
    fun _ _ hc hr => rotate_getLsbD_rotatedIndex hv hc hr, Figure.valid_rotate hv, hothers, hresp, hkeeps⟩

end Sys2Proof.Machine
end

section
/-! FPAINT on a running unit (40_figure.md R108, R110): whatever the answers, it has offered the pixels accepted and the one after
them; then its walk has ended with a verdict or waits for the next answer. -/

namespace Sys2Proof.Machine

/-- The request `q` offers the pixel `k` of the walk's Figure, at the position of its Dot register, unwrapped (R108). -/
def OffersPixel (s : State) (w : PaintWalk) (q : PaintRequest) (k : Nat × Nat) : Prop :=
  q.bank = w.bank ∧ q.colour = w.colour ∧ q.px.toInt = (readDot s w.dot).x.toInt + k.1 ∧
    q.py.toInt = (readDot s w.dot).y.toInt + k.2

/-- The sum of a signed byte and a column or row of a Figure fits the signed 16 bits it is sent in. -/
theorem toInt_ofInt_byte_add (v : Byte) {n : Nat} (hn : n < 16) : (BitVec.ofInt 16 (v.toInt + n)).toInt = v.toInt + n := by
  have hlo := v.le_toInt
  have hhi := v.toInt_lt
  rw [BitVec.toInt_ofInt, Int.bmod_eq_of_le] <;> omega

theorem paintRequest_offersPixel (s : State) (w : PaintWalk) {k : Nat × Nat} (hk : k ∈ (readFig s w.fig).pixels) :
    OffersPixel s w (paintRequest s w k) k := by
  obtain ⟨hc, hr⟩ := bounds_of_mem_pixels hk
  exact ⟨rfl, rfl, toInt_ofInt_byte_add _ (hc.trans (Figure.width_lt _)),
    toInt_ofInt_byte_add _ (hr.trans (Figure.height_lt _))⟩

theorem paintRequests_offerPixels (s : State) (w : PaintWalk) {ks : List (Nat × Nat)} (hks : ks ⊆ (readFig s w.fig).pixels) :
    List.Forall₂ (OffersPixel s w) (ks.map (paintRequest s w)) ks :=
  List.forall₂_map_left_iff.2 (List.forall₂_same.2 fun _ hk => paintRequest_offersPixel s w (hks hk))

/-- A walk just begun has sent the requests of the pixels accepted and of the one after them, the first among them. -/
theorem paintStart_eq {s : State} {w : PaintWalk} {n : Nat} {verdict : Option Bool} {rest : List Bool}
    (h : paintSettle (readFig s w.fig).pixels s.paintAnswers =
      ⟨((readFig s w.fig).pixels.take (n + 1)).drop 1, n, verdict, rest⟩) :
    paintStart w s = paintAdvance w [] ⟨(readFig s w.fig).pixels.take (n + 1), n, verdict, rest⟩ s := by
  have hsent : (readFig s w.fig).pixels.take 1 ++ ((readFig s w.fig).pixels.take (n + 1)).drop 1 =
      (readFig s w.fig).pixels.take (n + 1) := by
    cases (readFig s w.fig).pixels <;> simp
  simp only [paintStart, h, paintAdvance_eq, hsent, List.nil_append]

/-- No walk changes anything but the paint port, its own position and the response port (R108). -/
theorem keepsAllBut_paintAdvance (w : PaintWalk) (first : List (Nat × Nat)) (run : PaintRun) (s : State) :
    KeepsAllBut [.responses, .walk, .paintPort] s (paintAdvance w first run s) := by
  rw [paintAdvance_eq]
  exact keepsAllBut_of_sameFields fun p hp => by cases p <;> simp_all [SameFields]

/-- A listed part that reads the same after all need not be listed. -/
theorem KeepsAllBut.of_cons {p : Part} {changed : List Part} {s t : State} (h : KeepsAllBut (p :: changed) s t)
    (hp : SamePart p s t) : KeepsAllBut changed s t := by
  intro q hq
  by_cases hqp : q = p
  · exact hqp ▸ hp
  · exact h q (List.not_mem_cons_of_ne_of_not_mem hqp hq)

section
variable {s : State} {b : RegNo} (p r : RegNo) (c : Byte) (hrun : s.fault = 0) (hb : b.toNat ≤ 3)
include hrun hb

theorem exec_fpaint_eq {n : Nat} {verdict : Option Bool} {rest : List Bool}
    (h : paintSettle (readFig s r).pixels s.paintAnswers = ⟨((readFig s r).pixels.take (n + 1)).drop 1, n, verdict, rest⟩) :
    exec (.fpaint b p r c) s =
      .next (paintAdvance ⟨b, p, r, c, 0⟩ [] ⟨(readFig s r).pixels.take (n + 1), n, verdict, rest⟩ s) :=
  (exec_fpaint_running p r c hrun hb).trans (congrArg Host.Outcome.next (paintStart_eq h))

/-- The FPAINT whose walk ends at once, after `n` acceptances. -/
theorem exec_fpaint_ended {n : Nat} {ok : Bool} {rest : List Bool}
    (h : paintSettle (readFig s r).pixels s.paintAnswers = ⟨((readFig s r).pixels.take (n + 1)).drop 1, n, some ok, rest⟩) :
    ∃ t reqs, exec (.fpaint b p r c) s = .next t ∧ Responded 0x00 (boolValue ok) s t ∧ t.walk = none ∧
      t.paintAnswers = rest ∧ t.paintRequests = s.paintRequests ++ reqs ∧
      List.Forall₂ (OffersPixel s ⟨b, p, r, c, 0⟩) reqs ((readFig s r).pixels.take (n + 1)) ∧
      KeepsAllBut [.responses, .walk, .paintPort] s t := by
  refine ⟨_, _, exec_fpaint_eq p r c hrun hb h, rfl, rfl, rfl, rfl, ?_, keepsAllBut_paintAdvance _ _ _ s⟩
  exact paintRequests_offerPixels s ⟨b, p, r, c, 0⟩ (List.take_subset _ _)

end

/-- Settles O28: the walk whose pixels are all accepted has sent their requests, and they are the set pixels in R110's order. -/
theorem fpaintOffersEveryPixel : Obligations.FpaintOffersEveryPixel := by
  intro s b p r c rest hrun hb hans
  have hall : (readFig s r).pixels.take ((readFig s r).pixels.length + 1) = (readFig s r).pixels :=
    List.take_of_length_le (Nat.le_succ _)
  have hsettle := paintSettle_all (readFig s r).pixels rest
  obtain ⟨t, reqs, hexec, hresp, hwalk, hleft, hreqs, hoffers, hkeeps⟩ :=
    exec_fpaint_ended p r c hrun hb (n := (readFig s r).pixels.length) (by rw [hall, hans, hsettle])
  exact ⟨t, reqs, hexec, hresp, hwalk, hleft, hreqs, hall ▸ hoffers, pixels_rowMajor _, fun _ => Figure.mem_pixels, hkeeps⟩

/-- Settles O29: the walk whose next pixel is rejected has sent that pixel's request last. -/
theorem fpaintStopsAtRejection : Obligations.FpaintStopsAtRejection := fun _ _ p r c _ rest hrun hb hn hans =>
  exec_fpaint_ended p r c hrun hb (ok := false) (hans ▸ paintSettle_rejected hn rest)

/-- A walk that waits goes on waiting without a new answer (70_reset_and_hazards.md R246 a). -/
theorem paintResume_silent {s : State} {w : PaintWalk} (hw : s.walk = some w) (hans : s.paintAnswers = [])
    (hpos : w.pos < (readFig s w.fig).pixels.length) : paintResume w s = s := by
  have hsettle : paintSettle ((readFig s w.fig).pixels.drop w.pos) s.paintAnswers = ⟨[], 0, none, []⟩ := by
    rw [hans, List.drop_eq_getElem_cons hpos, paintSettle_no_answer]
  simp only [paintResume, hsettle, paintAdvance_eq, List.map_nil, List.append_nil, Nat.add_zero, ← hw, ← hans]

/-- Settles O30: the walk waits at the pixel after those accepted, and there it goes on waiting. -/
theorem fpaintWaitsForAnswer : Obligations.FpaintWaitsForAnswer := by
  intro s b p r c n hrun hb hn hans
  have hexec := exec_fpaint_eq p r c hrun hb (hans ▸ paintSettle_short hn)
  obtain ⟨t, ht⟩ : ∃ t, paintAdvance ⟨b, p, r, c, 0⟩ [] ⟨(readFig s r).pixels.take (n + 1), n, none, []⟩ s = t := ⟨_, rfl⟩
  rw [ht] at hexec
  have hkeeps : KeepsAllBut [.responses, .walk, .paintPort] s t := ht ▸ keepsAllBut_paintAdvance _ _ _ s
  have hfig : readFig t r = readFig s r := hkeeps .figs (by decide) r
  rw [paintAdvance_eq] at ht
  have hwalk : t.walk = some ⟨b, p, r, c, n⟩ := by simp [← ht]
  have hleft : t.paintAnswers = [] := by rw [← ht]
  have hsilent : step t = .next t :=
    (step_of_walk hwalk).trans (congrArg Host.Outcome.next (paintResume_silent hwalk hleft (hfig ▸ hn)))
  refine ⟨t, ((readFig s r).pixels.take (n + 1)).map (paintRequest s ⟨b, p, r, c, 0⟩), hexec, hwalk, hleft, ?_, ?_, ?_,
    hsilent⟩
  · rw [← ht, List.nil_append]
  · rw [List.length_map, List.length_take, Nat.min_eq_left hn]
  · exact hkeeps.of_cons (by rw [← ht]; rfl)

end Sys2Proof.Machine
end

section
/-! Facts about the cells of the banks and the tests on them (41_framebuffer.md R123 to R135): what is read under a Figure and after
a range of rows is written, and what a command that writes cells alone and answers comes to. -/

namespace Sys2Proof.Machine

/-! ### A response after writes of cells -/

@[simp] theorem cellRead_respond (v : Value) (s : State) (b : RegNo) (x y : Int) :
    cellRead (respond v s) b x y = cellRead s b x y := rfl

/-- A response on top of a state that differs in its cells alone. -/
theorem respond_cells_effect (v : Value) {s e : State} (he : ∃ m, e = { s with cells := m }) :
    Responded 0x00 v s (respond v e) ∧ KeepsAllBut [.cells, .responses] s (respond v e) := by
  obtain ⟨m, rfl⟩ := he
  exact ⟨rfl, keepsAllBut_of_sameFields fun p hp => by cases p <;> simp_all [SameFields]⟩

/-- A command that keeps the Dot registers keeps the positions they hold. -/
theorem KeepsAllBut.position_eq {changed : List Part} {s t : State} (h : KeepsAllBut changed s t) (hd : .dots ∉ changed)
    (p : RegNo) : posX t p = posX s p ∧ posY t p = posY s p :=
  ⟨congrArg (·.x.toInt) (h .dots hd p), congrArg (·.y.toInt) (h .dots hd p)⟩

theorem KeepsAllBut.fault_eq_zero {changed : List Part} {s t : State} (h : KeepsAllBut changed s t) (hf : .faultRegs ∉ changed)
    (hrun : s.fault = 0) : t.fault = 0 := (h .faultRegs hf).1.trans hrun

/-! ### What a response says -/

/-- A response word determines its value. -/
theorem responseWord_inj {status : Byte} {v w : Value} : responseWord status v = responseWord status w ↔ v = w := by
  refine ⟨fun h => ?_, congrArg _⟩
  have hnum := congrArg BitVec.toNat h
  simp only [responseWord, toNat_append_eq] at hnum
  exact BitVec.eq_of_toNat_eq (by omega)

/-- Of a command that does nothing but answer, the response says what its answer is. -/
theorem responded_respond_iff {v w : Value} {s : State} : Responded 0x00 v s (respond w s) ↔ w = v := by
  rw [Responded, respond_responses, List.append_cancel_left_eq, List.singleton_inj, responseWord_inj]

theorem byteValue_toNat (v : Byte) : (byteValue v).toNat = v.toNat := BitVec.toNat_setWidth_of_le (by decide)

theorem boolValue_eq_one_iff {a : Bool} : boolValue a = 1 ↔ a = true := by cases a <;> decide

theorem boolValue_eq_zero_iff {a : Bool} : boolValue a = 0 ↔ a = false := by cases a <;> decide

/-! ### Reading cells -/

theorem rising_of_wf {s : State} (hs : Memory.wf 0 1024 s.cells = true) : Memory.rising s.cells := (Memory.wf_iff.1 hs).1

theorem cellRead_off_grid {s : State} {b : RegNo} {x y : Int} (h : onGrid x y = false) : cellRead s b x y = 0 := by
  simp [cellRead, h]

/-- R136 c: a cell just set reads its colour; off the grid nothing is written and 0 is read. -/
theorem cellRead_cellWrite_same {s : State} (b : RegNo) (x y : Int) (c : Byte) (hs : Memory.wf 0 1024 s.cells = true) :
    cellRead (cellWrite b x y c s) b x y = if onGrid x y = true then c else 0 := by
  rw [cellRead_cellWrite _ _ _ _ _ _ _ _ (rising_of_wf hs)]
  cases hgrid : onGrid x y with
  | false => simp [cellRead_off_grid hgrid]
  | true => simp

/-! ### A Figure at a position -/

/-- A set pixel of the Figure placed at `(x, y)` lands on the position `(x', y')`, which may be off the grid. -/
def Covers (f : Figure) (x y x' y' : Int) : Prop :=
  ∃ col row : Nat, f.bit col row = true ∧ x' = x + col ∧ y' = y + row

theorem exists_landsOn_iff_covers {f : Figure} {x y x' y' : Int} :
    (∃ p ∈ f.pixels, landsOn x y p x' y') ↔ Covers f x y x' y' := by
  simp only [Prod.exists, Figure.mem_pixels, landsOn, Covers, eq_comm]

/-- A drawn Figure's colour is in every cell on the grid under a set pixel. -/
theorem cellRead_drawFigure_covered {b : RegNo} {x y x' y' : Int} {f : Figure} (c : Byte) {s : State}
    (hs : Memory.wf 0 1024 s.cells = true) (hgrid : onGrid x' y' = true) (h : Covers f x y x' y') :
    cellRead (drawFigure b x y f c s) b x' y' = c :=
  (cellRead_drawFigure b b x y x' y' f c s (rising_of_wf hs)).trans
    (if_pos ⟨hgrid, rfl, exists_landsOn_iff_covers.2 h⟩)

/-- Drawing a Figure leaves every cell of another bank, and of its own away from the set pixels. -/
theorem cellRead_drawFigure_elsewhere {b b' : RegNo} {x y x' y' : Int} {f : Figure} (c : Byte) {s : State}
    (hs : Memory.wf 0 1024 s.cells = true) (h : ¬(b' = b ∧ Covers f x y x' y')) :
    cellRead (drawFigure b x y f c s) b' x' y' = cellRead s b' x' y' :=
  (cellRead_drawFigure b b' x y x' y' f c s (rising_of_wf hs)).trans
    (if_neg fun ⟨_, hbank, hpixel⟩ => h ⟨hbank, exists_landsOn_iff_covers.1 hpixel⟩)

/-- R123's test, over the columns and rows of the Figure. -/
theorem collides_iff {s : State} {b : RegNo} {x y : Int} {f : Figure} :
    collides s b x y f = true ↔ ∃ col row : Nat, f.bit col row = true ∧
      (onGrid (x + col) (y + row) = false ∨ cellRead s b (x + col) (y + row) ≠ 0) := by
  simp [collides]

/-- Without a collision every set pixel is over a background cell on the grid (R125 a). -/
theorem free_of_not_collides {s : State} {b : RegNo} {x y : Int} {f : Figure} (h : collides s b x y f = false)
    {col row : Nat} (hbit : f.bit col row = true) :
    onGrid (x + col) (y + row) = true ∧ cellRead s b (x + col) (y + row) = 0 := by
  by_contra hhit
  have : collides s b x y f = true := collides_iff.2 ⟨col, row, hbit, by
    rwa [not_and_or, Bool.not_eq_true] at hhit⟩
  exact Bool.false_ne_true (h.symm.trans this)

/-- A set pixel on the grid was drawn in the colour, and one off it hits the edge (R125 b). -/
theorem collides_drawFigure {b : RegNo} {x y : Int} {f : Figure} {c : Byte} {s : State}
    (hs : Memory.wf 0 1024 s.cells = true) (hc : c ≠ 0) {col row : Nat} (hbit : f.bit col row = true) :
    collides (drawFigure b x y f c s) b x y f = true := by
  refine collides_iff.2 ⟨col, row, hbit, ?_⟩
  cases hgrid : onGrid (x + col) (y + row) with
  | false => exact .inl rfl
  | true =>
    right
    rwa [cellRead_drawFigure_covered c hs hgrid ⟨col, row, hbit, rfl, rfl⟩]

/-! ### Rows -/

theorem rowAll_iff {s : State} {b : RegNo} {y : Nat} {test : Byte → Bool} :
    rowAll s b y test = true ↔ ∀ x : Nat, x < 8 → test (cellRead s b x y) = true := by
  simp [rowAll]

/-- What a cell reads after rows of a bank are cleared, the upper bound cut at the grid's edge. -/
theorem cellRead_clearRows {b : RegNo} (b' : RegNo) {y0 y1 : Nat} (x y : Int) {s : State}
    (hb : bankOk b = true) (hs : Memory.wf 0 1024 s.cells = true) :
    cellRead (cellFillRows b (min y0 32) (min y1 32) (fun _ _ => 0) s) b' x y =
      if b' = b ∧ (y0 : Int) ≤ y ∧ y < y1 then 0 else cellRead s b' x y := by
  rw [cellRead_cellFillRows b' _ _ _ x y hb (Nat.min_le_right _ _) hs]
  cases hgrid : onGrid x y with
  | false => simp [cellRead_off_grid hgrid]
  | true =>
    obtain ⟨-, -, -, hy⟩ := onGrid_iff.1 hgrid
    have hrows : ((min y0 32 : Nat) : Int) ≤ y ∧ y < (min y1 32 : Nat) ↔ (y0 : Int) ≤ y ∧ y < y1 := by omega
    simp only [hrows, true_and]

/-- What a cell reads after all rows of a bank are cleared. -/
theorem cellRead_clearBank {b : RegNo} (b' : RegNo) (x y : Int) {s : State}
    (hb : bankOk b = true) (hs : Memory.wf 0 1024 s.cells = true) :
    cellRead (cellFillRows b 0 32 (fun _ _ => 0) s) b' x y = if b' = b then 0 else cellRead s b' x y := by
  rw [cellRead_cellFillRows b' _ _ _ x y hb (Nat.le_refl 32) hs]
  cases hgrid : onGrid x y with
  | false => simp [cellRead_off_grid hgrid]
  | true =>
    obtain ⟨-, -, hlo, hhi⟩ := onGrid_iff.1 hgrid
    simp [hlo, hhi]

/-- R135's cell, with the column words as a vector. -/
theorem titleCell_toList (columns : Vector Word 8) (c : Byte) (x : Fin 8) (y : Nat) :
    titleCell columns.toList c x y = if columns[x].getLsbD (31 - y) then c else 0 := by
  have hcol : columns.toList.getD x 0 = columns[x] := by simp
  rw [titleCell, hcol]

end Sys2Proof.Machine
end

section
/-! The FrameBuffer commands on a running unit (41_framebuffer.md R120 to R130, R135). -/

namespace Sys2Proof.Machine

section
variable {s : State} {b : RegNo} (hrun : s.fault = 0) (hb : b.toNat ≤ 3)
include hrun hb

theorem exec_fbset (p : RegNo) (c : Byte) :
    exec (.fbset b p c) s = .next (respond 0 (cellWrite b (posX s p) (posY s p) c s)) :=
  congrArg Host.Outcome.next (checked_running _ hrun (decide_eq_true hb))

theorem exec_fbget (p : RegNo) :
    exec (.fbget b p) s = .next (respond (byteValue (cellRead s b (posX s p) (posY s p))) s) :=
  congrArg Host.Outcome.next (checked_running _ hrun (decide_eq_true hb))

theorem exec_fbcol (p r : RegNo) :
    exec (.fbcol b p r) s = .next (respond (boolValue (collides s b (posX s p) (posY s p) (readFig s r))) s) :=
  congrArg Host.Outcome.next (checked_running _ hrun (decide_eq_true hb))

theorem exec_fbdraw (p r : RegNo) (c : Byte) :
    exec (.fbdraw b p r c) s = .next (respond 0 (drawFigure b (posX s p) (posY s p) (readFig s r) c s)) :=
  congrArg Host.Outcome.next (checked_running _ hrun (decide_eq_true hb))

theorem exec_fbrowf (y : Byte) : exec (.fbrowf b y) s =
    .next (respond (boolValue (decide (y.toNat < 32) && rowAll s b y.toNat (· != 0))) s) :=
  congrArg Host.Outcome.next (checked_running _ hrun (decide_eq_true hb))

theorem exec_fbrowe (y : Byte) : exec (.fbrowe b y) s =
    .next (respond (boolValue (decide (32 ≤ y.toNat) || rowAll s b y.toNat (· == 0))) s) :=
  congrArg Host.Outcome.next (checked_running _ hrun (decide_eq_true hb))

theorem exec_fbclr : exec (.fbclr b) s = .next (respond 0 (cellFillRows b 0 32 (fun _ _ => 0) s)) :=
  congrArg Host.Outcome.next (checked_running _ hrun (decide_eq_true hb))

theorem exec_fbclrr (y0 y1 : Byte) : exec (.fbclrr b y0 y1) s =
    .next (respond 0 (cellFillRows b (min y0.toNat 32) (min y1.toNat 32) (fun _ _ => 0) s)) :=
  congrArg Host.Outcome.next (checked_running _ hrun (decide_eq_true hb))

theorem exec_fbrows (c : Byte) (p0 p1 p2 p3 p4 p5 p6 p7 : Word) : exec (.fbrows b c p0 p1 p2 p3 p4 p5 p6 p7) s =
    .next (respond 0 (cellFillRows b 0 32 (titleCell [p0, p1, p2, p3, p4, p5, p6, p7] c) s)) :=
  congrArg Host.Outcome.next (checked_running _ hrun (decide_eq_true hb))

end

/-- Settles O34: what the write of one cell reads back as. -/
theorem fbsetWritesOneCell : Obligations.FbsetWritesOneCell := by
  intro s b p c hrun hb hs
  have hread (b' : RegNo) (x y : Int) := cellRead_cellWrite b b' (posX s p) (posY s p) x y c s (rising_of_wf hs)
  obtain ⟨hresp, hkeeps⟩ := respond_cells_effect 0 (cellWrite_fields b (posX s p) (posY s p) c s)
  refine ⟨_, exec_fbset hrun hb p c, fun hgrid => ?_, fun b' x y hother => ?_, fun hgrid b' x y => ?_, hresp, hkeeps⟩
  · exact (hread b _ _).trans (if_pos ⟨hgrid, rfl, rfl, rfl⟩)
  · exact (hread b' x y).trans (if_neg fun h => hother h.2)
  · exact (hread b' x y).trans (if_neg fun h => Bool.false_ne_true (hgrid.symm.trans h.1))

/-- Settles O35: the grid test of the read, written out. -/
theorem fbgetReadsOneCell : Obligations.FbgetReadsOneCell := by
  intro s b p hrun hb
  refine ⟨_, _, exec_fbget hrun hb p, onlyResponds_respond _ s, ?_⟩
  simp only [← onGrid_iff]
  cases hgrid : onGrid (posX s p) (posY s p) with
  | false => simp [cellRead_off_grid hgrid, byteValue]
  | true => exact byteValue_toNat _

/-- Settles O36: the answer is R123's test. -/
theorem fbcolFindsCollisions : Obligations.FbcolFindsCollisions := fun s _ p r hrun hb =>
  ⟨_, _, exec_fbcol hrun hb p r, onlyResponds_respond _ s, collides_iff⟩

/-- Settles O37: the cells the Figure covers take the colour, no other cell is written. -/
theorem fbdrawCompositesFigure : Obligations.FbdrawCompositesFigure := fun s b p r c hrun hb hs =>
  ⟨_, exec_fbdraw hrun hb p r c,
    fun col row hbit hgrid => cellRead_drawFigure_covered c hs hgrid ⟨col, row, hbit, rfl, rfl⟩,
    fun _ _ _ hother => cellRead_drawFigure_elsewhere c hs hother,
    respond_cells_effect 0 (drawFigure_fields b (posX s p) (posY s p) (readFig s r) c s)⟩

/-- Settles O38: FBDRAW keeps the registers, so the FBCOL behind it tests the Figure at the place it was drawn at. -/
theorem drawAndCollideTogether : Obligations.DrawAndCollideTogether := by
  intro s b p r c hrun hb hs
  obtain ⟨-, hkeeps⟩ := respond_cells_effect 0 (drawFigure_fields b (posX s p) (posY s p) (readFig s r) c s)
  have hfig := hkeeps .figs (by decide) r
  obtain ⟨hx, hy⟩ := hkeeps.position_eq (by decide) p
  refine ⟨_, _, exec_fbdraw hrun hb p r c, exec_fbcol (hkeeps.fault_eq_zero (by decide) hrun) hb p r, ?_, ?_⟩
  · rintro ⟨v, hv, hzero⟩
    cases (exec_fbcol hrun hb p r).symm.trans hv
    have hfree := boolValue_eq_zero_iff.1 (responded_respond_iff.1 hzero)
    refine ⟨fun col row hbit => ?_, fun b' x y hchanged => ?_⟩
    · obtain ⟨hgrid, hempty⟩ := free_of_not_collides hfree hbit
      exact ⟨hgrid, hempty, cellRead_drawFigure_covered c hs hgrid ⟨col, row, hbit, rfl, rfl⟩⟩
    · by_contra hother
      exact hchanged (cellRead_drawFigure_elsewhere c hs hother)
  · rintro hc ⟨col, row, hbit⟩
    rw [responded_respond_iff, boolValue_eq_one_iff, hx, hy, hfig]
    exact collides_drawFigure hs hc hbit

/-- Settles O39: the two tests as statements about the eight cells. -/
theorem rowTestsReadRows : Obligations.RowTestsReadRows := by
  intro s b y hrun hb
  refine ⟨⟨_, _, exec_fbrowf hrun hb y, onlyResponds_respond _ s, ?_⟩,
    ⟨_, _, exec_fbrowe hrun hb y, onlyResponds_respond _ s, ?_⟩⟩
  · simp only [Bool.and_eq_true, decide_eq_true_eq, rowAll_iff, bne_iff_ne]
  · simp only [Bool.or_eq_true, decide_eq_true_eq, rowAll_iff, beq_iff_eq]

/-- Settles O40: the fill covers all rows of the bank. -/
theorem fbclrClearsBank : Obligations.FbclrClearsBank := by
  intro s b hrun hb hs
  have hread (b' : RegNo) (x y : Int) := cellRead_clearBank (b := b) b' x y (decide_eq_true hb) hs
  refine ⟨_, exec_fbclr hrun hb, fun x y => ?_, fun b' x y hother => ?_, respond_cells_effect 0 ⟨_, rfl⟩⟩
  · exact (hread b x y).trans (if_pos rfl)
  · exact (hread b' x y).trans (if_neg hother)

/-- Settles O41: the cut of the bounds at 32 loses no row of the grid. -/
theorem fbclrrClearsRows : Obligations.FbclrrClearsRows := by
  intro s b y0 y1 hrun hb hs
  have hread (b' : RegNo) (x y : Int) :=
    cellRead_clearRows (b := b) b' (y0 := y0.toNat) (y1 := y1.toNat) x y (decide_eq_true hb) hs
  refine ⟨⟨_, exec_fbclrr hrun hb y0 y1, fun x y hlo hhi => ?_, fun b' x y hother => ?_,
    respond_cells_effect 0 ⟨_, rfl⟩⟩, ?_⟩
  · exact (hread b x y).trans (if_pos ⟨rfl, hlo, hhi⟩)
  · exact (hread b' x y).trans (if_neg hother)
  · exact (exec_fbclrr hrun hb 0 32).trans (exec_fbclr hrun hb).symm

/-- Settles O46: the fill covers all rows of the bank, with R135's cells. -/
theorem fbrowsFillsBank : Obligations.FbrowsFillsBank := by
  intro s b c p0 p1 p2 p3 p4 p5 p6 p7 hrun hb hs
  have hread (b' : RegNo) (x y : Int) := cellRead_cellFillRows (b := b) b' 0 32
    (titleCell [p0, p1, p2, p3, p4, p5, p6, p7] c) x y (decide_eq_true hb) (Nat.le_refl 32) hs
  refine ⟨_, exec_fbrows hrun hb c p0 p1 p2 p3 p4 p5 p6 p7, fun x y hy => ?_, fun b' x y hother => ?_,
    respond_cells_effect 0 ⟨_, rfl⟩⟩
  · have hgrid : onGrid x.val y = true := onGrid_iff.2 (by omega)
    exact ((hread b x.val y).trans (if_pos ⟨hgrid, rfl, by omega⟩)).trans
      (titleCell_toList #v[p0, p1, p2, p3, p4, p5, p6, p7] c x y)
  · exact (hread b' x y).trans (if_neg fun h => hother h.2.1)

end Sys2Proof.Machine
end

section
/-! Rendering a bank (41_framebuffer.md R133), and the FrameBuffer laws that run commands one after the other (R136). -/

namespace Sys2Proof.Machine

theorem exec_fbrend {s : State} {b : RegNo} (hrun : s.fault = 0) (hb : b.toNat ≤ 3) : exec (.fbrend b) s =
    .next (respond 0 (writeLeds (fun i => shownColour (cellRead s b (ledPos i).1 (ledPos i).2)) s)) :=
  congrArg Host.Outcome.next (checked_running _ hrun (decide_eq_true hb))

/-- After all LED entries are written the display reads the entry of each index. -/
theorem displayFrame_writeLeds (v : Value) (f : Nat → Rgb) (s : State) {i : Nat} (hi : i < 256) :
    (displayFrame (respond v (writeLeds f s)))[i]? = some (f i) := by
  have hlen : i < (tabulate 256 f).toList.length := by simpa using hi
  rw [displayFrame, respond_leds, writeLeds_leds, List.getElem?_eq_getElem hlen, Vector.getElem_toList,
    tabulate_getElem f i hi]

/-- Settles O42: the entry at a position's serpentine index is computed from that position, which `ledPos` finds again. -/
theorem fbrendShowsEveryCell : Obligations.FbrendShowsEveryCell := by
  intro s b hrun hb
  refine ⟨_, exec_fbrend hrun hb, Vector.length_toList, fun x y hx hy => ?_, rfl, ?_⟩
  · refine (displayFrame_writeLeds 0 _ s (ledIdx_lt hx hy)).trans ?_
    rw [ledPos_ledIdx hx]
    rfl
  · exact keepsAllBut_of_sameFields fun p hp => by cases p <;> simp_all [SameFields]

/-- Background is shown as `PALETTE[0]`. -/
theorem shownColour_zero : shownColour 0 = Config.palette 0 := rfl

theorem execAll_cons_of_next {i : Instr} {rest : List Instr} {s t : State} (h : exec i s = .next t) :
    execAll (i :: rest) s = execAll rest t := by
  rw [execAll, h]

/-- The state after FBCLR, with its response. -/
def cleared (b : RegNo) (s : State) : State := respond 0 (cellFillRows b 0 32 (fun _ _ => 0) s)

/-- The state after FBCLR and FBSET, with their responses. -/
def clearedAndSet (b p : RegNo) (c : Byte) (s : State) : State :=
  respond 0 (cellWrite b (posX s p) (posY s p) c (cleared b s))

theorem execAll_clear_set {s : State} {b : RegNo} (hrun : s.fault = 0) (hb : b.toNat ≤ 3) (p : RegNo) (c : Byte)
    (rest : List Instr) : execAll (.fbclr b :: .fbset b p c :: rest) s = execAll rest (clearedAndSet b p c s) := by
  have hset : exec (.fbset b p c) (cleared b s) = .next (clearedAndSet b p c s) := exec_fbset (s := cleared b s) hrun hb p c
  rw [execAll_cons_of_next (exec_fbclr hrun hb), ← execAll_cons_of_next hset, cleared]

/-- In a cleared bank with one cell set, that cell is the only one that is not background. -/
theorem cellRead_clearedAndSet {s : State} {b : RegNo} (hb : b.toNat ≤ 3) (hs : Memory.wf 0 1024 s.cells = true)
    {p : RegNo} (hgrid : onGrid (posX s p) (posY s p) = true) (c : Byte) (x y : Int) :
    cellRead (clearedAndSet b p c s) b x y = if x = posX s p ∧ y = posY s p then c else 0 := by
  have hbank : bankOk b = true := decide_eq_true hb
  have hwf : Memory.wf 0 1024 (cleared b s).cells = true := cells_wf_cellFillRows 0 32 (fun _ _ => 0) hbank (Nat.le_refl 32) hs
  rw [clearedAndSet, cellRead_respond, cellRead_cellWrite _ _ _ _ _ _ _ _ (rising_of_wf hwf), cleared, cellRead_respond,
    cellRead_clearBank b x y hbank hs]
  simp only [hgrid, true_and, if_true]

/-- An LED index belongs to a position on the grid exactly when the position is that of the index. -/
theorem ledPos_eq_iff {i : Nat} {x y : Int} (hgrid : onGrid x y = true) :
    ((ledPos i).1 : Int) = x ∧ ((ledPos i).2 : Int) = y ↔ i = ledIdx x.toNat y.toNat := by
  obtain ⟨hx0, hx8, hy0, -⟩ := onGrid_iff.1 hgrid
  constructor
  · rintro ⟨rfl, rfl⟩
    exact ledIdx_ledPos.symm
  · rintro rfl
    rw [ledPos_ledIdx (by omega)]
    exact ⟨Int.toNat_of_nonneg hx0, Int.toNat_of_nonneg hy0⟩

/-- R136 a: only the entry of the position set shows another colour than background's. -/
theorem one_led_lit {s : State} {b p : RegNo} {c : Byte} (hrun : s.fault = 0) (hb : b.toNat ≤ 3)
    (hs : Memory.wf 0 1024 s.cells = true) (hgrid : onGrid (posX s p) (posY s p) = true)
    (hc : shownColour c ≠ Config.palette 0) :
    ∃ t, execAll [.fbclr b, .fbset b p c, .fbrend b] s = .next t ∧ ∀ i : Nat, i < 256 →
      ((displayFrame t)[i]? ≠ some (Config.palette 0) ↔ i = ledIdx (posX s p).toNat (posY s p).toNat) := by
  have hrun' : (clearedAndSet b p c s).fault = 0 := (cellWrite_fault ..).trans hrun
  refine ⟨_, (execAll_clear_set hrun hb p c _).trans (execAll_cons_of_next (exec_fbrend hrun' hb)), fun i hi => ?_⟩
  rw [displayFrame_writeLeds _ _ _ hi, cellRead_clearedAndSet hb hs hgrid, ← ledPos_eq_iff hgrid]
  split
  case isTrue hpos => simp [hpos, hc]
  case isFalse hpos => simp only [hpos, shownColour_zero, ne_eq, not_true_eq_false]

/-- Settles O44: (a) the one entry lit, (b) the answer of R123's test, (c) the cell just set, read where it was written. -/
theorem frameBufferLaws : Obligations.FrameBufferLaws := by
  refine ⟨fun s b p c => one_led_lit, fun s b p r hrun hb => ?_, fun s b p c hrun hb hs => ?_⟩
  · refine ⟨_, exec_fbcol hrun hb p r, ?_⟩
    rw [responded_respond_iff, boolValue_eq_one_iff, collides_iff]
  · obtain ⟨-, hkeeps⟩ := respond_cells_effect 0 (cellWrite_fields b (posX s p) (posY s p) c s)
    obtain ⟨hx, hy⟩ := hkeeps.position_eq (by decide) p
    refine ⟨_, _, _, exec_fbset hrun hb p c, exec_fbget (hkeeps.fault_eq_zero (by decide) hrun) hb p, rfl, ?_⟩
    rw [byteValue_toNat, hx, hy, cellRead_respond, cellRead_cellWrite_same b _ _ c hs]
    split <;> rfl

end Sys2Proof.Machine
end

section
/-! The generator (42_prng.md R150 to R153): what one PSEED or PNEXT comes to, and then a list of PNEXTs, described by two functions
of the generator's state and the maxima alone. -/

namespace Sys2Proof.Machine

/-! ### One step of the generator -/

theorem lcg_toNat (st : Word) :
    (lcg st).toNat = (Config.prngMul.toNat * st.toNat + Config.prngInc.toNat) % 2 ^ 32 := by
  rw [lcg, BitVec.toNat_add, BitVec.toNat_mul, Nat.mod_add_mod]

theorem nextState_of_ne_zero {max : Byte} (hmax : max ≠ 0) (st : Word) : nextState max st = lcg st := if_neg hmax

theorem nextState_zero (st : Word) : nextState 0 st = if Config.prngAdvanceOnZero then lcg st else st := if_pos rfl

/-- R153 c for one command. -/
theorem nextState_eq_lcg {max : Byte} (h : max ≠ 0 ∨ Config.prngAdvanceOnZero = true) (st : Word) :
    nextState max st = lcg st := by
  by_cases hmax : max = 0
  · rw [hmax, nextState_zero, if_pos (h.resolve_left (not_not_intro hmax))]
  · exact nextState_of_ne_zero hmax st

/-- What PNEXT answers on a state of the generator. -/
def drawValue (max : Byte) (st : Word) : Value := natValue (prngRange (nextState max st) max.toNat)

theorem drawValue_zero (st : Word) : drawValue 0 st = 0 := rfl

theorem drawValue_toNat (max : Byte) (st : Word) :
    (drawValue max st).toNat = prngRange (nextState max st) max.toNat := by
  refine natValue_toNat ?_
  by_cases hmax : max.toNat = 0
  · rw [hmax, prngRange]
    decide
  · calc prngRange (nextState max st) max.toNat
      _ < max.toNat := prngRange_lt _ (Nat.pos_of_ne_zero hmax)
      _ < 2 ^ 24 := by omega

/-- The law of the draw (R153 b) survives its packing into a response value. -/
theorem drawValue_lt {max : Byte} (hmax : max ≠ 0) (st : Word) : (drawValue max st).toNat < max.toNat := by
  rw [drawValue_toNat]
  exact prngRange_lt _ (Nat.pos_of_ne_zero fun h => hmax (BitVec.eq_of_toNat_eq h))

/-! ### The commands -/

section
variable {s : State} (hrun : s.fault = 0)
include hrun

theorem exec_pseed (seed : Word) : exec (.pseed seed) s = .next (respond 0 (writePrng seed s)) :=
  congrArg Host.Outcome.next (checked_running _ hrun rfl)

theorem exec_pnext (max : Byte) :
    exec (.pnext max) s = .next (respond (drawValue max s.prng) (writePrng (nextState max s.prng) s)) :=
  congrArg Host.Outcome.next (checked_running _ hrun rfl)

end

/-- Everything that the generator written and answered for comes to. -/
theorem respond_writePrng_effect (v : Value) (st : Word) (s : State) :
    Responded 0x00 v s (respond v (writePrng st s)) ∧ KeepsAllBut [.prng, .responses] s (respond v (writePrng st s)) :=
  ⟨rfl, keepsAllBut_of_sameFields fun p hp => by cases p <;> simp_all [SameFields]⟩

/-- Settles O47: the three commands write the generator and answer; a maximum of 0 draws 0. -/
theorem pseedStoresAndPnextSteps : Obligations.PseedStoresAndPnextSteps := by
  intro s hrun
  refine ⟨fun seed => ⟨_, exec_pseed hrun seed, rfl, respond_writePrng_effect 0 seed s⟩, fun max hmax => ?_, ?_⟩
  · obtain ⟨hresp, hkeeps⟩ := respond_writePrng_effect (drawValue max s.prng) (nextState max s.prng) s
    refine ⟨_, _, exec_pnext hrun max, ?_, hresp, drawValue_toNat max s.prng, drawValue_lt hmax s.prng, hkeeps⟩
    rw [respond_prng, writePrng_prng, nextState_of_ne_zero hmax, lcg_toNat]
  · have hresponds := respond_writePrng_effect (drawValue 0 s.prng) (nextState 0 s.prng) s
    rw [drawValue_zero] at hresponds
    exact ⟨_, exec_pnext hrun 0, nextState_zero s.prng, hresponds⟩

/-! ### A list of draws -/

/-- The generator after one PNEXT for each maximum. -/
def stateAfterDraws (st : Word) (maxima : List Byte) : Word := maxima.foldl (fun st' max => nextState max st') st

/-- The values that one PNEXT for each maximum answers. -/
def draws (st : Word) (maxima : List Byte) : List Value :=
  match maxima with
  | [] => []
  | max :: rest => drawValue max st :: draws (nextState max st) rest

/-- R153 a without the seed: the unit enters by its generator alone, whatever else it holds. -/
theorem execAll_pnext (maxima : List Byte) {s : State} (hrun : s.fault = 0) :
    ∃ t, execAll (maxima.map .pnext) s = .next t ∧ t.prng = stateAfterDraws s.prng maxima ∧
      t.responses = s.responses ++ (draws s.prng maxima).map (responseWord 0x00) := by
  induction maxima generalizing s with
  | nil => exact ⟨s, rfl, rfl, (List.append_nil _).symm⟩
  | cons max rest ih =>
    obtain ⟨t, hexec, hprng, hresp⟩ :=
      ih (s := respond (drawValue max s.prng) (writePrng (nextState max s.prng) s)) hrun
    refine ⟨t, (execAll_cons_of_next (exec_pnext hrun max)).trans hexec, hprng, hresp.trans ?_⟩
    simp only [respond_responses, respond_prng, writePrng_responses, writePrng_prng, draws, List.map_cons,
      List.append_assoc, List.singleton_append]

/-- R153 b along the list: there is an answer for each maximum, below it unless it is 0. -/
theorem draws_below (maxima : List Byte) (st : Word) :
    List.Forall₂ (fun max v => max ≠ 0 → v.toNat < max.toNat) maxima (draws st maxima) := by
  induction maxima generalizing st with
  | nil => exact .nil
  | cons max rest ih => exact .cons (fun hmax => drawValue_lt hmax st) (ih _)

/-- R153 c along the list. -/
theorem stateAfterDraws_eq_iterate {maxima : List Byte}
    (h : (∀ max ∈ maxima, max ≠ 0) ∨ Config.prngAdvanceOnZero = true) (st : Word) :
    stateAfterDraws st maxima = lcg^[maxima.length] st := by
  induction maxima generalizing st with
  | nil => rfl
  | cons max rest ih =>
    have hhead : nextState max st = lcg st := nextState_eq_lcg (h.imp_left fun hne => hne max List.mem_cons_self) st
    have hrest := h.imp_left fun hne m hm => hne m (List.mem_cons_of_mem max hm)
    calc stateAfterDraws st (max :: rest)
      _ = stateAfterDraws (lcg st) rest := congrArg (stateAfterDraws · rest) hhead
      _ = lcg^[rest.length] (lcg st) := ih hrest (lcg st)

/-- Settles O48: after PSEED the generator holds the seed, so the answers and the final state are those of the list of draws
from it. -/
theorem prngLaws : Obligations.PrngLaws := by
  intro seed maxima
  have hbelow := draws_below maxima seed
  refine ⟨draws seed maxima, stateAfterDraws seed maxima, hbelow.length_eq.symm, fun k h h' => hbelow.get h h',
    fun h => stateAfterDraws_eq_iterate h seed, fun s hrun => ?_⟩
  obtain ⟨t, hexec, hprng, hresp⟩ := execAll_pnext maxima (s := respond 0 (writePrng seed s)) hrun
  refine ⟨t, (execAll_cons_of_next (exec_pseed hrun seed)).trans hexec, hprng, hresp.trans ?_⟩
  exact List.append_assoc s.responses [responseWord 0x00 0] _

end Sys2Proof.Machine
end

section
/-! The computed Dots as integers (10_state.md R21; 43_dot.md R162 to R166): the components of a moved and of a reduced Dot, what
the two tests test, and the laws that follow from them. -/

namespace Sys2Proof

namespace Dot

/-- A Dot is the two integers it holds. -/
theorem eq_of_toInt_eq {v u : Dot} (hx : v.x.toInt = u.x.toInt) (hy : v.y.toInt = u.y.toInt) : v = u :=
  (mk.injEq ..).mpr ⟨BitVec.eq_of_toInt_eq hx, BitVec.eq_of_toInt_eq hy⟩

/-! ### Moving (R162) -/

theorem toInt_ofInt_emod (n : Int) {m : Int} (hpos : 0 < m) (hm : m ≤ 128) : (BitVec.ofInt 8 (n % m)).toInt = n % m := by
  have hlo := Int.emod_nonneg n (Int.ne_of_gt hpos)
  have hhi := Int.emod_lt_of_pos n hpos
  exact BitVec.toInt_ofInt_eq_self (by decide) (by omega) (by omega)

theorem moveWrap_x_toInt (v u : Dot) : (v.moveWrap u).x.toInt = (v.x.toInt + u.x.toInt) % 8 :=
  toInt_ofInt_emod _ (by decide) (by decide)

theorem moveWrap_y_toInt (v u : Dot) : (v.moveWrap u).y.toInt = (v.y.toInt + u.y.toInt) % 32 :=
  toInt_ofInt_emod _ (by decide) (by decide)

/-! ### Reducing to a direction (R163) -/

theorem toInt_ofInt_sign (n : Int) : (BitVec.ofInt 8 n.sign).toInt = n.sign := by
  rcases n.sign_trichotomy with h | h | h <;> rw [h] <;> decide

theorem toDirection_y_toInt (v : Dot) : v.toDirection.y.toInt = v.y.toInt.sign := by
  by_cases hy : v.y.toInt.sign = 0
  · rw [toDirection, if_neg (not_not_intro hy), hy]
    rfl
  · rw [toDirection, if_pos hy, toInt_ofInt_sign]

theorem toDirection_x_toInt (v : Dot) : v.toDirection.x.toInt = if v.y.toInt = 0 then v.x.toInt.sign else 0 := by
  by_cases hy : v.y.toInt = 0
  · rw [toDirection, if_neg (not_not_intro (Int.sign_eq_zero_iff_zero.2 hy)), if_pos hy, toInt_ofInt_sign]
  · rw [toDirection, if_pos (mt Int.sign_eq_zero_iff_zero.1 hy), if_neg hy]
    rfl

/-! ### The two tests (R164, R165) -/

theorem opposite_iff {v u : Dot} :
    v.opposite u = true ↔ v.x.toInt + u.x.toInt = 0 ∧ v.y.toInt + u.y.toInt = 0 := by
  rw [opposite, Bool.and_eq_true, decide_eq_true_eq, decide_eq_true_eq]

theorem isZero_iff_toInt {v : Dot} : v.isZero = true ↔ v.x.toInt = 0 ∧ v.y.toInt = 0 := by
  rw [isZero, Bool.and_eq_true, decide_eq_true_eq, decide_eq_true_eq]

theorem isZero_iff {v : Dot} : v.isZero = true ↔ v = ⟨0, 0⟩ :=
  isZero_iff_toInt.trans ⟨fun ⟨hx, hy⟩ => eq_of_toInt_eq hx hy, fun h => h ▸ ⟨rfl, rfl⟩⟩

/-! ### The laws (R166) -/

/-- R166 a. -/
theorem onGrid_moveWrap (v u : Dot) : Machine.onGrid (v.moveWrap u).x.toInt (v.moveWrap u).y.toInt = true := by
  rw [Machine.onGrid_iff, moveWrap_x_toInt, moveWrap_y_toInt]
  omega

/-- A move is undone modulo the grid's size by a move that sums with it to 0. -/
theorem emod_add_emod_cancel {n a b m : Int} (h0 : 0 ≤ n) (hn : n < m) (hab : a + b = 0) : ((n + a) % m + b) % m = n :=
  calc ((n + a) % m + b) % m
    _ = (n + (a + b)) % m := by rw [Int.emod_add_emod, Int.add_assoc]
    _ = n := by rw [hab, Int.add_zero, Int.emod_eq_of_lt h0 hn]

/-- R166 b, for directions of any length. -/
theorem moveWrap_moveWrap_of_opposite {v u w : Dot} (hgrid : Machine.onGrid v.x.toInt v.y.toInt = true)
    (hopp : u.opposite w = true) : (v.moveWrap u).moveWrap w = v := by
  obtain ⟨hx0, hx, hy0, hy⟩ := Machine.onGrid_iff.1 hgrid
  obtain ⟨hsumx, hsumy⟩ := opposite_iff.1 hopp
  refine eq_of_toInt_eq ?_ ?_
  · rw [moveWrap_x_toInt, moveWrap_x_toInt, emod_add_emod_cancel hx0 hx hsumx]
  · rw [moveWrap_y_toInt, moveWrap_y_toInt, emod_add_emod_cancel hy0 hy hsumy]

theorem sign_unit_of_ne_zero {n : Int} (h : n.sign ≠ 0) : n.sign = 1 ∨ n.sign = -1 :=
  n.sign_trichotomy.imp_right fun h' => h'.resolve_left h

/-- R166 c. -/
theorem toDirection_axisAligned (v : Dot) :
    (v.toDirection.x.toInt = 0 ∨ v.toDirection.y.toInt = 0) ∧
    (v.toDirection.x.toInt ≠ 0 → v.toDirection.x.toInt = 1 ∨ v.toDirection.x.toInt = -1) ∧
    (v.toDirection.y.toInt ≠ 0 → v.toDirection.y.toInt = 1 ∨ v.toDirection.y.toInt = -1) := by
  rw [toDirection_x_toInt, toDirection_y_toInt]
  by_cases hy : v.y.toInt = 0
  · rw [if_pos hy]
    exact ⟨.inr (Int.sign_eq_zero_iff_zero.2 hy), sign_unit_of_ne_zero, sign_unit_of_ne_zero⟩
  · rw [if_neg hy]
    exact ⟨.inl rfl, fun h => absurd rfl h, sign_unit_of_ne_zero⟩

/-- R166 d. -/
theorem isZero_toDirection_iff {v : Dot} : v.toDirection.isZero = true ↔ v = ⟨0, 0⟩ := by
  rw [← isZero_iff, isZero_iff_toInt, isZero_iff_toInt, toDirection_x_toInt, toDirection_y_toInt,
    Int.sign_eq_zero_iff_zero]
  refine and_congr_left fun hy => ?_
  rw [if_pos hy, Int.sign_eq_zero_iff_zero]

end Dot

end Sys2Proof
end

section
/-! The Dot commands on a running unit (43_dot.md R160 to R166). -/

namespace Sys2Proof.Machine

section
variable {s : State} (hrun : s.fault = 0)
include hrun

theorem exec_dld (d : RegNo) (x y : Byte) : exec (.dld d x y) s = .next (respond 0 (writeDot d ⟨x, y⟩ s)) :=
  congrArg Host.Outcome.next (checked_running _ hrun rfl)

theorem exec_drd (r : RegNo) : exec (.drd r) s = .next (respond (dotValue (readDot s r)) s) :=
  congrArg Host.Outcome.next (checked_running _ hrun rfl)

theorem exec_dmovw (d p q : RegNo) :
    exec (.dmovw d p q) s = .next (respond 0 (writeDot d ((readDot s p).moveWrap (readDot s q)) s)) :=
  congrArg Host.Outcome.next (checked_running _ hrun rfl)

theorem exec_dtodir (d p : RegNo) :
    exec (.dtodir d p) s = .next (respond 0 (writeDot d (readDot s p).toDirection s)) :=
  congrArg Host.Outcome.next (checked_running _ hrun rfl)

theorem exec_dopp (p q : RegNo) :
    exec (.dopp p q) s = .next (respond (boolValue ((readDot s p).opposite (readDot s q))) s) :=
  congrArg Host.Outcome.next (checked_running _ hrun rfl)

theorem exec_dzero (p : RegNo) : exec (.dzero p) s = .next (respond (boolValue (readDot s p).isZero) s) :=
  congrArg Host.Outcome.next (checked_running _ hrun rfl)

end

/-- Everything that a Dot register written and answered for comes to. -/
theorem respond_writeDot_effect (a : Value) (d : RegNo) (v : Dot) (s : State) :
    readDot (respond a (writeDot d v s)) d = v ∧
      (∀ r, r ≠ d → readDot (respond a (writeDot d v s)) r = readDot s r) ∧
      Responded 0x00 a s (respond a (writeDot d v s)) ∧ KeepsAllBut [.dots, .responses] s (respond a (writeDot d v s)) := by
  have hread (r : RegNo) : readDot (respond a (writeDot d v s)) r = if r = d then v else readDot s r :=
    readDot_writeDot d r v s
  refine ⟨(hread d).trans (if_pos rfl), fun r hr => (hread r).trans (if_neg hr), rfl, ?_⟩
  exact keepsAllBut_of_sameFields fun p hp => by cases p <;> simp_all [SameFields]

theorem dotValue_toNat (v : Dot) : (dotValue v).toNat = v.y.toNat * 2 ^ 8 + v.x.toNat := by
  simp only [dotValue, toNat_append_eq, BitVec.toNat_ofNat, Nat.zero_mod, Nat.zero_mul, Nat.zero_add]

theorem boolValue_eq_ite {a : Bool} {P : Prop} [Decidable P] (h : a = true ↔ P) : boolValue a = if P then 1 else 0 :=
  if_congr h rfl rfl

/-- Settles O49: DLD writes the pair of its operands; DRD's three packed bytes as a number. -/
theorem dldLoadsAndDrdReads : Obligations.DldLoadsAndDrdReads := fun s hrun =>
  ⟨fun d x y => ⟨_, exec_dld hrun d x y, respond_writeDot_effect 0 d ⟨x, y⟩ s⟩,
    fun r => ⟨_, _, exec_drd hrun r, onlyResponds_respond _ s, dotValue_toNat _⟩⟩

/-- Settles O50: the destination holds the moved Dot, whose components are remainders that fit a signed byte. -/
theorem dmovwWraps : Obligations.DmovwWraps := by
  intro s d p q hrun
  obtain ⟨hd, hframe⟩ := respond_writeDot_effect 0 d ((readDot s p).moveWrap (readDot s q)) s
  refine ⟨_, exec_dmovw hrun d p q, ?_⟩
  rw [hd]
  exact ⟨Dot.moveWrap_x_toInt _ _, Dot.moveWrap_y_toInt _ _, hframe⟩

/-- Settles O51: the destination holds the reduced Dot, whose components are signs. -/
theorem dtodirReduces : Obligations.DtodirReduces := by
  intro s d p hrun
  obtain ⟨hd, hframe⟩ := respond_writeDot_effect 0 d (readDot s p).toDirection s
  refine ⟨_, exec_dtodir hrun d p, ?_⟩
  rw [hd]
  exact ⟨Dot.toDirection_y_toInt _, Dot.toDirection_x_toInt _, hframe⟩

/-- Settles O52: the answers are the two tests, as conditions on the components. -/
theorem doppAndDzeroTest : Obligations.DoppAndDzeroTest := by
  intro s p q hrun
  refine ⟨⟨_, exec_dopp hrun p q, ?_⟩, ⟨_, exec_dzero hrun p, ?_⟩⟩
  · rw [← boolValue_eq_ite Dot.opposite_iff]
    exact onlyResponds_respond _ s
  · rw [← boolValue_eq_ite Dot.isZero_iff]
    exact onlyResponds_respond _ s

/-- A DZERO of the register that a DTODIR has just written answers 1 exactly when the DTODIR's source was (0, 0) (R166 d). -/
theorem dzero_after_dtodir {s : State} (hrun : s.fault = 0) (d p : RegNo) :
    ∃ t u, exec (.dtodir d p) s = .next t ∧ readDot t d = (readDot s p).toDirection ∧
      exec (.dzero d) t = .next u ∧ (Responded 0x00 1 t u ↔ readDot s p = ⟨0, 0⟩) := by
  obtain ⟨hd, -, -, hkeeps⟩ := respond_writeDot_effect 0 d (readDot s p).toDirection s
  refine ⟨_, _, exec_dtodir hrun d p, hd, exec_dzero (hkeeps.fault_eq_zero (by decide) hrun) d, ?_⟩
  rw [responded_respond_iff, boolValue_eq_one_iff, hd, Dot.isZero_toDirection_iff]

/-- Settles O53: the laws of the computed Dots, which DTODIR and DMOVW leave in their destination. -/
theorem dotLaws : Obligations.DotLaws :=
  ⟨Dot.onGrid_moveWrap, fun _ _ _ hgrid _ hopp => Dot.moveWrap_moveWrap_of_opposite hgrid hopp,
    Dot.toDirection_axisAligned, fun _ => Dot.isZero_toDirection_iff, fun _ d p hrun => dzero_after_dtodir hrun d p,
    fun s d p q hrun => ⟨_, exec_dmovw hrun d p q, (respond_writeDot_effect 0 d _ s).1⟩⟩

end Sys2Proof.Machine
end

section
/-! The arena commands on a running unit (44_arena.md R171 to R176): each is writes of an arena's registers and slots and one
response, or the response alone. -/

namespace Sys2Proof.Machine

section
variable {s : State} (hrun : s.fault = 0) {a : RegNo}
include hrun

theorem exec_ainit (cap : BitVec 16) :
    exec (.ainit a cap) s = .next (respond 0 (writeCount a 0 (writeCap a (min cap.toNat 256) s))) :=
  congrArg Host.Outcome.next (checked_running _ hrun rfl)

theorem exec_apush_room (r : RegNo) (hroom : readCount s a < readCap s a) : exec (.apush a r) s =
    .next (respond 1 (writeCount a (readCount s a + 1) (writeEnt a (readCount s a) (readDot s r) s))) :=
  congrArg Host.Outcome.next ((checked_running _ hrun rfl).trans (if_pos hroom))

theorem exec_apush_full (r : RegNo) (hfull : readCap s a ≤ readCount s a) :
    exec (.apush a r) s = .next (respond 0 s) :=
  congrArg Host.Outcome.next ((checked_running _ hrun rfl).trans (if_neg hfull.not_gt))

theorem exec_acnt : exec (.acnt a) s = .next (respond (natValue (readCount s a)) s) :=
  congrArg Host.Outcome.next (checked_running _ hrun rfl)

section
variable {k : Byte} (hlive : k.toNat < readCount s a)
include hlive

theorem exec_arem_live : exec (.arem a k) s =
    .next (respond 1 (writeCount a (readCount s a - 1) (swapEnts a k.toNat (readCount s a - 1) s))) :=
  congrArg Host.Outcome.next ((checked_running _ hrun rfl).trans (if_pos hlive))

theorem exec_aget_live (d : RegNo) :
    exec (.aget a d k) s = .next (respond 1 (writeDot d (readEnt s a k.toNat) s)) :=
  congrArg Host.Outcome.next ((checked_running _ hrun rfl).trans (if_pos hlive))

theorem exec_aset_live (r : RegNo) :
    exec (.aset a r k) s = .next (respond 1 (writeEnt a k.toNat (readDot s r) s)) :=
  congrArg Host.Outcome.next ((checked_running _ hrun rfl).trans (if_pos hlive))

end

section
variable {k : Byte} (hdead : readCount s a ≤ k.toNat)
include hdead

theorem exec_arem_dead : exec (.arem a k) s = .next (respond 0 s) :=
  congrArg Host.Outcome.next ((checked_running _ hrun rfl).trans (if_neg hdead.not_gt))

theorem exec_aget_dead (d : RegNo) : exec (.aget a d k) s = .next (respond 0 s) :=
  congrArg Host.Outcome.next ((checked_running _ hrun rfl).trans (if_neg hdead.not_gt))

theorem exec_aset_dead (r : RegNo) : exec (.aset a r k) s = .next (respond 0 s) :=
  congrArg Host.Outcome.next ((checked_running _ hrun rfl).trans (if_neg hdead.not_gt))

end

end

/-! ### What the writes come to -/

theorem ents_rising_of_wf {s : State} (hs : Memory.wf ⟨0, 0⟩ 4096 s.ents = true) : Memory.rising s.ents :=
  (Memory.wf_iff.1 hs).1

/-- Everything that slots and one count written and answered for come to, but for the slots. -/
theorem respond_writeCount_effect (v : Value) (a : RegNo) (n : Nat) {s e : State} (he : ∃ m, e = { s with ents := m }) :
    readCount (respond v (writeCount a n e)) a = n ∧
      (∀ a', a' ≠ a → readCount (respond v (writeCount a n e)) a' = readCount s a') ∧
      Responded 0x00 v s (respond v (writeCount a n e)) ∧
      KeepsAllBut [.counts, .ents, .responses] s (respond v (writeCount a n e)) := by
  obtain ⟨m, rfl⟩ := he
  have hread (a' : RegNo) : readCount (respond v (writeCount a n { s with ents := m })) a' =
      if a' = a then n else readCount s a' := readCount_writeCount a a' n _
  refine ⟨(hread a).trans (if_pos rfl), fun a' ha' => (hread a').trans (if_neg ha'), rfl, ?_⟩
  exact keepsAllBut_of_sameFields fun p hp => by cases p <;> simp_all [SameFields]

/-- Settles O54: the two registers of the arena are written, and nothing else but the response. -/
theorem ainitSetsCapacity : Obligations.AinitSetsCapacity := by
  intro s a cap hrun
  have hcap (a' : RegNo) := readCap_writeCap a a' (min cap.toNat 256) s
  have hcount (a' : RegNo) := readCount_writeCount a a' 0 (writeCap a (min cap.toNat 256) s)
  refine ⟨_, exec_ainit hrun cap, (hcap a).trans (if_pos rfl), (hcount a).trans (if_pos rfl),
    fun a' ha' => ⟨(hcap a').trans (if_neg ha'), (hcount a').trans (if_neg ha')⟩, rfl, ?_⟩
  exact keepsAllBut_of_sameFields fun p hp => by cases p <;> simp_all [SameFields]

/-- Settles O55: the slot at the count is the one that becomes live. -/
theorem apushAppendsOrDrops : Obligations.ApushAppendsOrDrops := by
  intro s a r hrun hs
  refine ⟨fun hroom => ?_, fun hfull => ⟨_, exec_apush_full hrun r hfull, onlyResponds_respond 0 s⟩⟩
  obtain ⟨hcount, hothers, hresp⟩ := respond_writeCount_effect 1 a (readCount s a + 1)
    (s := s) (e := writeEnt a (readCount s a) (readDot s r) s) ⟨_, rfl⟩
  have hslot (a' : RegNo) (j : Nat) := readEnt_writeEnt a a' (readCount s a) j (readDot s r) s (ents_rising_of_wf hs)
  exact ⟨_, exec_apush_room hrun r hroom, hcount, (hslot a _).trans (if_pos ⟨rfl, rfl⟩), hothers,
    fun a' j hj => (hslot a' j).trans (if_neg hj), hresp⟩

/-- An exchange reads as the transposition of the two slots' indices. -/
theorem readEnt_swapEnts_same (a : RegNo) (k l : Nat) {s : State} (hs : Memory.rising s.ents) :
    readEnt (swapEnts a k l s) a = readEnt s a ∘ Equiv.swap l k := by
  funext j
  simp only [readEnt_swapEnts _ _ _ _ _ _ hs, true_and, Function.comp_apply, Equiv.swap_apply_def, apply_ite (readEnt s a)]

theorem readEnt_swapEnts_elsewhere {a a' : RegNo} {k l j : Nat} {s : State} (hs : Memory.rising s.ents)
    (h : ¬(a' = a ∧ (j = k ∨ j = l))) : readEnt (swapEnts a k l s) a' j = readEnt s a' j := by
  rw [readEnt_swapEnts _ _ _ _ _ _ hs, if_neg fun hl => h (hl.imp_right .inr), if_neg fun hk => h (hk.imp_right .inl)]

/-- Settles O56: the count is written over the exchange of the two slots, which may be one. -/
theorem aremSwapsWithLast : Obligations.AremSwapsWithLast := by
  intro s a k hrun hs
  refine ⟨fun hlive => ?_, fun hdead => ⟨_, exec_arem_dead hrun hdead, onlyResponds_respond 0 s⟩⟩
  obtain ⟨hcount, hothers, hresp⟩ := respond_writeCount_effect 1 a (readCount s a - 1)
    (s := s) (e := swapEnts a k.toNat (readCount s a - 1) s) ⟨_, rfl⟩
  have hslot := congrFun (readEnt_swapEnts_same a k.toNat (readCount s a - 1) (ents_rising_of_wf hs))
  refine ⟨_, exec_arem_live hrun hlive, hcount, (hslot _).trans ?_, (hslot _).trans ?_, hothers,
    fun a' j hj => readEnt_swapEnts_elsewhere (ents_rising_of_wf hs) hj, hresp⟩
  · rw [Function.comp_apply, Equiv.swap_apply_right]
  · rw [Function.comp_apply, Equiv.swap_apply_left]

/-- Everything that a slot written and answered for comes to. -/
theorem respond_writeEnt_effect (v : Value) (a : RegNo) (j : Nat) (d : Dot) {s : State} (hs : Memory.rising s.ents) :
    readEnt (respond v (writeEnt a j d s)) a j = d ∧
      (∀ a' j', ¬(a' = a ∧ j' = j) → readEnt (respond v (writeEnt a j d s)) a' j' = readEnt s a' j') ∧
      Responded 0x00 v s (respond v (writeEnt a j d s)) ∧
      KeepsAllBut [.ents, .responses] s (respond v (writeEnt a j d s)) := by
  have hslot (a' : RegNo) (j' : Nat) := readEnt_writeEnt a a' j j' d s hs
  refine ⟨(hslot a j).trans (if_pos ⟨rfl, rfl⟩), fun a' j' hj => (hslot a' j').trans (if_neg hj), rfl, ?_⟩
  exact keepsAllBut_of_sameFields fun p hp => by cases p <;> simp_all [SameFields]

/-- Settles O57: a live index is read or written, one that is not live is answered 0; the count fits the response. -/
theorem agetAsetAcntAccess : Obligations.AgetAsetAcntAccess := by
  intro s a r k hrun hs hphys
  have hcount : readCount s a < 2 ^ 24 := hphys.trans_lt (by decide)
  exact ⟨fun hlive => ⟨_, exec_aget_live hrun hlive r, respond_writeDot_effect 1 r _ s⟩,
    fun hlive => ⟨_, exec_aset_live hrun hlive r, respond_writeEnt_effect 1 a k.toNat _ (ents_rising_of_wf hs)⟩,
    fun hdead => ⟨⟨_, exec_aget_dead hrun hdead r, onlyResponds_respond 0 s⟩,
      ⟨_, exec_aset_dead hrun hdead r, onlyResponds_respond 0 s⟩⟩,
    ⟨_, _, exec_acnt hrun, onlyResponds_respond _ s, natValue_toNat hcount⟩⟩

end Sys2Proof.Machine
end

section
/-! The laws of the arenas (44_arena.md R177). Laws (a) and (b) rest on one inversion of `exec`: what a command can do to the counts
and the capacities. Law (c) rests on the exchange being a transposition of the live indices. -/

namespace Sys2Proof.Machine

/-! ### The arena registers -/

/-- The counts and the capacities of all arenas are as before. -/
def KeepsArenaRegs (s t : State) : Prop := readCount t = readCount s ∧ readCap t = readCap s

/-- What a command can do to the counts and the capacities of the arenas. -/
inductive ArenaEffect (s t : State) : Instr → Prop where
  | keeps {i : Instr} (h : KeepsArenaRegs s t) : ArenaEffect s t i
  | pushes {a r : RegNo} (hroom : readCount s a < readCap s a)
      (hcount : readCount t = Function.update (readCount s) a (readCount s a + 1)) (hcap : readCap t = readCap s) :
      ArenaEffect s t (.apush a r)
  | removes {a : RegNo} {k : Byte} (hlive : 0 < readCount s a)
      (hcount : readCount t = Function.update (readCount s) a (readCount s a - 1)) (hcap : readCap t = readCap s) :
      ArenaEffect s t (.arem a k)
  | inits {a : RegNo} {cap : BitVec 16} (hcount : readCount t = Function.update (readCount s) a 0)
      (hcap : readCap t = Function.update (readCap s) a (min cap.toNat 256)) : ArenaEffect s t (.ainit a cap)

theorem readCount_writeCount_eq_update (a : RegNo) (n : Nat) (s : State) :
    readCount (writeCount a n s) = Function.update (readCount s) a n := by
  funext a'
  rw [readCount_writeCount, Function.update_apply]

theorem readCap_writeCap_eq_update (a : RegNo) (n : Nat) (s : State) :
    readCap (writeCap a n s) = Function.update (readCap s) a n := by
  funext a'
  rw [readCap_writeCap, Function.update_apply]

theorem keepsArenaRegs_of_cells (v : Value) {s e : State} (he : ∃ m, e = { s with cells := m }) :
    KeepsArenaRegs s (respond v e) := by
  obtain ⟨m, rfl⟩ := he
  exact ⟨rfl, rfl⟩

theorem keepsArenaRegs_faultOrRefuse (c : FaultCause) (w : Word) (s : State) : KeepsArenaRegs s (faultOrRefuse c w s) := by
  rcases faultOrRefuse_cases c w s with ⟨-, h⟩ | ⟨-, h⟩ <;> rw [h] <;> exact ⟨rfl, rfl⟩

theorem keepsArenaRegs_paintAdvance (w : PaintWalk) (first : List (Nat × Nat)) (run : PaintRun) (s : State) :
    KeepsArenaRegs s (paintAdvance w first run s) := by
  rw [paintAdvance_eq]
  exact ⟨rfl, rfl⟩

/-- The checks keep the arena registers when they stop a command. -/
theorem arenaEffect_checked {i : Instr} {s e : State} (he : ArenaEffect s e i) : ArenaEffect s (checked i s e) i := by
  rcases checked_cases i s e with ⟨-, h⟩ | ⟨-, -, h⟩ | ⟨-, -, h⟩ <;> rw [h]
  · exact .keeps ⟨rfl, rfl⟩
  · exact .keeps ⟨rfl, rfl⟩
  · exact he

theorem exec_arenaEffect {i : Instr} {s t : State} (h : exec i s = .next t) : ArenaEffect s t i := by
  cases i <;> cases h
  case stat =>
    split
    · exact .keeps ⟨rfl, rfl⟩
    · exact .keeps (keepsArenaRegs_faultOrRefuse ..)
  all_goals refine arenaEffect_checked ?_
  case fpaint => exact .keeps (keepsArenaRegs_paintAdvance ..)
  case fbset => exact .keeps (keepsArenaRegs_of_cells _ (cellWrite_fields ..))
  case fbdraw => exact .keeps (keepsArenaRegs_of_cells _ (drawFigure_fields ..))
  case ainit a cap =>
    exact .inits (readCount_writeCount_eq_update a 0 (writeCap a _ s)) (readCap_writeCap_eq_update a _ s)
  case apush a r =>
    split
    next hroom => exact .pushes hroom (readCount_writeCount_eq_update a _ (writeEnt a _ _ s)) rfl
    next => exact .keeps ⟨rfl, rfl⟩
  case arem a k =>
    split
    next hlive =>
      exact .removes (Nat.zero_lt_of_lt hlive) (readCount_writeCount_eq_update a _ (swapEnts a _ _ s)) rfl
    next => exact .keeps ⟨rfl, rfl⟩
  case aget | aset | fld => split <;> exact .keeps ⟨rfl, rfl⟩
  all_goals exact .keeps ⟨rfl, rfl⟩

/-! ### Law (a) -/

/-- Counts are within capacities and these within the physical slots (R170). -/
def ArenaBounds (s : State) : Prop := ∀ a, readCount s a ≤ readCap s a ∧ readCap s a ≤ 256

theorem arenaBounds_resetWith (u : Unspecified) : ArenaBounds (State.resetWith u) := fun a => by
  simp only [readCount_resetWith, readCap_resetWith, Nat.zero_le, and_self]

theorem KeepsArenaRegs.bounds {s t : State} (h : KeepsArenaRegs s t) (hs : ArenaBounds s) : ArenaBounds t := by
  obtain ⟨hcount, hcap⟩ := h
  simpa only [ArenaBounds, hcount, hcap] using hs

theorem ArenaEffect.bounds {i : Instr} {s t : State} (h : ArenaEffect s t i) (hs : ArenaBounds s) : ArenaBounds t := by
  intro a'
  obtain ⟨hle, hphys⟩ := hs a'
  cases h with
  | keeps h => exact h.bounds hs a'
  | pushes hroom hcount hcap =>
    rw [hcount, hcap, Function.update_apply]
    split
    next ha => subst ha; exact ⟨hroom, hphys⟩
    next => exact ⟨hle, hphys⟩
  | removes hlive hcount hcap =>
    rw [hcount, hcap, Function.update_apply]
    split
    next ha => subst ha; exact ⟨(Nat.sub_le _ 1).trans hle, hphys⟩
    next => exact ⟨hle, hphys⟩
  | inits hcount hcap =>
    rw [hcount, hcap, Function.update_apply, Function.update_apply]
    split
    · exact ⟨Nat.zero_le _, Nat.min_le_right _ 256⟩
    · exact ⟨hle, hphys⟩

/-- Besides commands a step only moves words, goes on with a walk, faults or refuses. -/
theorem step_arenaBounds {s t : State} (h : step s = .next t) (hs : ArenaBounds s) : ArenaBounds t := by
  rcases step_cases s with ⟨w, -, he⟩ | ⟨-, -, he⟩ | ⟨-, ws, rest, -, hcmd⟩
  · cases he.symm.trans h
    exact (keepsArenaRegs_paintAdvance _ _ _ s).bounds hs
  · cases he.symm.trans h
    exact hs
  · have htaken : ArenaBounds (afterTaking rest s) := hs
    rcases hcmd with ⟨i, -, he⟩ | ⟨-, he⟩ | ⟨-, he⟩
    · exact (exec_arenaEffect (he.symm.trans h)).bounds htaken
    · cases he.symm.trans h
      exact (keepsArenaRegs_faultOrRefuse _ _ _).bounds htaken
    · cases he.symm.trans h
      exact (keepsArenaRegs_faultOrRefuse _ _ _).bounds htaken

/-! ### Law (b) -/

/-- A count that is not what it was is the written one of its command. -/
theorem eq_of_update_ne {f g : RegNo → Nat} {a a' : RegNo} {n : Nat} (hg : g = Function.update f a n) (h : g a' ≠ f a') :
    a = a' ∧ g a' = n := by
  subst g
  obtain rfl : a' = a := by
    by_contra hne
    exact h (Function.update_of_ne hne n f)
  exact ⟨rfl, Function.update_self a' n f⟩

theorem ArenaEffect.count_changes {i : Instr} {s t : State} (h : ArenaEffect s t i) {a : RegNo}
    (hne : readCount t a ≠ readCount s a) :
    ((∃ r, i = .apush a r) ∧ readCount t a = readCount s a + 1) ∨
    ((∃ k, i = .arem a k) ∧ readCount t a + 1 = readCount s a) ∨
    ((∃ cap, i = .ainit a cap) ∧ readCount t a = 0) := by
  cases h with
  | keeps h =>
    obtain ⟨hcount, -⟩ := h
    exact absurd (congrFun hcount a) hne
  | pushes _ hcount _ =>
    obtain ⟨rfl, hn⟩ := eq_of_update_ne hcount hne
    exact .inl ⟨⟨_, rfl⟩, hn⟩
  | removes hlive hcount _ =>
    obtain ⟨rfl, hn⟩ := eq_of_update_ne hcount hne
    exact .inr (.inl ⟨⟨_, rfl⟩, by omega⟩)
  | inits hcount _ =>
    obtain ⟨rfl, hn⟩ := eq_of_update_ne hcount hne
    exact .inr (.inr ⟨⟨_, rfl⟩, hn⟩)

/-! ### Law (c) -/

theorem swap_range_perm {n k l : Nat} (hk : k < n) (hl : l < n) :
    ((List.range n).map (Equiv.swap k l)).Perm (List.range n) := by
  have hmem (j : Nat) : Equiv.swap k l j < n ↔ j < n := by
    rw [Equiv.swap_apply_def]
    split_ifs <;> omega
  refine (List.perm_ext_iff_of_nodup (List.nodup_range.map (Equiv.swap k l).injective) List.nodup_range).2 fun j => ?_
  rw [List.mem_map_of_involutive (Equiv.swap_apply_self k l), List.mem_range, List.mem_range, hmem]

open List in
/-- Exchanging entry `k` with the last of a list and cutting the last off takes one copy of entry `k` from the list. -/
theorem cons_swapped_perm {α : Type} (f : Nat → α) {k last : Nat} (hk : k ≤ last) :
    (f k :: (List.range last).map (f ∘ Equiv.swap last k)).Perm ((List.range (last + 1)).map f) := by
  have hlast : [f k] = [last].map (f ∘ Equiv.swap last k) := by simp
  calc f k :: (List.range last).map (f ∘ Equiv.swap last k)
    _ ~ (List.range last).map (f ∘ Equiv.swap last k) ++ [f k] := (List.perm_append_singleton ..).symm
    _ = ((List.range (last + 1)).map (Equiv.swap last k)).map f := by
        rw [hlast, ← List.map_append, ← List.range_succ, List.map_map]
    _ ~ (List.range (last + 1)).map f := (swap_range_perm (Nat.lt_succ_self last) (Nat.lt_succ_of_le hk)).map f

theorem arem_liveEntries_perm {s : State} {a : RegNo} {k : Byte} (hrun : s.fault = 0)
    (hs : Memory.wf ⟨0, 0⟩ 4096 s.ents = true) (hlive : k.toNat < readCount s a) :
    ∃ t, exec (.arem a k) s = .next t ∧ (readEnt s a k.toNat :: liveEntries t a).Perm (liveEntries s a) := by
  refine ⟨_, exec_arem_live hrun hlive, ?_⟩
  obtain ⟨hcount, -⟩ := respond_writeCount_effect 1 a (readCount s a - 1)
    (s := s) (e := swapEnts a k.toNat (readCount s a - 1) s) ⟨_, rfl⟩
  have hslots : readEnt (respond 1 (writeCount a (readCount s a - 1) (swapEnts a k.toNat (readCount s a - 1) s))) a = _ :=
    readEnt_swapEnts_same a k.toNat (readCount s a - 1) (ents_rising_of_wf hs)
  obtain ⟨last, hlast⟩ : ∃ last, readCount s a = last + 1 := Nat.exists_eq_add_one_of_ne_zero (by omega)
  rw [liveEntries, liveEntries, hcount, hslots, hlast]
  exact cons_swapped_perm (readEnt s a) (by omega)

/-- Settles O58: (a) and (b) from what a command can do to the arena registers, (c) from the exchange of two live entries, (d) as
APUSH at capacity. -/
theorem arenaLaws : Obligations.ArenaLaws :=
  ⟨arenaBounds_resetWith, fun _ _ h hs => step_arenaBounds h hs, fun _ _ _ _ h hne => (exec_arenaEffect h).count_changes hne,
    fun s a cap hrun => ⟨_, exec_ainit hrun cap, (readCount_writeCount a a 0 (writeCap a _ s)).trans (if_pos rfl)⟩,
    fun _ _ _ => arem_liveEntries_perm, fun _ _ r hrun hfull => ⟨_, exec_apush_full hrun r hfull.ge, rfl⟩⟩

end Sys2Proof.Machine
end

section
/-! The system commands (45_system.md R190, R191): the one legal word with NOP's opcode byte, what NOP does on a running and on a
halted unit, and what STAT answers on either. -/

namespace Sys2Proof

theorem word_eq_zero_iff_of_opOf {w : Word} (hop : opOf w = 0x00#8) : w = 0#32 ↔ w.extractLsb' 0 24 = 0#24 := by
  rw [opOf, extract_eq_iff] at hop
  rw [extract_eq_iff, ← BitVec.toNat_inj]
  have hlt : w.toNat < 2 ^ 32 := w.isLt
  simp only [BitVec.toNat_ofNat] at hop ⊢
  omega

theorem length_of_opOf_zero {w : Word} (hop : opOf w = 0x00#8) : [w].length = commandLength w :=
  (commandLength_eq_one (hop ▸ by decide) (hop ▸ by decide)).symm

/-- The byte 0x00 selects NOP's row, whose format reserves every other bit. -/
theorem decode_of_opOf_zero {w : Word} (hop : opOf w = 0x00#8) :
    decode [w] = if w = 0#32 then .ok .nop else .error .reservedField := by
  have hrow : rowOf w = some ⟨0x00#8, .N, fun _ _ => .nop⟩ := rowOf_of_find hop (by decide) rfl
  rw [decode_of_row (length_of_opOf_zero hop) hrow]
  simp only [Format.reservedClear, Instr.wellFormed, Bool.and_true, beq_iff_eq, word_eq_zero_iff_of_opOf hop]

end Sys2Proof

namespace Sys2Proof.Machine

theorem exec_nop_running {s : State} (hrun : s.fault = 0) : exec .nop s = .next (respond 0 s) :=
  congrArg Host.Outcome.next (checked_running _ hrun rfl)

theorem exec_nop_halted {s : State} (hhalt : s.fault ≠ 0) : exec .nop s = .next (refuse s) :=
  congrArg Host.Outcome.next (checked_halted _ _ hhalt)

/-- A well-formed STAT is executed whether the unit is running or halted (R205). -/
theorem exec_stat {sel : Byte} (hsel : sel.toNat ≤ 2) (s : State) : exec (.stat sel) s = .next (respond (statValue sel s) s) :=
  congrArg Host.Outcome.next (if_pos (decide_eq_true hsel))

theorem statValue_toNat (sel : Byte) (s : State) :
    (statValue sel s).toNat =
      if sel = 0 then s.fault.toNat else if sel = 1 then s.fcmd.toNat % 2 ^ 24 else s.fcmd.toNat / 2 ^ 24 := by
  rw [statValue]
  split_ifs
  · exact byteValue_toNat s.fault
  · rw [extract_toNat, Nat.pow_zero, Nat.div_one]
  · have hlt : s.fcmd.toNat < 2 ^ 32 := s.fcmd.isLt
    rw [byteValue_toNat, extract_toNat]
    omega

/-- Settles O14: STAT's answer in every state, as a number. -/
theorem statReadsFaultRegisters : Obligations.StatReadsFaultRegisters := fun s sel hsel =>
  ⟨_, _, exec_stat hsel s, onlyResponds_respond _ s, statValue_toNat sel s⟩

/-- Settles O20: the opcode byte decides the row, the other bits whether it is a command, and FAULT whether NOP is refused. -/
theorem nopOnlyResponds : Obligations.NopOnlyResponds := by
  refine ⟨fun w hop => ?_, fun s w rest hw hrun hop hne hat => ?_, fun s => ⟨fun hrun => ?_, fun hhalt => ?_⟩⟩
  · have hdecode := decode_of_opOf_zero hop
    split_ifs with hzero
    · exact hdecode.trans (if_pos hzero)
    · exact hdecode.trans (if_neg hzero)
  · have hrejected : decode [w] = .error .reservedField := (decode_of_opOf_zero hop).trans (if_neg hne)
    exact step_faults_on_encoding hw hrun hat (length_of_opOf_zero hop) (dispatchWords_reservedField hrejected)
  · exact ⟨_, exec_nop_running hrun, onlyResponds_respond 0 s⟩
  · exact ⟨_, exec_nop_halted hhalt, refuse_effect s⟩

end Sys2Proof.Machine
end

section
/-! What a command can come to, said once for all commands (60_exceptions.md R205 to R207): a refusal, a fault, the beginning of a
paint walk, or one response with status 0x00 on top of writes that leave the control state alone. -/

namespace Sys2Proof

theorem opOf_responseWord (status : Byte) (value : Value) : opOf (Machine.responseWord status value) = status := by
  have hlt : value.toNat < 2 ^ 24 := value.isLt
  have hstatus : status.toNat < 2 ^ 8 := status.isLt
  rw [opOf, extract_eq_iff, Machine.responseWord, toNat_append_eq]
  omega

theorem Instr.wellFormed_of_faultFree {i : Instr} (hi : i.faultFree = true) : i.wellFormed = true :=
  (Bool.and_eq_true_iff.1 hi).1

theorem Instr.selOk_of_faultFree {sel : Byte} (hi : (Instr.stat sel).faultFree = true) : selOk sel = true :=
  Instr.wellFormed_of_faultFree hi

theorem Instr.valid_of_faultFree {d : RegNo} {wh : Byte} {data : BitVec 16} (hi : (Instr.fld d wh data).faultFree = true) :
    Figure.valid ⟨data, wh⟩ = true :=
  (Bool.and_eq_true_iff.1 hi).2

end Sys2Proof

namespace Sys2Proof.Machine

/-- The fault registers, the walk, the responses and the acceptor's answers are as before. -/
structure KeepsControl (s e : State) : Prop where
  fault : e.fault = s.fault
  fcmd : e.fcmd = s.fcmd
  walk : e.walk = s.walk
  responses : e.responses = s.responses
  paintAnswers : e.paintAnswers = s.paintAnswers

theorem keepsControl_of_cells {s e : State} (he : ∃ m, e = { s with cells := m }) : KeepsControl s e := by
  obtain ⟨m, rfl⟩ := he
  exact ⟨rfl, rfl, rfl, rfl, rfl⟩

/-- The states that a command executed in `s` can come to. -/
inductive CommandOutcome (s : State) : Instr → State → Prop where
  | refused {i : Instr} (hhalt : s.fault ≠ 0) : CommandOutcome s i (refuse s)
  | faults {i : Instr} (hrun : s.fault = 0) (hi : ¬i.faultFree = true) (c : FaultCause) :
      CommandOutcome s i (takeFault c i.header s)
  | answers {i : Instr} (v : Value) {e : State} (he : KeepsControl s e) : CommandOutcome s i (respond v e)
  | paints {b p f : RegNo} {c : Byte} : CommandOutcome s (.fpaint b p f c) (paintStart ⟨b, p, f, c, 0⟩ s)

theorem commandOutcome_checked {i : Instr} {s e : State} (he : s.fault = 0 → CommandOutcome s i e) :
    CommandOutcome s i (checked i s e) := by
  rcases checked_cases i s e with ⟨hhalt, h⟩ | ⟨hrun, hi, h⟩ | ⟨hrun, -, h⟩ <;> rw [h]
  · exact .refused hhalt
  · exact .faults hrun (fun hfree => by simp [Instr.wellFormed_of_faultFree hfree] at hi) _
  · exact he hrun

theorem exec_outcome {i : Instr} {s t : State} (h : exec i s = .next t) : CommandOutcome s i t := by
  cases i <;> cases h
  case stat sel =>
    split
    next => exact .answers _ ⟨rfl, rfl, rfl, rfl, rfl⟩
    next hsel =>
      rcases faultOrRefuse_cases .reservedField (Instr.stat sel).header s with ⟨hhalt, h⟩ | ⟨hrun, h⟩ <;> rw [h]
      · exact .refused hhalt
      · exact .faults hrun (fun hfree => hsel (Instr.selOk_of_faultFree hfree)) _
  all_goals refine commandOutcome_checked fun hrun => ?_
  case fpaint => exact .paints
  case fld =>
    split
    next => exact .answers _ ⟨rfl, rfl, rfl, rfl, rfl⟩
    next hinvalid => exact .faults hrun (fun hfree => hinvalid (Instr.valid_of_faultFree hfree)) _
  case fbset => exact .answers _ (keepsControl_of_cells (cellWrite_fields ..))
  case fbdraw => exact .answers _ (keepsControl_of_cells (drawFigure_fields ..))
  case apush | arem | aget | aset => split <;> exact .answers _ ⟨rfl, rfl, rfl, rfl, rfl⟩
  all_goals exact .answers _ ⟨rfl, rfl, rfl, rfl, rfl⟩

end Sys2Proof.Machine
end

section
/-! The halted unit (60_exceptions.md R205, R208): a step takes a whole command and answers it, a well-formed STAT with its value
and every other one with the refusal, or gathers words; so no number of steps changes anything but the ports and the assembler. -/

namespace Sys2Proof.Machine

/-- Settles O9: each thing a step can do answers a next state, as every command does. -/
theorem stepIsTotal : Obligations.StepIsTotal := by
  intro s
  rcases step_cases s with ⟨w, -, h⟩ | ⟨-, -, h⟩ | ⟨-, ws, rest, -, ⟨i, -, h⟩ | ⟨-, h⟩ | ⟨-, h⟩⟩
  · exact ⟨_, h⟩
  · exact ⟨_, h⟩
  · exact (exec_answers i (afterTaking rest s)).imp fun _ ht => h.trans ht
  · exact ⟨_, h⟩
  · exact ⟨_, h⟩

/-! ### One step -/

theorem faultOrRefuse_halted (c : FaultCause) (w : Word) {s : State} (hhalt : s.fault ≠ 0) :
    faultOrRefuse c w s = refuse s :=
  if_pos (halted_iff.2 hhalt)

/-- STAT is the one command that a halted unit executes. -/
theorem exec_halted {i : Instr} {s : State} (hhalt : s.fault ≠ 0) (hi : ∀ sel, i ≠ .stat sel) :
    exec i s = .next (refuse s) := by
  cases i
  case stat sel => exact absurd rfl (hi sel)
  all_goals exact congrArg Host.Outcome.next (checked_halted _ _ hhalt)

/-- What a command keeps of the state in which its words are taken, the step keeps of the state before. -/
theorem KeepsAllBut.of_afterTaking {changed : List Part} {rest : List Word} {s t : State}
    (h : KeepsAllBut changed (afterTaking rest s) t) : KeepsAllBut (changed ++ [.assembler, .cmdPort]) s t := by
  intro p hp
  obtain ⟨hunchanged, huntaken⟩ := not_or.1 (List.mem_append.not.1 hp)
  have hsame := h p hunchanged
  cases p with
  | assembler | cmdPort => exact absurd (by decide) huntaken
  | _ => exact hsame

theorem keepsAllBut_sendResponse (status : Byte) (v : Value) (s : State) :
    KeepsAllBut [.responses] s (sendResponse status v s) :=
  keepsAllBut_of_sameFields fun p hp => by cases p <;> first | rfl | exact ⟨rfl, rfl⟩ | simp at hp

/-- Taking a command's words and answering it changes nothing else. -/
theorem keepsAllBut_answerTaken (status : Byte) (v : Value) (rest : List Word) (s : State) :
    KeepsAllBut [.responses, .assembler, .cmdPort] s (sendResponse status v (afterTaking rest s)) :=
  (keepsAllBut_sendResponse status v (afterTaking rest s)).of_afterTaking

section
variable {s : State} {ws rest : List Word} (hw : s.walk = none) (hat : s.asm ++ s.cmdPort = ws ++ rest)
include hw hat

theorem step_stat {sel : Byte} (hd : decode ws = .ok (.stat sel)) :
    step s = .next (respond (statValue sel s) (afterTaking rest s)) := by
  obtain ⟨-, hsel⟩ := decode_eq_ok hd
  exact (step_of_decode_eq_ok hw hat hd).trans (exec_stat (of_decide_eq_true hsel) (afterTaking rest s))

theorem step_halted_refuses (hhalt : s.fault ≠ 0) (hws : WholeCommand ws) (hd : ∀ sel, decode ws ≠ .ok (.stat sel)) :
    step s = .next (refuse (afterTaking rest s)) := by
  rw [step, fetch_wholeCommand hw hat hws]
  rcases dispatchWords_cases (afterTaking rest s) hws with ⟨i, hi, h⟩ | ⟨-, h⟩ | ⟨-, h⟩ <;> rw [h]
  · exact exec_halted hhalt fun sel hstat => hd sel (hstat ▸ hi)
  · exact congrArg Host.Outcome.next (faultOrRefuse_halted _ _ hhalt)
  · exact congrArg Host.Outcome.next (faultOrRefuse_halted _ _ hhalt)

end

/-- Settles O13: the step that takes the command is a refusal. -/
theorem haltedUnitRefuses : Obligations.HaltedUnitRefuses := fun s _ rest hw hhalt hat hws hd =>
  ⟨_, step_halted_refuses hw hat hhalt hws hd, rfl, rfl, rfl, keepsAllBut_answerTaken 0x7F 0 rest s⟩

/-! ### Any number of steps -/

/-- What a halted unit can come to from `s`: the ports and the assembler apart nothing is different, and the responses sent are
STAT's and refusals. -/
def HaltedEffect (s t : State) : Prop :=
  KeepsAllBut [.responses, .assembler, .cmdPort] s t ∧
    ∃ rs, t.responses = s.responses ++ rs ∧ ∀ r ∈ rs, opOf r = 0x00 ∨ r = responseWord 0x7F 0

theorem haltedEffect_refl (s : State) : HaltedEffect s s :=
  ⟨keepsAllBut_of_sameFields fun p _ => by cases p <;> simp [SameFields], [], by simp⟩

theorem HaltedEffect.trans {s t u : State} (hst : HaltedEffect s t) (htu : HaltedEffect t u) : HaltedEffect s u := by
  obtain ⟨hkeeps, rs, hresp, hrs⟩ := hst
  obtain ⟨hkeeps', rs', hresp', hrs'⟩ := htu
  exact ⟨keepsAllBut_trans hkeeps hkeeps', rs ++ rs', by rw [hresp', hresp, List.append_assoc],
    List.forall_mem_append.2 ⟨hrs, hrs'⟩⟩

theorem HaltedEffect.fault_walk {s t : State} (h : HaltedEffect s t) : t.fault = s.fault ∧ t.walk = s.walk := by
  obtain ⟨hkeeps, -⟩ := h
  exact ⟨(hkeeps .faultRegs (by decide)).1, hkeeps .walk (by decide)⟩

theorem haltedEffect_answerTaken {status : Byte} {v : Value} (rest : List Word) (s : State)
    (hanswer : opOf (responseWord status v) = 0x00 ∨ responseWord status v = responseWord 0x7F 0) :
    HaltedEffect s (sendResponse status v (afterTaking rest s)) :=
  ⟨keepsAllBut_answerTaken status v rest s, [responseWord status v], rfl, List.forall_mem_singleton.2 hanswer⟩

theorem haltedEffect_gather (s : State) : HaltedEffect s (gather s) :=
  ⟨fun p hp => gather_keepsAllBut s p (List.not_mem_of_not_mem_cons hp), [], by simp⟩

theorem step_haltedEffect {s t : State} (hhalt : s.fault ≠ 0) (hw : s.walk = none) (h : step s = .next t) :
    HaltedEffect s t := by
  cases htake : takeCommand (s.asm ++ s.cmdPort) with
  | none =>
    cases (step_incomplete hw (takeCommand_eq_none_iff.1 htake)).symm.trans h
    exact haltedEffect_gather s
  | some taken =>
    obtain ⟨ws, rest⟩ := taken
    obtain ⟨hat, hws⟩ := takeCommand_eq_some_iff.1 htake
    by_cases hstat : ∃ sel, decode ws = .ok (.stat sel)
    · obtain ⟨sel, hd⟩ := hstat
      cases (step_stat hw hat hd).symm.trans h
      exact haltedEffect_answerTaken rest s (.inl (opOf_responseWord ..))
    · cases (step_halted_refuses hw hat hhalt hws (not_exists.1 hstat)).symm.trans h
      exact haltedEffect_answerTaken rest s (.inr rfl)

theorem run_succ_of_step {s u : State} (h : step s = .next u) (n : Nat) : core.run (n + 1) s = core.run n u := by
  have hcore : core.step s = .next u := h
  simp only [Host.Core.run, hcore]

/-- Settles O15, by induction on the steps: each leaves the unit halted, without a walk. -/
theorem haltedUntilReset : Obligations.HaltedUntilReset := by
  intro n
  induction n with
  | zero =>
    intro s t _ _ h
    cases h
    exact haltedEffect_refl s
  | succ n ih =>
    intro s t hhalt hw h
    obtain ⟨u, hu⟩ := stepIsTotal s
    rw [run_succ_of_step hu] at h
    have hfirst : HaltedEffect s u := step_haltedEffect hhalt hw hu
    obtain ⟨hfault, hwalk⟩ := hfirst.fault_walk
    exact hfirst.trans (ih u t (hfault ▸ hhalt) (hwalk.trans hw) h)

end Sys2Proof.Machine
end

section
/-! Taking a fault (60_exceptions.md R203, R204, R211): the only thing that changes FAULT, and what the unit does after it. -/

namespace Sys2Proof.Machine

theorem CommandOutcome.changes_fault {i : Instr} {s t : State} (h : CommandOutcome s i t) (hne : t.fault ≠ s.fault) :
    s.fault = 0 ∧ ∃ c, t = takeFault c i.header s := by
  cases h with
  | refused => exact absurd rfl hne
  | faults hrun _ c => exact ⟨hrun, c, rfl⟩
  | answers v he => exact absurd he.fault hne
  | paints => exact absurd (keepsAllBut_paintAdvance _ _ _ s .faultRegs (by decide)).1 hne

theorem faultOrRefuse_changes_fault {c : FaultCause} {w : Word} {s : State} (hne : (faultOrRefuse c w s).fault ≠ s.fault) :
    s.fault = 0 ∧ ∃ c', faultOrRefuse c w s = takeFault c' w s := by
  rcases faultOrRefuse_cases c w s with ⟨-, h⟩ | ⟨hrun, h⟩
  · exact absurd (congrArg State.fault h) hne
  · exact ⟨hrun, c, h⟩

/-- A step that changes FAULT takes a whole command and takes a fault for its header. -/
theorem step_changes_fault {s t : State} (h : step s = .next t) (hne : t.fault ≠ s.fault) :
    s.walk = none ∧ s.fault = 0 ∧ ∃ (c : FaultCause) (w : Word) (pay rest : List Word),
      s.asm ++ s.cmdPort = w :: pay ++ rest ∧ (w :: pay).length = commandLength w ∧
        t = takeFault c w (afterTaking rest s) := by
  rcases step_cases s with ⟨w, -, he⟩ | ⟨-, -, he⟩ | ⟨hw, ws, rest, htake, hcmd⟩
  · cases he.symm.trans h
    exact absurd (keepsAllBut_paintAdvance _ _ _ s .faultRegs (by decide)).1 hne
  · cases he.symm.trans h
    exact absurd rfl hne
  · obtain ⟨hat, w, pay, rfl, hlen⟩ := takeCommand_eq_some_iff.1 htake
    have hfault : s.fault = 0 ∧ ∃ c, t = takeFault c w (afterTaking rest s) := by
      rcases hcmd with ⟨i, hd, he⟩ | ⟨-, he⟩ | ⟨-, he⟩
      · obtain ⟨hwords, -⟩ := decodedWordsAreTheEncoding _ i hd
        have hheader : i.header = w := (List.cons.inj hwords).1
        exact hheader ▸ (exec_outcome (he.symm.trans h)).changes_fault hne
      · cases he.symm.trans h
        exact faultOrRefuse_changes_fault hne
      · cases he.symm.trans h
        exact faultOrRefuse_changes_fault hne
    obtain ⟨hrun, c, ht⟩ := hfault
    exact ⟨hw, hrun, c, w, pay, rest, hat, hlen, ht⟩

/-- Settles O16: the fault that the step takes writes its two registers and answers. -/
theorem faultWritesOnlyFaultRegisters : Obligations.FaultWritesOnlyFaultRegisters := by
  intro s t h hne
  obtain ⟨-, hrun, c, w, pay, rest, hat, hlen, rfl⟩ := step_changes_fault h hne
  obtain ⟨hfault, hfcmd, hresp, hkeeps⟩ := takeFault_effect c w (afterTaking rest s)
  exact ⟨hrun, c, w, pay, hat, hlen, rfl, hfault, hfcmd, hresp, hkeeps.of_afterTaking⟩

/-- Settles O59: the fault leaves the words behind its command, where the halted unit's next step finds them. -/
theorem faultTransfersControlNowhere : Obligations.FaultTransfersControlNowhere := by
  intro s t h hne
  obtain ⟨hw, -, c, w, pay, left, hat, hlen, rfl⟩ := step_changes_fault h hne
  refine ⟨rfl, hw, ⟨w :: pay, ⟨w, pay, rfl, hlen⟩, hat⟩, fun ws rest hws hnext => ?_⟩
  have hhalt : (takeFault c w (afterTaking left s)).fault ≠ 0 := code_ne_zero c
  have hidle : (takeFault c w (afterTaking left s)).walk = none := hw
  by_cases hstat : ∃ sel, decode ws = .ok (.stat sel)
  · obtain ⟨sel, hd⟩ := hstat
    exact ⟨_, step_stat hidle hnext hd, rfl, rfl, keepsAllBut_answerTaken _ _ rest _, fun _ _ => ⟨_, rfl⟩,
      fun hnone => absurd hd (hnone sel)⟩
  · have hnone := not_exists.1 hstat
    exact ⟨_, step_halted_refuses hidle hnext hhalt hws hnone, rfl, rfl, keepsAllBut_answerTaken _ _ rest _,
      fun sel hd => absurd hd (hnone sel), fun _ => rfl⟩

end Sys2Proof.Machine
end

section
/-! Commands that cannot fault (60_exceptions.md R207), one at a time and in a stream: with 16 answers of the acceptor at hand even
an FPAINT is answered in its own step, since a valid Figure has no more pixels. -/

namespace Sys2Proof.Machine

/-! ### A single command -/

theorem paintAdvance_responses (w : PaintWalk) (first : List (Nat × Nat)) (run : PaintRun) (s : State) :
    ∃ rs, (paintAdvance w first run s).responses = s.responses ++ rs ∧ ∀ r ∈ rs, opOf r = 0x00 := by
  rw [paintAdvance_eq]
  cases run.verdict with
  | some ok => exact ⟨[_], rfl, List.forall_mem_singleton.2 (opOf_responseWord ..)⟩
  | none => exact ⟨[], by simp⟩

/-- Settles O17: of the things a command can come to, only answering and painting are left. -/
theorem faultFreeCommandsNeverFault : Obligations.FaultFreeCommandsNeverFault := by
  intro i s hi hrun
  obtain ⟨t, ht⟩ := exec_answers i s
  refine ⟨t, ht, ?_⟩
  cases exec_outcome ht with
  | refused hhalt => exact absurd hrun hhalt
  | faults _ hfaulty => exact absurd hi hfaulty
  | answers v he =>
    exact ⟨he.fault.trans hrun, he.fcmd, [responseWord 0x00 v], congrArg (· ++ _) he.responses,
      List.forall_mem_singleton.2 (opOf_responseWord ..)⟩
  | paints =>
    obtain ⟨hfault, hfcmd⟩ := keepsAllBut_paintAdvance _ _ _ s .faultRegs (by decide)
    exact ⟨hfault.trans hrun, hfcmd, paintAdvance_responses ..⟩

/-! ### A paint walk with enough answers -/

theorem pixels_length_le {f : Figure} (hf : f.valid = true) : f.pixels.length ≤ 16 :=
  calc f.pixels.length
    _ = (List.range 16).countP (fun k => f.data.getLsbD k) := (countP_data hf).symm
    _ ≤ (List.range 16).length := List.countP_le_length
    _ = 16 := List.length_range

theorem paintSettle_ends {ps : List (Nat × Nat)} {as : List Bool} (h : ps.length ≤ as.length) :
    ∃ ok, (paintSettle ps as).verdict = some ok := by
  refine Option.ne_none_iff_exists'.1 fun hwaits => ?_
  obtain ⟨-, -, hlt, -⟩ := paintSettle_waits hwaits
  omega

/-- A walk uses at most one answer for each pixel. -/
theorem length_le_paintSettle_answers (ps : List (Nat × Nat)) (as : List Bool) :
    as.length ≤ (paintSettle ps as).answers.length + ps.length := by
  induction ps generalizing as with
  | nil => simp
  | cons p ps ih =>
    cases as with
    | nil => simp
    | cons ok as =>
      cases ok with
      | false => simp
      | true =>
        have hlater := ih as
        simp only [paintSettle_accept, List.length_cons]
        omega

theorem paintStart_answered {s : State} {w : PaintWalk} (hf : (readFig s w.fig).valid = true)
    (hans : 16 ≤ s.paintAnswers.length) :
    (paintStart w s).walk = none ∧ (∃ v, Responded 0x00 v s (paintStart w s)) ∧
      s.paintAnswers.length ≤ (paintStart w s).paintAnswers.length + 16 := by
  have hpixels := pixels_length_le hf
  have hused := length_le_paintSettle_answers (readFig s w.fig).pixels s.paintAnswers
  obtain ⟨ok, hok⟩ := paintSettle_ends (hpixels.trans hans)
  rw [paintStart, paintAdvance_eq, hok]
  exact ⟨rfl, ⟨_, rfl⟩, by dsimp only; omega⟩

/-! ### Streams -/

/-- With 16 answers at hand a fault-free command is answered at once, and uses no more of them. -/
theorem exec_faultFree_answered {i : Instr} {s t : State} (hs : Inv s) (hrun : s.fault = 0) (hw : s.walk = none)
    (hi : i.faultFree = true) (hans : 16 ≤ s.paintAnswers.length) (h : exec i s = .next t) :
    t.walk = none ∧ (∃ v, Responded 0x00 v s t) ∧ s.paintAnswers.length ≤ t.paintAnswers.length + 16 := by
  cases exec_outcome h with
  | refused hhalt => exact absurd hrun hhalt
  | faults _ hfaulty => exact absurd hi hfaulty
  | answers v he =>
    refine ⟨he.walk.trans hw, ⟨v, congrArg (· ++ _) he.responses⟩, ?_⟩
    rw [respond_paintAnswers, he.paintAnswers]
    omega
  | paints => exact paintStart_answered (hs.figsValid _) hans

/-- The step that takes the first command of a stream of fault-free ones. -/
theorem step_faultFree {s : State} {i : Instr} {rest : List Word} (hs : Inv s) (hrun : s.fault = 0) (hw : s.walk = none)
    (hat : s.asm ++ s.cmdPort = encode i ++ rest) (hi : i.faultFree = true) (hans : 16 ≤ s.paintAnswers.length) :
    ∃ t, step s = .next t ∧ t.fault = 0 ∧ t.walk = none ∧ t.asm = [] ∧ t.cmdPort = rest ∧
      (∃ v, Responded 0x00 v s t) ∧ s.paintAnswers.length ≤ t.paintAnswers.length + 16 := by
  have hd : decode (encode i) = .ok i := decodeReadsEncodedCommand i (Instr.wellFormed_of_faultFree hi)
  obtain ⟨t, ht, hfault, -⟩ := faultFreeCommandsNeverFault i (afterTaking rest s) hi hrun
  obtain ⟨hasm, hport⟩ := exec_keeps_words ht
  obtain ⟨hwalk, hresp, hleft⟩ := exec_faultFree_answered (inv_afterTaking hs hw rest) hrun hw hi hans ht
  exact ⟨t, (step_of_decode_eq_ok hw hat hd).trans ht, hfault, hwalk, hasm, hport, hresp, hleft⟩

/-- Settles O18, by induction on the commands: after each the unit is as ready for those that follow. -/
theorem faultFreeStreamsAreAnswered : Obligations.FaultFreeStreamsAreAnswered := by
  intro is
  induction is with
  | nil =>
    intro s _ hrun hw hasm hport _ _
    exact ⟨s, [], rfl, hrun, hw, hasm, hport, by simp⟩
  | cons i is ih =>
    intro s hs hrun hw hasm hport hfree hans
    obtain ⟨hi, his⟩ := List.forall_mem_cons.1 hfree
    rw [List.length_cons] at hans
    have hat : s.asm ++ s.cmdPort = encode i ++ is.flatMap encode := by rw [hasm, hport]; rfl
    obtain ⟨u, hstep, hrun', hw', hasm', hport', ⟨v, hresp⟩, hleft⟩ := step_faultFree hs hrun hw hat hi (by omega)
    obtain ⟨t, rs, ht, hfault, hwalk, hempty, hdone, hresps, hlen, hrs⟩ :=
      ih u (stepKeepsInv s u hs hstep) hrun' hw' hasm' hport' his (by omega)
    refine ⟨t, responseWord 0x00 v :: rs, (run_succ_of_step hstep _).trans ht, hfault, hwalk, hempty, hdone, ?_,
      congrArg (· + 1) hlen, List.forall_mem_cons.2 ⟨opOf_responseWord .., hrs⟩⟩
    rw [hresps, hresp, List.append_assoc, List.singleton_append]

end Sys2Proof.Machine
end

section
/-! Reset (10_state.md R20; 70_reset_and_hazards.md R230 to R232): reset asserted gives the reset state but for the queues of the
ports, which the invariant does not speak of. -/

namespace Sys2Proof.Machine

/-- The cleared registers and the empty hidden state meet the invariant; the two memories are the environment's. -/
theorem inv_resetWith {u : Unspecified} (hu : u.wf = true) : Inv (State.resetWith u) where
  figsValid r := by
    rw [readFig_resetWith]
    decide
  countLeCap a := (arenaBounds_resetWith u a).1
  capLe a := (arenaBounds_resetWith u a).2
  faultLegal := Nat.zero_le 3
  fcmdRunning _ := rfl
  cellsWf := (Bool.and_eq_true_iff.1 hu).1
  entsWf := (Bool.and_eq_true_iff.1 hu).2
  asmPartial := rfl
  walkWaits _ hwalk := nomatch hwalk

theorem inv_assertReset {u : Unspecified} (hu : u.wf = true) (s : State) : Inv (assertReset u s) :=
  { inv_resetWith hu with }

/-- Settles O11: the contents that the model chooses for the reset state have the canonical form too. -/
theorem resetMeetsInv : Obligations.ResetMeetsInv :=
  ⟨inv_resetWith (Bool.and_eq_true_iff.2 reset_memories_wf), fun _ hu => inv_resetWith hu, fun _ s hu => inv_assertReset hu s⟩

/-- Settles O12: the registers read as in the reset state, the other parts are fields of it or of the state before. -/
theorem resetGivesTheStatedValues : Obligations.ResetGivesTheStatedValues := fun u _ =>
  ⟨readDot_resetWith u, readFig_resetWith u, fun a => ⟨readCap_resetWith u a, readCount_resetWith u a⟩,
    rfl, rfl, rfl, rfl, rfl, rfl, rfl, rfl, rfl, rfl⟩

end Sys2Proof.Machine
end

section
/-! The words that the family files write out for their examples (30_encoding.md R70 to R77). -/

namespace Sys2Proof

theorem decode_of_encode_eq {i : Instr} {ws : List Word} (hwf : i.wellFormed = true) (h : encode i = ws) :
    decode ws = .ok i :=
  h ▸ decodeReadsEncodedCommand i hwf

/-- Settles O3: each example's words are the encoding of its well-formed command. -/
theorem exampleWordsDecode : Obligations.ExampleWordsDecode := by
  unfold Obligations.ExampleWordsDecode
  and_intros
  all_goals exact decode_of_encode_eq rfl rfl

end Sys2Proof
end
